-- ==== Sys2Proof/Word.lean ====
section
/-! DEFINITION. The two widths of the block: bytes on the memory port, 32-bit registers, addresses and counters
(00_scope.md R6, R9). -/
namespace Sys2Proof

/-- One byte of memory or of a wire field. -/
abbrev Byte := BitVec 8

/-- A host register, an address, an offset or a count: 32 bits, unsigned (00_scope.md R6, R9). -/
abbrev Word := BitVec 32

end Sys2Proof
end

