-- ==== Sys2Proof/Config.lean ====
section
/-! DEFINITION. What the platform fixes (the OPEN parameters of 00_scope.md R6), the names of the errors, and the free
values: constants without a body, of which nothing can be proved. -/
namespace Sys2Proof

/-- The kind of a memory access: `MEM_OK(addr, kind)` has `kind` R or W (20_memory.md R60). -/
inductive Access where
  | read
  | write
deriving DecidableEq, Repr

/-- The error kinds (60_exceptions.md R270). `ERR = 0` is success and no error. -/
inductive Err where
  | badArgument
  | noData
  | noMemory
  | invalid
  | overflow
  | msgSize
  | notFound
  | busError
deriving DecidableEq, Repr

/-- A range of addresses, both ends included, at which the platform refuses accesses of one kind. -/
structure Hole where
  kind : Access
  lo : Word
  hi : Word
deriving DecidableEq, Repr

/-- The OPEN parameters of the block as plain data (log 4): `BLOCK_BASE` (10_state.md R20) and `MEM_OK`, given by the
ranges the platform refuses (20_memory.md R60). Every predicate on address and kind is given by some list of ranges
(`Laws.memOk_represents`). Nothing in the machine writes them. -/
structure Platform where
  blockBase : Word
  holes : List Hole
deriving DecidableEq, Repr

namespace Config

/-- The platform that `State.reset` is given (log 4). DESIGN CHOICE, unsafe for a statement about a run from reset: the
window stands at the base the spec's example programs use, and no access is refused. -/
def platform : Platform := { blockBase := 0x40000000#32, holes := [] }

/-- Free bytes (log 6): what a raced command reads and writes. -/
opaque freeByte : Nat → Byte

/-- Free words (log 6): the result registers of a raced command. -/
opaque freeWord : Nat → Word

/-- Free endings (log 6): how a raced command ends, `none` being success. Codes 9 to 15 stay impossible
(60_exceptions.md R281). -/
opaque freeErr : Nat → Option Err

/-- Free choices (log 7, log 8): which of two values a contested byte has, and which the host reads of a byte the running
command may write. -/
opaque freeBool : Nat → Bool

end Config

end Sys2Proof
end

