-- ==== Sys2Proof/Machine/State.lean ====
section
/-! DEFINITION. The state of the block as plain data: the register window (10_state.md R20 to R27), the engine's internal
registers (R30 to R33), memory (20_memory.md R61), the platform's parameters, and the model's own bookkeeping. -/
namespace Sys2Proof.Machine

/-- FSM states, in the order of their 4-bit codes (10_state.md R32). The last two are the unused codes (R36). -/
inductive Fsm where
  | idle
  | dispatch
  | tokStart
  | tagFirst
  | tagCont
  | lenFirst
  | lenBytes
  | tokEnd
  | recWrite
  | recRead
  | encTag
  | encLen
  | emit
  | valCopy
  /-- Code 0xE: never entered (R36). -/
  | unusedE
  /-- Code 0xF: never entered (R36). -/
  | unusedF
deriving DecidableEq, Repr

/-- Which field the emitter is writing: `TAG` = 0, `LEN` = 1 (10_state.md R30). -/
inductive Fld where
  | tag
  | len
deriving DecidableEq, Repr

/-- Memory: (address, byte) pairs with strictly rising addresses below 2^32, none of them equal to what an unlisted address
reads as (`Memory.blank`, log 5). -/
abbrev Memory := List Host.Cell

/-- The host-visible registers (10_state.md R21). `op`, `busy`, `done` and `err` are the stored bits of `CMD` (R23) and
`STATUS` (R25); the other bits of those two registers read 0 (log 14). -/
structure Regs where
  op : BitVec 3
  busy : Bool
  done : Bool
  err : BitVec 4
  srcAddr : Word
  srcLen : Word
  dstAddr : Word
  dstCap : Word
  tokAddr : Word
  tokN : Word
  arg : Word
  res0 : Word
  res1 : Word
  res2 : Word
  res3 : Word
deriving DecidableEq, Repr

/-- The engine's internal registers (10_state.md R30). `recBuf` is the spec's `rec`, byte 0 of the record first; `ebuf` holds
`ebuf[0]` first. -/
structure Engine where
  st : Fsm
  off : Word
  acc : Word
  first : Bool
  nrem : BitVec 3
  tstart : Word
  vstart : Word
  ctag : Word
  clen : Word
  cnt : Word
  wcnt : Word
  k : BitVec 4
  recBuf : Vector Byte 12
  ebuf : Vector Byte 5
  en : BitVec 3
  ei : BitVec 3
  fld : Fld
  j : Word
  vaddr : Word
deriving DecidableEq, Repr

/-- The width of a host access to the register port (10_state.md R22, 92_eei_decisions.md D25). -/
inductive Width where
  | byte
  | half
  | word
  /-- Wider than 32 bits: one of R22's "any other access". D25 names only sub-word and misaligned ones. DESIGN CHOICE: it is
  treated as they are, ignored as a write and 0 as a read (log 12). -/
  | wide
deriving DecidableEq, Repr

/-- One move of the host (00_scope.md R11): a register access (10_state.md R22), a memory access, or a reset
(70_reset_and_hazards.md R300). -/
inductive HostMove where
  | regWrite (addr : Word) (width : Width) (data : Word)
  | regRead (addr : Word) (width : Width)
  | memWrite (addr : Word) (v : Byte)
  | memRead (addr : Word)
  | reset
deriving DecidableEq, Repr

/-- Whose turn it is (log 3). `poll` is R103's `POLL`: the engine moves while `STATUS.BUSY` is 1; then the host reads `STATUS`
once (log 13). -/
inductive Turn where
  | engine
  | host (m : HostMove)
  | poll
deriving DecidableEq, Repr

/-- The model's own bookkeeping, no register of the spec: the schedule of turns (log 3), the words the host has read, latest
first (log 13), the breach of R303 item 1 (log 6), the contested bytes of R303 item 2 (log 7), memory as it would stand without the
running command's writes (log 8), and the index of the next free value (log 16). -/
structure Env where
  sched : List Turn
  seen : List Word
  raced : Bool
  contested : List Nat
  before : Memory
  freeCtr : Nat
deriving DecidableEq, Repr

/-- Everything the spec gives the machine, the platform's parameters and the model's bookkeeping. -/
structure State where
  regs : Regs
  eng : Engine
  mem : Memory
  plat : Platform
  env : Env
deriving DecidableEq, Repr

/-- Why the machine stops. No run from reset reaches either (log 10). -/
inductive Fault where
  /-- `st` holds 0xE or 0xF, for which "this block defines no recovery" (10_state.md R36, U16). Raised by every command's
  meaning and by the reserved command. Safe: the spec calls a stuck model acceptable there. -/
  | unusedFsmCode
  /-- `st` names a state for which the running command has no rule (10_state.md R32), or a byte index lies outside its
  buffer. Raised by every command's meaning and by the reserved command. Safe: the spec gives no effect there. -/
  | noRule
deriving DecidableEq, Repr

/-- Why a step is refused. -/
inductive Refusal where
  /-- The command has no meaning in this model. Raised by no arm of `exec`. Safe. -/
  | notModelled (mnemonic : String)
deriving DecidableEq, Repr

/-- The result of an engine action. -/
abbrev Out := Host.Outcome State Fault Refusal

/-- Every host-visible register at its reset value 0 (10_state.md R21, 70_reset_and_hazards.md R300). -/
def Regs.zero : Regs :=
  { op := 0, busy := false, done := false, err := 0, srcAddr := 0, srcLen := 0, dstAddr := 0, dstCap := 0,
    tokAddr := 0, tokN := 0, arg := 0, res0 := 0, res1 := 0, res2 := 0, res3 := 0 }

/-- Every internal register at its value after reset: 0, `fld` at TAG, `st` at IDLE (10_state.md R30,
70_reset_and_hazards.md R300). -/
def Engine.zero : Engine :=
  { st := .idle, off := 0, acc := 0, first := false, nrem := 0, tstart := 0, vstart := 0, ctag := 0, clen := 0,
    cnt := 0, wcnt := 0, k := 0, recBuf := #v[0, 0, 0, 0, 0, 0, 0, 0, 0, 0, 0, 0], ebuf := #v[0, 0, 0, 0, 0],
    en := 0, ei := 0, fld := .tag, j := 0, vaddr := 0 }

/-- The bookkeeping of a machine that nothing has happened to (log 16). -/
def Env.zero : Env := { sched := [], seen := [], raced := false, contested := [], before := [], freeCtr := 0 }

/-- The machine after power-up and reset on a given platform (70_reset_and_hazards.md R300). Nothing is listed in memory:
the spec leaves its contents unspecified (log 5). -/
def State.resetOn (p : Platform) : State :=
  { regs := Regs.zero, eng := Engine.zero, mem := [], plat := p, env := Env.zero }

/-- The machine right after reset (70_reset_and_hazards.md R300), on the default platform (log 4). -/
def State.reset : State := State.resetOn Config.platform

end Sys2Proof.Machine
end

