-- ==== Sys2Proof/Machine/Flags.lean ====
section
/-! DEFINITION. The only flags of the block: `STATUS.BUSY`, `DONE` and `ERR` (10_state.md R25, R29), the error codes
(60_exceptions.md R270), and what a command's start and end do to the host-visible registers. -/
namespace Sys2Proof.Machine

/-- The code of an error (60_exceptions.md R270). -/
def Err.code : Err → BitVec 4
  | .badArgument => 1
  | .noData => 2
  | .noMemory => 3
  | .invalid => 4
  | .overflow => 5
  | .msgSize => 6
  | .notFound => 7
  | .busError => 8

/-- `STATUS.ERR` after a command that ended with `e`, `none` being success (60_exceptions.md R270 to R272). -/
def errCode : Option Err → BitVec 4
  | none => 0
  | some e => Err.code e

/-- The 32-bit `STATUS` register: `BUSY` at [0], `DONE` at [1], `ERR` at [11:8], every other bit 0 (10_state.md R25). -/
def statusWord (r : Regs) : Word :=
  (r.err.setWidth 32 <<< 8) ||| ((BitVec.ofBool r.done).setWidth 32 <<< 1) ||| (BitVec.ofBool r.busy).setWidth 32

/-- The 32-bit `CMD` register: `OP` at [2:0], every other bit 0 (10_state.md R23). -/
def cmdWord (r : Regs) : Word := r.op.setWidth 32

/-- What an accepted `CMD` write does to the host-visible registers (10_state.md R24): `OP` is stored, `STATUS` shows BUSY, the
result registers are cleared; the argument registers stay. -/
def Regs.started (op : BitVec 3) (r : Regs) : Regs :=
  { r with op := op, busy := true, done := false, err := 0, res0 := 0, res1 := 0, res2 := 0, res3 := 0 }

/-- What the end of a command does to `STATUS` (60_exceptions.md R271, R272). -/
def Regs.ended (e : Option Err) (r : Regs) : Regs :=
  { r with busy := false, done := true, err := errCode e }

/-- The end of a raced command (70_reset_and_hazards.md R303 item 1, U1): every result register and `ERR` take free values,
`n` being the index of the first; the command still ends (log 6). -/
def Regs.endedFree (n : Nat) (r : Regs) : Regs :=
  { r with
    busy := false, done := true, err := errCode (Config.freeErr n),
    res0 := Config.freeWord n, res1 := Config.freeWord (n + 1),
    res2 := Config.freeWord (n + 2), res3 := Config.freeWord (n + 3) }

end Sys2Proof.Machine
end

