-- ==== Sys2Proof/Syntax.lean ====
section
/-! DEFINITION. The commands of the block, one constructor per row of the opcode table (30_encoding.md R91). A command has
no operand bits: its operands are the argument registers (R90, R94). -/
namespace Sys2Proof

/-- The seven commands (30_encoding.md R91). The reserved `OP = 0` (R92) is no command of the table: the decoder rejects
it by name, and the machine runs it as R93 says. -/
inductive Instr where
  /-- `DECODE_TAG`, OP 1: decode the tag field at an offset of the source buffer (40_tag_codec.md R124). -/
  | decodeTag
  /-- `ENCODE_TAG`, OP 2: write the shortest field of a tag (40_tag_codec.md R128). -/
  | encodeTag
  /-- `DECODE_LENGTH`, OP 3: decode the length field at an offset of the source buffer (41_length_codec.md R154). -/
  | decodeLength
  /-- `ENCODE_LENGTH`, OP 4: write the shortest field of a length (41_length_codec.md R156). -/
  | encodeLength
  /-- `PARSE`, OP 5: split the source buffer into token records (42_parse.md R183). -/
  | parse
  /-- `SERIALIZE`, OP 6: write the tokens of a token list as wire bytes (43_serialize.md R214). -/
  | serialize
  /-- `FIND`, OP 7: return the first token with a given tag (44_find.md R242). -/
  | find
deriving DecidableEq, Repr

end Sys2Proof
end

