-- ==== Sys2Proof/WellFormed.lean ====
section
/-! DEFINITION. Well-formedness of the command word and of a command (30_encoding.md R90 to R92). -/
namespace Sys2Proof

/-- The `OP` field of a command word, bits [2:0] (30_encoding.md R90, 10_state.md R23). -/
def opField (w : Word) : BitVec 3 := w.extractLsb' 0 3

/-- A command word is well-formed when its `OP` is not the reserved 0, "the only reserved command encoding"
(30_encoding.md R92). Bits [31:3] are ignored, so no value there is ill-formed. -/
def commandWordWf (w : Word) : Bool := opField w != 0#3

/-- The opcode of a command (30_encoding.md R91). -/
def Instr.op : Instr → BitVec 3
  | .decodeTag => 1#3
  | .encodeTag => 2#3
  | .decodeLength => 3#3
  | .encodeLength => 4#3
  | .parse => 5#3
  | .serialize => 6#3
  | .find => 7#3

/-- A command is well-formed when its command word is. It has no operand field that could be out of range. -/
def Instr.wf (i : Instr) : Bool := commandWordWf (i.op.setWidth 32)

end Sys2Proof
end

