-- ==== Sys2Proof/Decode.lean ====
section
/-! DEFINITION. The decoder and the encoder of the command word (30_encoding.md R90 to R92). The block fetches no
instruction (20_memory.md R76): the word is what the host writes to `CMD`. -/
namespace Sys2Proof

/-- Why a command word names no command. -/
inductive DecodeReject where
  /-- `OP = 0`, the only reserved command encoding (30_encoding.md R92). -/
  | reservedOp
deriving DecidableEq, Repr

/-- The command of a 3-bit opcode (30_encoding.md R91). -/
def decodeOp (op : BitVec 3) : Except DecodeReject Instr :=
  if op = 1#3 then .ok .decodeTag
  else if op = 2#3 then .ok .encodeTag
  else if op = 3#3 then .ok .decodeLength
  else if op = 4#3 then .ok .encodeLength
  else if op = 5#3 then .ok .parse
  else if op = 6#3 then .ok .serialize
  else if op = 7#3 then .ok .find
  else .error .reservedOp

/-- The command of a 32-bit command word: only bits [2:0] count (30_encoding.md R90). -/
def decode (w : Word) : Except DecodeReject Instr := decodeOp (opField w)

/-- The command word of a command, with the ignored bits [31:3] written as 0 (30_encoding.md R90, R91). -/
def encode (i : Instr) : Word := i.op.setWidth 32

/-- The 32-bit command word of a table entry of `nbits` bits: the bits at and above `nbits` are 0. -/
def tableWord (nbits w : Nat) : Word := BitVec.ofNat 32 (w % 2 ^ nbits)

/-- The command the decoder reads from a table entry's bits, bit 0 the least significant bit of the word. -/
def decodeTableWord (nbits w : Nat) : Option Instr :=
  match decode (tableWord nbits w) with
  | .ok i => some i
  | .error _ => none

end Sys2Proof
end

