-- ==== Sys2Proof/Machine/Operands.lean ====
section
/-! DEFINITION. How values are assembled and taken apart (30_encoding.md R94): bytes of a word, the accumulator law
(10_state.md R31), the wire fields of a tag and of a length (40_tag_codec.md R125, R126, 41_length_codec.md R155), the token
record (20_memory.md R64), and the register map (10_state.md R21). -/
namespace Sys2Proof.Machine

/-- `zext_32(b)` (00_scope.md R7). -/
def zext32 (b : Byte) : Word := b.setWidth 32

/-- Byte `i` of a word, byte 0 the least significant: `w[8i+7 : 8i]`. -/
def byteOf (w : Word) (i : Nat) : Byte := w.extractLsb' (8 * i) 8

/-- `b[4:0]` of a tag byte (00_scope.md R7, 30_encoding.md R95). -/
def low5 (b : Byte) : BitVec 5 := b.extractLsb' 0 5

/-- `b[6:0]` of a length byte (30_encoding.md R97). -/
def low7 (b : Byte) : BitVec 7 := b.extractLsb' 0 7

/-- `b[7]`: more tag bytes follow, or a length in long form (30_encoding.md R96, R98). -/
def bit7 (b : Byte) : Bool := b.getLsbD 7

/-- The accumulator law `(acc << 8) | zext_32(b)` (10_state.md R31). -/
def shiftIn (acc : Word) (b : Byte) : Word := (acc <<< 8) ||| zext32 b

/-- The word whose bytes are `b0` (least significant) to `b3`: the little-endian reading of 20_memory.md R64. -/
def wordOfBytes (b0 b1 b2 b3 : Byte) : Word := b3 ++ b2 ++ b1 ++ b0

/-- The 12 bytes of a token record: `le32(tag) ++ le32(length) ++ le32(addr)` (20_memory.md R64). -/
def recordBytes (t l a : Word) : Vector Byte 12 :=
  #v[byteOf t 0, byteOf t 1, byteOf t 2, byteOf t 3, byteOf l 0, byteOf l 1, byteOf l 2, byteOf l 3,
     byteOf a 0, byteOf a 1, byteOf a 2, byteOf a 3]

/-- The `tag` field of a record, bytes 0 to 3 (20_memory.md R64, 43_serialize.md R211). -/
def recTag (r : Vector Byte 12) : Word := wordOfBytes r[0] r[1] r[2] r[3]

/-- The `length` field of a record, bytes 4 to 7 (20_memory.md R64, 43_serialize.md R211). -/
def recLen (r : Vector Byte 12) : Word := wordOfBytes r[4] r[5] r[6] r[7]

/-- The `value` field of a record, bytes 8 to 11 (20_memory.md R64, 43_serialize.md R211). -/
def recAddr (r : Vector Byte 12) : Word := wordOfBytes r[8] r[9] r[10] r[11]

/-- `sigbytes(v)`: the smallest `n ≥ 1` with `v < 2^(8n)` (40_tag_codec.md R126). -/
def sigbytes (v : Word) : Nat :=
  if v ≤ 0xFF#32 then 1
  else if v ≤ 0xFFFF#32 then 2
  else if v ≤ 0xFFFFFF#32 then 3
  else 4

/-- The low `n` bytes of a word, most significant first (20_memory.md R63). -/
def bigEndian : Nat → Word → List Byte
  | 0, _ => []
  | n + 1, v => byteOf v n :: bigEndian n v

/-- The bytes of a tag's field, or `none` when the marker check fails (40_tag_codec.md R125): one byte for a tag up to 0xFF
whose low 5 bits are at most 30, else the significant bytes, whose first must have its low 5 bits equal to 31. -/
def tagBytes (t : Word) : Option (List Byte) :=
  if t ≤ 0xFF#32 ∧ (low5 (byteOf t 0)).toNat ≤ 30 then some [byteOf t 0]
  else if low5 (byteOf t (sigbytes t - 1)) ≠ 31#5 then none
  else some (bigEndian (sigbytes t) t)

/-- The bytes of a nonzero length's field (41_length_codec.md R155): one byte up to 127, else the marker `0x80 | n` and the
`n` significant bytes. -/
def lengthBytes (l : Word) : List Byte :=
  if l ≤ 127#32 then [byteOf l 0]
  else (0x80#8 ||| BitVec.ofNat 8 (sigbytes l)) :: bigEndian (sigbytes l) l

/-- The well-formed tags (40_tag_codec.md R129): one byte without the marker, or 2 to 4 significant bytes whose first has the
marker, whose second is not 0x00, whose last has bit7 = 0 and whose bytes between the first and the last have bit7 = 1. -/
def tagWf (t : Word) : Bool :=
  (decide (t ≤ 0xFF#32) && decide ((low5 (byteOf t 0)).toNat ≤ 30))
    || (decide (2 ≤ sigbytes t) && decide (low5 (byteOf t (sigbytes t - 1)) = 31#5)
        && decide (byteOf t (sigbytes t - 2) ≠ 0x00#8)
        && (List.range (sigbytes t - 2)).all (fun i => bit7 (byteOf t (i + 1)))
        && !bit7 (byteOf t 0))

/-- The emitter's buffer after a field's bytes are written to `ebuf[0]`, `ebuf[1]`, …; the other bytes stay
(40_tag_codec.md R125, 41_length_codec.md R155). -/
def loadEbuf (bs : List Byte) (e : Vector Byte 5) : Vector Byte 5 :=
  #v[bs[0]?.getD e[0], bs[1]?.getD e[1], bs[2]?.getD e[2], bs[3]?.getD e[3], bs[4]?.getD e[4]]

/-- The 4-bit code of an FSM state (10_state.md R32). -/
def Fsm.code : Fsm → BitVec 4
  | .idle => 0x0
  | .dispatch => 0x1
  | .tokStart => 0x2
  | .tagFirst => 0x3
  | .tagCont => 0x4
  | .lenFirst => 0x5
  | .lenBytes => 0x6
  | .tokEnd => 0x7
  | .recWrite => 0x8
  | .recRead => 0x9
  | .encTag => 0xA
  | .encLen => 0xB
  | .emit => 0xC
  | .valCopy => 0xD
  | .unusedE => 0xE
  | .unusedF => 0xF

/-- The host-visible registers, by name (10_state.md R21). -/
inductive Reg where
  | cmd
  | status
  | srcAddr
  | srcLen
  | dstAddr
  | dstCap
  | tokAddr
  | tokN
  | arg
  | res0
  | res1
  | res2
  | res3
deriving DecidableEq, Repr

/-- The offset of a register in the window (10_state.md R21). -/
def Reg.offset : Reg → Nat
  | .cmd => 0x00
  | .status => 0x04
  | .srcAddr => 0x08
  | .srcLen => 0x0C
  | .dstAddr => 0x10
  | .dstCap => 0x14
  | .tokAddr => 0x18
  | .tokN => 0x1C
  | .arg => 0x20
  | .res0 => 0x24
  | .res1 => 0x28
  | .res2 => 0x2C
  | .res3 => 0x30

/-- The register at an offset of the window, `none` for a reserved slot or an offset that is no slot (10_state.md R20,
R21). -/
def regAt (offset : Nat) : Option Reg :=
  [Reg.cmd, .status, .srcAddr, .srcLen, .dstAddr, .dstCap, .tokAddr, .tokN, .arg, .res0, .res1, .res2, .res3].find?
    (fun r => Reg.offset r = offset)

end Sys2Proof.Machine
end

