-- ==== Sys2Proof/Machine/Ops.lean ====
section
/-! DEFINITION. The named operations over memory and registers: the memory port (20_memory.md R60 to R62), the end of a
command by `finish` and by `raise` (60_exceptions.md R271, R272), its start by an accepted `CMD` write (10_state.md R24), and
reset (70_reset_and_hazards.md R300). -/
namespace Sys2Proof.Machine

/-- What an unlisted address reads as. DESIGN CHOICE, unsafe (log 5): the spec leaves power-up memory unspecified. -/
def Memory.blank : Byte := 0

/-- The byte memory holds at an address (20_memory.md R60). -/
def Memory.read : Memory → Nat → Byte
  | [], _ => Memory.blank
  | (b, v) :: m, a => if a = b then v else Memory.read m a

/-- Store a byte, keeping the canonical form: a byte equal to what an unlisted address reads as is not listed. -/
def Memory.write : Memory → Nat → Byte → Memory
  | [], a, v => if v = Memory.blank then [] else [(a, v)]
  | (b, w) :: m, a, v =>
    if a < b then (if v = Memory.blank then (b, w) :: m else (a, v) :: (b, w) :: m)
    else if a = b then (if v = Memory.blank then m else (a, v) :: m)
    else (b, w) :: Memory.write m a v

/-- Every listed address is at least `lo` and below 2^32, the addresses strictly rise, and no listed byte is blank. -/
def Memory.wfFrom (lo : Nat) : Memory → Bool
  | [] => true
  | (a, v) :: m => decide (lo ≤ a) && decide (a < 2 ^ 32) && (v != Memory.blank) && Memory.wfFrom (a + 1) m

/-- The canonical form of memory (20_memory.md R61). -/
def Memory.wf (m : Memory) : Bool := Memory.wfFrom 0 m

/-- `MEM_OK(addr, kind)`: the platform completes the access (20_memory.md R60, U8). -/
def memOk (p : Platform) (a : Word) (kind : Access) : Bool :=
  p.holes.all (fun h => !(decide (h.kind = kind) && decide (h.lo ≤ a) && decide (a ≤ h.hi)))

/-- Move on to free value number `freeCtr + n`. -/
def State.skipFree (n : Nat) (s : State) : State :=
  { s with env := { s.env with freeCtr := s.env.freeCtr + n } }

/-- `MemRead(addr, 1)` (20_memory.md R60): `none` when the platform refuses the access. In a raced command the byte is a free
value (70_reset_and_hazards.md R303 item 1, log 6). -/
def memRead (a : Word) (s : State) : Option (Byte × State) :=
  if memOk s.plat a .read then
    if s.env.raced then some (Config.freeByte s.env.freeCtr, s.skipFree 1)
    else some (s.mem.read a.toNat, s)
  else none

/-- The byte an engine write leaves at `a` (20_memory.md R60): the byte written; a free byte in a raced command (R303 item 1,
log 6); and at a contested address the engine's or the host's byte, freely (R303 item 2, log 7). -/
def storedByte (a : Word) (v : Byte) (s : State) : Byte :=
  if s.env.raced then Config.freeByte s.env.freeCtr
  else if a.toNat ∈ s.env.contested then
    (if Config.freeBool s.env.freeCtr then v else s.mem.read a.toNat)
  else v

/-- `MemWrite(addr, 1, v)` (20_memory.md R60): `none` when the platform refuses the access. -/
def memWrite (a : Word) (v : Byte) (s : State) : Option State :=
  if memOk s.plat a .write then
    some { s with
      mem := s.mem.write a.toNat (storedByte a v s)
      env := { s.env with
        freeCtr := if s.env.raced ∨ a.toNat ∈ s.env.contested then s.env.freeCtr + 1 else s.env.freeCtr } }
  else none

/-- `ReadSrc(o)`: the byte at `(SRC_ADDR + o) mod 2^32` (00_scope.md R8, 20_memory.md R62). -/
def readSrc (o : Word) (s : State) : Option (Byte × State) := memRead (s.regs.srcAddr + o) s

/-- The address of byte `b` of record `i` of the token list, `(TOK_ADDR + 12 × i + b) mod 2^32` (20_memory.md R64). -/
def tokByteAddr (tokAddr i b : Word) : Word := tokAddr + 12#32 * i + b

/-- The end of a command: `STATUS` is set and the engine goes to IDLE, after the step's memory accesses
(60_exceptions.md R271, R272). Memory and the result registers stay, except in a raced command, whose results are free
(70_reset_and_hazards.md R303 item 1, log 6). -/
def endCommand (e : Option Err) (s : State) : State :=
  if s.env.raced then
    { s with
      regs := s.regs.endedFree s.env.freeCtr
      eng := { s.eng with st := .idle }
      env := { s.env with freeCtr := s.env.freeCtr + 4 } }
  else { s with regs := s.regs.ended e, eng := { s.eng with st := .idle } }

/-- `finish`: the running command ends with success (60_exceptions.md R271). -/
def finish (s : State) : State := endCommand none s

/-- `raise E`: the running command ends with error `E` (60_exceptions.md R272). It is the block's whole exception entry: no
state is saved, no mode changes, control goes nowhere (R283), and nothing returns from it (R284). -/
def raiseErr (e : Err) (s : State) : State := endCommand (some e) s

/-- The internal registers at a command's start: all cleared, `st` at DISPATCH (10_state.md R24). -/
def Engine.started : Engine := { Engine.zero with st := .dispatch }

/-- An accepted `CMD` write of `w` (10_state.md R23, R24). The marks of an earlier command's races are cleared with it, and memory
is noted as it stands before the command (log 8). -/
def startCommand (w : Word) (s : State) : State :=
  { s with
    regs := s.regs.started (opField w)
    eng := Engine.started
    env := { s.env with raced := false, contested := [], before := s.mem } }

/-- Reset (70_reset_and_hazards.md R300, R301): every register is cleared, a running command is aborted, and memory stays. -/
def resetBlock (s : State) : State :=
  { s with
    regs := Regs.zero
    eng := Engine.zero
    env := { s.env with raced := false, contested := [] } }

/-- The fault of an FSM state the running command has no rule for (10_state.md R32, R36, log 10). -/
def noRuleFault : Fsm → Fault
  | .unusedE => .unusedFsmCode
  | .unusedF => .unusedFsmCode
  | _ => .noRule

end Sys2Proof.Machine
end

