-- ==== Sys2Proof/Machine/TagCodec.lean ====
section
/-! DEFINITION. The tag half of the FSM (40_tag_codec.md): states TAG_FIRST, TAG_CONT, ENC_TAG and the emitter EMIT, shared
by every command that uses them, and the commands DECODE_TAG and ENCODE_TAG. Each action is one engine step (10_state.md R34). -/
namespace Sys2Proof.Machine

/-- State TAG_FIRST (40_tag_codec.md R120): reads byte0 of a tag field. `complete` is the command's tag-complete (R123). -/
def tagFirst (complete : State → State) (s : State) : State :=
  if s.regs.srcLen ≤ s.eng.off then raiseErr .noData s
  else
    match readSrc s.eng.off s with
    | none => raiseErr .busError s
    | some (b, s) =>
      let s := { s with eng := { s.eng with off := s.eng.off + 1, acc := zext32 b } }
      if low5 b ≠ 31#5 then complete s
      else { s with eng := { s.eng with first := true, st := .tagCont } }

/-- State TAG_CONT (40_tag_codec.md R121): reads one continuation byte. The tests run in the order bounds, bus, zero first
byte, overflow. -/
def tagCont (complete : State → State) (s : State) : State :=
  if s.regs.srcLen ≤ s.eng.off then raiseErr .msgSize s
  else
    match readSrc s.eng.off s with
    | none => raiseErr .busError s
    | some (b, s) =>
      if s.eng.first ∧ b = 0x00#8 then raiseErr .invalid s
      else if byteOf s.eng.acc 3 ≠ 0x00#8 then raiseErr .overflow s
      else
        let s := { s with eng := { s.eng with acc := shiftIn s.eng.acc b, off := s.eng.off + 1, first := false } }
        if bit7 b then s else complete s

/-- Tag-complete of DECODE_TAG (40_tag_codec.md R123). -/
def decodeTagComplete (s : State) : State :=
  finish { s with
    eng := { s.eng with ctag := s.eng.acc }
    regs := { s.regs with res0 := s.eng.acc, res1 := s.eng.off - s.regs.arg } }

/-- Tag-complete of PARSE and FIND (40_tag_codec.md R123): a length field follows. -/
def tokenTagComplete (s : State) : State :=
  { s with eng := { s.eng with ctag := s.eng.acc, st := .lenFirst } }

/-- State ENC_TAG (40_tag_codec.md R125): the marker check, and the field's bytes into the emitter. No memory access. -/
def encTag (s : State) : State :=
  match tagBytes s.eng.ctag with
  | none => raiseErr .invalid s
  | some bs =>
    { s with eng := { s.eng with
        ebuf := loadEbuf bs s.eng.ebuf, en := BitVec.ofNat 3 bs.length, ei := 0, fld := .tag, st := .emit } }

/-- State EMIT (40_tag_codec.md R127): writes one field byte at `(DST_ADDR + wcnt) mod 2^32`. `fieldDone` is what the command
does in the same step after the field's last byte. The `Overflow` test is the source's and cannot fire. -/
def emit (fieldDone : State → State) (s : State) : Out :=
  if s.regs.dstCap ≤ s.eng.wcnt then .next (raiseErr .noMemory s)
  else if s.eng.wcnt = 0xFFFFFFFF#32 then .next (raiseErr .overflow s)
  else
    match s.eng.ebuf[s.eng.ei.toNat]? with
    | none => .fault .noRule
    | some b =>
      match memWrite (s.regs.dstAddr + s.eng.wcnt) b s with
      | none => .next (raiseErr .busError s)
      | some s =>
        let s := { s with
          eng := { s.eng with wcnt := s.eng.wcnt + 1, ei := s.eng.ei + 1 }
          regs := { s.regs with res0 := s.eng.wcnt + 1 } }
        .next (if s.eng.ei = s.eng.en then fieldDone s else s)

/-- DECODE_TAG (40_tag_codec.md R124): one engine step in FSM state `st`; DISPATCH is 30_encoding.md R93. -/
def execDecodeTag (s : State) : Out :=
  match s.eng.st with
  | .idle => .next s
  | .dispatch => .next { s with eng := { s.eng with off := s.regs.arg, st := .tagFirst } }
  | .tagFirst => .next (tagFirst decodeTagComplete s)
  | .tagCont => .next (tagCont decodeTagComplete s)
  | st => .fault (noRuleFault st)

/-- ENCODE_TAG (40_tag_codec.md R128): one engine step in FSM state `st`; DISPATCH is 30_encoding.md R93. -/
def execEncodeTag (s : State) : Out :=
  match s.eng.st with
  | .idle => .next s
  | .dispatch => .next { s with eng := { s.eng with ctag := s.regs.arg, st := .encTag } }
  | .encTag => .next (encTag s)
  | .emit => emit finish s
  | st => .fault (noRuleFault st)

end Sys2Proof.Machine
end

