-- ==== Sys2Proof/Machine/LengthCodec.lean ====
section
/-! DEFINITION. The length half of the FSM (41_length_codec.md): states LEN_FIRST, LEN_BYTES and ENC_LEN, shared by every
command that uses them, and the commands DECODE_LENGTH and ENCODE_LENGTH. -/
namespace Sys2Proof.Machine

/-- State LEN_FIRST (41_length_codec.md R150): reads byte0 of a length field. `complete` is the command's length-complete
(R153). 0xFF is tested before `N > 4`, and `N = 0` last. -/
def lenFirst (complete : State → State) (s : State) : State :=
  if s.regs.srcLen ≤ s.eng.off then raiseErr .noData s
  else
    match readSrc s.eng.off s with
    | none => raiseErr .busError s
    | some (b, s) =>
      if bit7 b = false then
        complete { s with eng := { s.eng with acc := zext32 b, off := s.eng.off + 1 } }
      else if b = 0xFF#8 then raiseErr .invalid s
      else if 4#7 < low7 b then raiseErr .overflow s
      else if low7 b = 0#7 then raiseErr .invalid s
      else
        { s with eng := { s.eng with
            nrem := (low7 b).setWidth 3, acc := 0, first := true, off := s.eng.off + 1, st := .lenBytes } }

/-- State LEN_BYTES (41_length_codec.md R151): reads one of the N length bytes. With N = 4, a first byte of 0x80 or more is an
overflow as soon as it is read. -/
def lenBytes (complete : State → State) (s : State) : State :=
  if s.regs.srcLen ≤ s.eng.off then raiseErr .msgSize s
  else
    match readSrc s.eng.off s with
    | none => raiseErr .busError s
    | some (b, s) =>
      if s.eng.first ∧ s.eng.nrem = 4#3 ∧ bit7 b then raiseErr .overflow s
      else
        let s := { s with eng := { s.eng with
          acc := shiftIn s.eng.acc b, off := s.eng.off + 1, first := false, nrem := s.eng.nrem - 1 } }
        if s.eng.nrem = 0#3 then complete s else s

/-- Length-complete of DECODE_LENGTH (41_length_codec.md R153). -/
def decodeLengthComplete (s : State) : State :=
  finish { s with
    eng := { s.eng with clen := s.eng.acc }
    regs := { s.regs with res0 := s.eng.acc, res1 := s.eng.off - s.regs.arg } }

/-- Length-complete of PARSE and FIND (41_length_codec.md R153): the value starts at the current offset. -/
def tokenLenComplete (s : State) : State :=
  { s with eng := { s.eng with clen := s.eng.acc, vstart := s.eng.off, st := .tokEnd } }

/-- State ENC_LEN (41_length_codec.md R155): the zero check, and the field's bytes into the emitter. No memory access. The
`n > 126` test is the source's and cannot fire. -/
def encLen (s : State) : State :=
  if s.eng.clen = 0#32 then raiseErr .badArgument s
  else if 127#32 < s.eng.clen ∧ 126 < sigbytes s.eng.clen then raiseErr .overflow s
  else
    { s with eng := { s.eng with
        ebuf := loadEbuf (lengthBytes s.eng.clen) s.eng.ebuf
        en := BitVec.ofNat 3 (lengthBytes s.eng.clen).length, ei := 0, fld := .len, st := .emit } }

/-- DECODE_LENGTH (41_length_codec.md R154): one engine step in FSM state `st`; DISPATCH is 30_encoding.md R93. -/
def execDecodeLength (s : State) : Out :=
  match s.eng.st with
  | .idle => .next s
  | .dispatch => .next { s with eng := { s.eng with off := s.regs.arg, st := .lenFirst } }
  | .lenFirst => .next (lenFirst decodeLengthComplete s)
  | .lenBytes => .next (lenBytes decodeLengthComplete s)
  | st => .fault (noRuleFault st)

/-- ENCODE_LENGTH (41_length_codec.md R156): one engine step in FSM state `st`; DISPATCH is 30_encoding.md R93. -/
def execEncodeLength (s : State) : Out :=
  match s.eng.st with
  | .idle => .next s
  | .dispatch => .next { s with eng := { s.eng with clen := s.regs.arg, st := .encLen } }
  | .encLen => .next (encLen s)
  | .emit => emit finish s
  | st => .fault (noRuleFault st)

end Sys2Proof.Machine
end

