-- ==== Sys2Proof/Machine/Parse.lean ====
section
/-! DEFINITION. The command PARSE (42_parse.md) and its states TOK_START, TOK_END and REC_WRITE. -/
namespace Sys2Proof.Machine

/-- `exact(vstart + clen) > x[SRC_LEN]`: the value would run past the buffer end, summed without wrap-around (42_parse.md R181,
44_find.md R241). -/
def valueOverruns (s : State) : Bool := decide (s.regs.srcLen.toNat < s.eng.vstart.toNat + s.eng.clen.toNat)

/-- State TOK_START of PARSE (42_parse.md R180): the end test comes before the capacity test. -/
def parseTokStart (s : State) : State :=
  if s.regs.srcLen ≤ s.eng.off then finish s
  else if s.regs.tokN ≤ s.eng.cnt then raiseErr .noMemory s
  else { s with eng := { s.eng with tstart := s.eng.off, st := .tagFirst } }

/-- State TOK_END of PARSE (42_parse.md R181): the per-token bound check, and the record to write. -/
def parseTokEnd (s : State) : State :=
  if valueOverruns s then raiseErr .msgSize s
  else
    { s with eng := { s.eng with
        recBuf := recordBytes s.eng.ctag s.eng.clen (s.regs.srcAddr + s.eng.vstart), k := 0, st := .recWrite } }

/-- State REC_WRITE (42_parse.md R182): writes one byte of the record; the token counts after its twelfth byte. -/
def recWrite (s : State) : Out :=
  match s.eng.recBuf[s.eng.k.toNat]? with
  | none => .fault .noRule
  | some b =>
    match memWrite (tokByteAddr s.regs.tokAddr s.eng.cnt (s.eng.k.setWidth 32)) b s with
    | none => .next (raiseErr .busError s)
    | some s =>
      let s := { s with eng := { s.eng with k := s.eng.k + 1 } }
      .next (if s.eng.k = 12#4 then
          { s with
            eng := { s.eng with cnt := s.eng.cnt + 1, off := s.eng.vstart + s.eng.clen, st := .tokStart }
            regs := { s.regs with res0 := s.eng.cnt + 1, res1 := s.eng.vstart + s.eng.clen } }
        else s)

/-- PARSE (42_parse.md R183): one engine step in FSM state `st`; DISPATCH is 30_encoding.md R93. -/
def execParse (s : State) : Out :=
  match s.eng.st with
  | .idle => .next s
  | .dispatch => .next { s with eng := { s.eng with st := .tokStart } }
  | .tokStart => .next (parseTokStart s)
  | .tagFirst => .next (tagFirst tokenTagComplete s)
  | .tagCont => .next (tagCont tokenTagComplete s)
  | .lenFirst => .next (lenFirst tokenLenComplete s)
  | .lenBytes => .next (lenBytes tokenLenComplete s)
  | .tokEnd => .next (parseTokEnd s)
  | .recWrite => recWrite s
  | st => .fault (noRuleFault st)

end Sys2Proof.Machine
end

