-- ==== Sys2Proof/Machine/Find.lean ====
section
/-! DEFINITION. The command FIND (44_find.md) and its states TOK_START and TOK_END. -/
namespace Sys2Proof.Machine

/-- State TOK_START of FIND (44_find.md R240). -/
def findTokStart (s : State) : State :=
  if s.regs.srcLen ≤ s.eng.off then raiseErr .notFound s
  else { s with eng := { s.eng with tstart := s.eng.off, st := .tagFirst } }

/-- State TOK_END of FIND (44_find.md R241): the bound check comes before the tag comparison. -/
def findTokEnd (s : State) : State :=
  if valueOverruns s then raiseErr .msgSize s
  else if s.eng.ctag = s.regs.arg then
    finish { s with regs := { s.regs with
      res0 := s.eng.tstart, res1 := s.eng.ctag, res2 := s.eng.clen, res3 := s.regs.srcAddr + s.eng.vstart } }
  else { s with eng := { s.eng with off := s.eng.vstart + s.eng.clen, st := .tokStart } }

/-- FIND (44_find.md R242): one engine step in FSM state `st`; DISPATCH is 30_encoding.md R93. -/
def execFind (s : State) : Out :=
  match s.eng.st with
  | .idle => .next s
  | .dispatch => .next { s with eng := { s.eng with st := .tokStart } }
  | .tokStart => .next (findTokStart s)
  | .tagFirst => .next (tagFirst tokenTagComplete s)
  | .tagCont => .next (tagCont tokenTagComplete s)
  | .lenFirst => .next (lenFirst tokenLenComplete s)
  | .lenBytes => .next (lenBytes tokenLenComplete s)
  | .tokEnd => .next (findTokEnd s)
  | st => .fault (noRuleFault st)

end Sys2Proof.Machine
end

