-- ==== Sys2Proof/Machine/Serialize.lean ====
section
/-! DEFINITION. The command SERIALIZE (43_serialize.md), its states TOK_START, REC_READ and VAL_COPY, and the order of one
token's states (R212). -/
namespace Sys2Proof.Machine

/-- State TOK_START of SERIALIZE (43_serialize.md R210). -/
def serializeTokStart (s : State) : State :=
  if s.regs.tokN ≤ s.eng.cnt then finish s
  else { s with eng := { s.eng with k := 0, st := .recRead } }

/-- State REC_READ (43_serialize.md R211): reads one byte of record `cnt`; the twelfth gives the token's tag, length and value
address. -/
def recRead (s : State) : Out :=
  if h : s.eng.k.toNat < 12 then
    match memRead (tokByteAddr s.regs.tokAddr s.eng.cnt (s.eng.k.setWidth 32)) s with
    | none => .next (raiseErr .busError s)
    | some (b, t) =>
      let r := s.eng.recBuf.set s.eng.k.toNat b h
      let t := { t with eng := { t.eng with recBuf := r, k := s.eng.k + 1 } }
      .next (if t.eng.k = 12#4 then
          { t with eng := { t.eng with ctag := recTag r, clen := recLen r, vaddr := recAddr r, st := .encTag } }
        else t)
  else .fault .noRule

/-- What SERIALIZE does after a field's last byte (40_tag_codec.md R127): the length field follows the tag field, and the value
follows the length field. -/
def serializeFieldDone (s : State) : State :=
  match s.eng.fld with
  | .tag => { s with eng := { s.eng with st := .encLen } }
  | .len => { s with eng := { s.eng with j := 0, st := .valCopy } }

/-- State VAL_COPY (43_serialize.md R213): copies one value byte. The capacity test comes before the read. -/
def valCopy (s : State) : State :=
  if s.regs.dstCap ≤ s.eng.wcnt then raiseErr .noMemory s
  else if s.eng.wcnt = 0xFFFFFFFF#32 then raiseErr .overflow s
  else
    match memRead (s.eng.vaddr + s.eng.j) s with
    | none => raiseErr .busError s
    | some (b, s) =>
      match memWrite (s.regs.dstAddr + s.eng.wcnt) b s with
      | none => raiseErr .busError s
      | some s =>
        let s := { s with
          eng := { s.eng with wcnt := s.eng.wcnt + 1, j := s.eng.j + 1 }
          regs := { s.regs with res0 := s.eng.wcnt + 1 } }
        if s.eng.j = s.eng.clen then
          { s with
            eng := { s.eng with cnt := s.eng.cnt + 1, st := .tokStart }
            regs := { s.regs with res1 := s.eng.cnt + 1 } }
        else s

/-- SERIALIZE (43_serialize.md R214): one engine step in FSM state `st`; DISPATCH is 30_encoding.md R93. -/
def execSerialize (s : State) : Out :=
  match s.eng.st with
  | .idle => .next s
  | .dispatch => .next { s with eng := { s.eng with st := .tokStart } }
  | .tokStart => .next (serializeTokStart s)
  | .recRead => recRead s
  | .encTag => .next (encTag s)
  | .encLen => .next (encLen s)
  | .emit => emit serializeFieldDone s
  | .valCopy => .next (valCopy s)
  | st => .fault (noRuleFault st)

end Sys2Proof.Machine
end

