-- ==== Sys2Proof/Machine/Dispatch.lean ====
section
/-! DEFINITION. One arm per command. -/
namespace Sys2Proof.Machine

-- One engine step of the command in the FSM state the engine is in (10_state.md R34).
def exec (i : Instr) (s : State) : Host.Outcome State Fault Refusal :=
  match i with
  | .decodeTag => Sys2Proof.Machine.execDecodeTag s
  | .encodeTag => Sys2Proof.Machine.execEncodeTag s
  | .decodeLength => Sys2Proof.Machine.execDecodeLength s
  | .encodeLength => Sys2Proof.Machine.execEncodeLength s
  | .parse => Sys2Proof.Machine.execParse s
  | .serialize => Sys2Proof.Machine.execSerialize s
  | .find => Sys2Proof.Machine.execFind s

end Sys2Proof.Machine
end

