-- ==== Sys2Proof/Machine/Engine.lean ====
section
/-! DEFINITION. The engine's step (10_state.md R34, R35): in IDLE none, else one step of the command in `CMD`; and the
running command as a whole, from the state its start left to its end. -/
namespace Sys2Proof.Machine

/-- The reserved `OP = 0` (30_encoding.md R92, R93): it has no row in the opcode table, and DISPATCH ends it with `BadArgument`. -/
def execReserved (s : State) : Out :=
  match s.eng.st with
  | .idle => .next s
  | .dispatch => .next (raiseErr .badArgument s)
  | st => .fault (noRuleFault st)

/-- One step of the engine (10_state.md R34). In IDLE it has no step and holds its state (R35, 60_exceptions.md R292, log 2). -/
def engineStep (s : State) : Out :=
  if s.eng.st = .idle then .next s
  else
    match decode (cmdWord s.regs) with
    | .ok i => exec i s
    | .error .reservedOp => execReserved s

/-- The most engine steps a command takes, DISPATCH included (70_reset_and_hazards.md R307). -/
def stepBound (i : Instr) (g : Regs) : Nat :=
  match i with
  | .decodeTag => 6
  | .encodeTag => 6
  | .decodeLength => 6
  | .encodeLength => 7
  | .parse => 8 * g.srcLen.toNat + 5
  | .serialize => 15 * g.tokN.toNat + g.dstCap.toNat + 3
  | .find => 2 * g.srcLen.toNat + 5

/-- The most engine steps the command in `CMD` takes, the reserved opcode included (70_reset_and_hazards.md R307). -/
def commandBound (g : Regs) : Nat :=
  match decodeOp g.op with
  | .ok i => stepBound i g
  | .error _ => 1

/-- The state the running command started from, the host's memory writes since then included (10_state.md R24, log 8). -/
def commandStart (s : State) : State := startCommand (cmdWord s.regs) { s with mem := s.env.before }

/-- The engine left alone, for at most `n` steps, until it comes to IDLE. -/
def engineRun : Nat → State → State
  | 0, s => s
  | n + 1, s =>
    if s.eng.st = .idle then s
    else
      match engineStep s with
      | .next t => engineRun n t
      | _ => s

/-- Where the running command ends: its memory holds the values the engine writes (70_reset_and_hazards.md R303 item 3, log 8).
Without a race it is the end of the whole command from its start. In a raced command it is the end of some path of the step rules
from here (U1), the one that the next free values give; a byte that no path writes keeps its value on it. -/
def commandEnd (s : State) : State := engineRun (commandBound s.regs) (if s.env.raced then s else commandStart s)

end Sys2Proof.Machine
end

