-- ==== Sys2Proof/Machine/HostPort.lean ====
section
/-! DEFINITION. The host's moves (00_scope.md R11): the register port (10_state.md R20 to R24), memory accesses and the races
of 70_reset_and_hazards.md R303, and reset (R300, R301). -/
namespace Sys2Proof.Machine

/-- The value of a register (10_state.md R21, R22). -/
def readReg (r : Reg) (g : Regs) : Word :=
  match r with
  | .cmd => cmdWord g
  | .status => statusWord g
  | .srcAddr => g.srcAddr
  | .srcLen => g.srcLen
  | .dstAddr => g.dstAddr
  | .dstCap => g.dstCap
  | .tokAddr => g.tokAddr
  | .tokN => g.tokN
  | .arg => g.arg
  | .res0 => g.res0
  | .res1 => g.res1
  | .res2 => g.res2
  | .res3 => g.res3

/-- A host write to a register (10_state.md R22): ignored while `BUSY`; `CMD` starts a command (R23, R24); read-only registers
ignore it. -/
def writeReg (r : Reg) (w : Word) (s : State) : State :=
  if s.regs.busy then s
  else
    match r with
    | .cmd => startCommand w s
    | .srcAddr => { s with regs := { s.regs with srcAddr := w } }
    | .srcLen => { s with regs := { s.regs with srcLen := w } }
    | .dstAddr => { s with regs := { s.regs with dstAddr := w } }
    | .dstCap => { s with regs := { s.regs with dstCap := w } }
    | .tokAddr => { s with regs := { s.regs with tokAddr := w } }
    | .tokN => { s with regs := { s.regs with tokN := w } }
    | .arg => { s with regs := { s.regs with arg := w } }
    | .status => s
    | .res0 => s
    | .res1 => s
    | .res2 => s
    | .res3 => s

/-- The offset of a bus address in the register window (10_state.md R20). The spec says nothing of a `BLOCK_BASE` above 0xFFFFFFC0,
whose window would run past the top of the 32-bit space. DESIGN CHOICE: the window then goes on at address 0 (log 12). -/
def windowOffset (p : Platform) (addr : Word) : Nat := (addr - p.blockBase).toNat

/-- The address lies in the 64-byte register window (10_state.md R20). -/
def inWindow (p : Platform) (addr : Word) : Bool := decide (windowOffset p addr < 64)

/-- A host register write at a bus address (10_state.md R22, 92_eei_decisions.md D25): only an aligned 32-bit write to a register
has an effect (log 12). -/
def portWrite (addr : Word) (width : Width) (data : Word) (s : State) : State :=
  if width = .word then
    match regAt (windowOffset s.plat addr) with
    | some r => writeReg r data s
    | none => s
  else s

/-- What a host register read in the window returns (10_state.md R22, 92_eei_decisions.md D25): 0 for a reserved slot and for an
access that is not an aligned 32-bit one. -/
def portRead (addr : Word) (width : Width) (s : State) : Word :=
  if width = .word then
    match regAt (windowOffset s.plat addr) with
    | some r => readReg r s.regs
    | none => 0
  else 0

/-- The distance of an address from a base, modulo 2^32 (20_memory.md R62). -/
def dist (base addr : Word) : Nat := (addr - base).toNat

/-- The word whose little-endian bytes stand at four addresses of record `i` from byte `b` on (20_memory.md R64). -/
def recordWord (m : Memory) (tokAddr i : Word) (b : Nat) : Word :=
  wordOfBytes (m.read (tokByteAddr tokAddr i (BitVec.ofNat 32 b)).toNat)
    (m.read (tokByteAddr tokAddr i (BitVec.ofNat 32 (b + 1))).toNat)
    (m.read (tokByteAddr tokAddr i (BitVec.ofNat 32 (b + 2))).toNat)
    (m.read (tokByteAddr tokAddr i (BitVec.ofNat 32 (b + 3))).toNat)

/-- The address lies in the value region that record `i` of the token list names, as the host left the list (20_memory.md R61,
log 9). -/
def inNamedValue (s : State) (addr : Word) (i : Nat) : Bool :=
  decide (dist (recordWord s.env.before s.regs.tokAddr (BitVec.ofNat 32 i) 8) addr
    < (recordWord s.env.before s.regs.tokAddr (BitVec.ofNat 32 i) 4).toNat)

/-- The address lies in a value region whose record the engine reads in its next `n` steps (43_serialize.md R211, log 9). -/
def namesOnRun : Nat → State → Word → Bool
  | 0, s, addr => decide (dist s.eng.vaddr addr < s.eng.clen.toNat)
  | n + 1, s, addr =>
    decide (dist s.eng.vaddr addr < s.eng.clen.toNat)
      || (if s.eng.st = .idle then false
          else
            match engineStep s with
            | .next t => namesOnRun n t addr
            | _ => false)

/-- The address lies in the region the running command may read (20_memory.md R61, 70_reset_and_hazards.md R303 item 1). For
SERIALIZE that is the token list, the value regions its records name, and those of the records the engine reads: a record that
the command itself has overwritten (R72) counts both as the host left it and as the engine reads it (log 9). -/
def inReadRegion (s : State) (addr : Word) : Bool :=
  match decodeOp s.regs.op with
  | .ok .decodeTag => decide (dist s.regs.srcAddr addr < s.regs.srcLen.toNat)
  | .ok .decodeLength => decide (dist s.regs.srcAddr addr < s.regs.srcLen.toNat)
  | .ok .parse => decide (dist s.regs.srcAddr addr < s.regs.srcLen.toNat)
  | .ok .find => decide (dist s.regs.srcAddr addr < s.regs.srcLen.toNat)
  | .ok .serialize =>
    decide (dist s.regs.tokAddr addr < 12 * s.regs.tokN.toNat)
      || decide (dist s.eng.vaddr addr < s.eng.clen.toNat)
      || (List.range s.regs.tokN.toNat).any (inNamedValue s addr)
      || namesOnRun (commandBound s.regs) (commandStart s) addr
  | .ok .encodeTag => false
  | .ok .encodeLength => false
  | .error _ => false

/-- The address lies in the region the running command may write (20_memory.md R61, 70_reset_and_hazards.md R303 item 2). -/
def inWriteRegion (s : State) (addr : Word) : Bool :=
  match decodeOp s.regs.op with
  | .ok .encodeTag => decide (dist s.regs.dstAddr addr < s.regs.dstCap.toNat)
  | .ok .encodeLength => decide (dist s.regs.dstAddr addr < s.regs.dstCap.toNat)
  | .ok .serialize => decide (dist s.regs.dstAddr addr < s.regs.dstCap.toNat)
  | .ok .parse => decide (dist s.regs.tokAddr addr < 12 * s.regs.tokN.toNat)
  | .ok .decodeTag => false
  | .ok .decodeLength => false
  | .ok .find => false
  | .error _ => false

/-- Where the running command's writes begin, and how many bytes it has written so far (40_tag_codec.md R127, 42_parse.md
R182, 43_serialize.md R213). -/
def writtenSoFar (s : State) : Word × Nat :=
  match decodeOp s.regs.op with
  | .ok .encodeTag => (s.regs.dstAddr, s.eng.wcnt.toNat)
  | .ok .encodeLength => (s.regs.dstAddr, s.eng.wcnt.toNat)
  | .ok .serialize => (s.regs.dstAddr, s.eng.wcnt.toNat)
  | .ok .parse =>
    (s.regs.tokAddr, 12 * s.eng.cnt.toNat + (if s.eng.st = .recWrite then s.eng.k.toNat else 0))
  | .ok .decodeTag => (0, 0)
  | .ok .decodeLength => (0, 0)
  | .ok .find => (0, 0)
  | .error _ => (0, 0)

/-- Give `n` bytes from `base` on free values, `c` being the index of the first (log 6). -/
def freeBytes : Nat → Word → Nat → Memory → Memory
  | 0, _, _, m => m
  | n + 1, base, c, m =>
    freeBytes n base c (m.write (base + BitVec.ofNat 32 n).toNat (Config.freeByte (c + n)))

/-- The breach of R303 item 1 (70_reset_and_hazards.md R303, U1): the command's results will be free, and every byte it has
written so far takes a free value (log 6). -/
def raceCommand (s : State) : State :=
  { s with
    mem := freeBytes (writtenSoFar s).2 (writtenSoFar s).1 s.env.freeCtr s.mem
    env := { s.env with raced := true, freeCtr := s.env.freeCtr + (writtenSoFar s).2 } }

/-- What a host write of one byte does to the running command. A byte it may read races its results (R303 item 1, U1), and a byte
it may write ends with the host's or the engine's value (R303 item 2, U2; log 6, log 7). DESIGN CHOICE, unsafe: a byte of a token
list of more than 2^32 bytes, which PARSE has written and goes on to write again, is not noted, and ends with the engine's (log 7). DESIGN CHOICE, unsafe: once `BUSY` is 0
the byte is simply stored, whether or not the host has read `STATUS` (log 21). -/
def hostStore (addr : Word) (v : Byte) (s : State) : State :=
  if s.regs.busy ∧ (inReadRegion s addr ∨ (s.env.raced ∧ inWriteRegion s addr)) then
    raceCommand { s with mem := s.mem.write addr.toNat v }
  else if s.regs.busy ∧ inWriteRegion s addr then
    if dist (writtenSoFar s).1 addr < (writtenSoFar s).2 then
      { s with
        mem := s.mem.write addr.toNat (if Config.freeBool s.env.freeCtr then v else s.mem.read addr.toNat)
        env := { s.env with freeCtr := s.env.freeCtr + 1 } }
    else
      { s with
        mem := s.mem.write addr.toNat v
        env := { s.env with contested := addr.toNat :: s.env.contested } }
  else { s with mem := s.mem.write addr.toNat v }

/-- A host write of one byte of memory: its effect on the running command, and its note in memory as it would stand without that
command's writes (log 8). -/
def hostMemWrite (addr : Word) (v : Byte) (s : State) : State :=
  let t := hostStore addr v s
  { t with env := { t.env with before := s.env.before.write addr.toNat v } }

/-- What a host read of one byte of memory returns: the byte memory holds. While a command that may write it runs, freely the byte
memory holds, the old byte or the byte the engine writes there (70_reset_and_hazards.md R303 item 3, U3; log 8). A byte that the
command does not write is old in all three, in a raced command too; one that a raced command writes is any value (log 6). DESIGN CHOICE, unsafe: once `BUSY` is 0 it is the byte memory
holds, whether or not the host has read `STATUS` (log 21). -/
def hostMemRead (addr : Word) (s : State) : Byte :=
  if s.regs.busy ∧ inWriteRegion s addr then
    if Config.freeBool s.env.freeCtr then s.mem.read addr.toNat
    else if Config.freeBool (s.env.freeCtr + 1) then s.env.before.read addr.toNat
    else (commandEnd s).mem.read addr.toNat
  else s.mem.read addr.toNat

/-- How many free values a host read of a byte uses up: its two choices, and in a raced command those of the path it looks along
(log 8). -/
def hostReadFrees (addr : Word) (s : State) : Nat :=
  if s.regs.busy ∧ inWriteRegion s addr ∧ s.env.raced then 2 + ((commandEnd s).env.freeCtr - s.env.freeCtr) else 2

/-- The host notes a word it has read (log 13). -/
def State.note (w : Word) (s : State) : State :=
  { s with env := { s.env with seen := w :: s.env.seen } }

/-- One move of the host (00_scope.md R11, 10_state.md R22, 70_reset_and_hazards.md R300). -/
def hostMove (m : HostMove) (s : State) : State :=
  match m with
  | .regWrite addr width data => portWrite addr width data s
  | .regRead addr width => if inWindow s.plat addr then s.note (portRead addr width s) else s
  | .memWrite addr v => hostMemWrite addr v s
  | .memRead addr => (s.note ((hostMemRead addr s).setWidth 32)).skipFree (hostReadFrees addr s)
  | .reset => resetBlock s

end Sys2Proof.Machine
end

