-- ==== Sys2Proof/Machine/Turns.lean ====
section
/-! DEFINITION. The turns of the schedule (00_scope.md R11, log 3): the engine's step and the host's moves, one at a time. -/
namespace Sys2Proof.Machine

/-- The state with the given turns still to come. -/
def State.withSched (s : State) (l : List Turn) : State := { s with env := { s.env with sched := l } }

/-- One turn (log 3): the schedule says who moves; when it is empty, the engine does. -/
def takeTurn (s : State) : Out :=
  match s.env.sched with
  | [] => engineStep s
  | .engine :: l => engineStep (s.withSched l)
  | .host m :: l => .next (hostMove m (s.withSched l))
  | .poll :: l => if s.regs.busy then engineStep s else .next ((s.note (statusWord s.regs)).withSched l)

/-- The state in which the command word `w` has just been accepted and the engine moves next (10_state.md R24, log 15). -/
def State.withCommand (s : State) (w : Word) : State := startCommand w (s.withSched [])

end Sys2Proof.Machine
end

