-- ==== Sys2Proof/Machine/Step.lean ====
section
/-! DEFINITION. One step of the machine, and how a command word is placed where the next step runs it. -/
namespace Sys2Proof.Machine

/-- One step: the move of the agent whose turn it is (00_scope.md R11, 10_state.md R34). -/
def step (s : State) : Host.Outcome State Fault Refusal := takeTurn s

/-- The command word of a table entry, accepted by `CMD` (10_state.md R24), with the engine to move next. The block fetches no
instruction (20_memory.md R76): the accepted `CMD` write is what selects the command. -/
def State.withFetchWord (s : State) (nbits w : Nat) : State := s.withCommand (tableWord nbits w)

end Sys2Proof.Machine
end

