-- ==== Sys2Proof/Machine/BigStep.lean ====
section
/-! DEFINITION. The "effect as one big step" of each command (R124, R128, R154, R156, R183, R214, R242), written over the
registers and memory alone, with no FSM state. The step function does not use this file: statements say that a run of
engine steps from an accepted `CMD` write ends with what stands here (10_state.md R33, R34). -/
namespace Sys2Proof.Machine

/-- What the host can see of the block after a command: the registers and memory (10_state.md R33). -/
structure Visible where
  regs : Regs
  mem : Memory
deriving DecidableEq, Repr

/-- The command ends, with success or an error (60_exceptions.md R271, R272). -/
def Visible.ended (e : Option Err) (v : Visible) : Visible := { v with regs := v.regs.ended e }

/-- `ReadSrc(o)` as a function of the registers and memory (00_scope.md R8). -/
def srcByte (p : Platform) (v : Visible) (o : Word) : Option Byte :=
  if memOk p (v.regs.srcAddr + o) .read then some (v.mem.read (v.regs.srcAddr + o).toNat) else none

/-- The loop over continuation bytes of R124, at most `n` of them: from the value `t` so far and the offset `o`, the tag and
the offset after its field. With `n = 4` the last line is never reached, since a fourth continuation byte overflows
(40_tag_codec.md R122). -/
def tagTail (p : Platform) (v : Visible) : Nat → Bool → Word → Word → Except Err (Word × Word)
  | 0, _, _, _ => .error .overflow
  | n + 1, first, t, o =>
    if v.regs.srcLen ≤ o then .error .msgSize
    else
      match srcByte p v o with
      | none => .error .busError
      | some b =>
        if first ∧ b = 0x00#8 then .error .invalid
        else if byteOf t 3 ≠ 0x00#8 then .error .overflow
        else if bit7 b then tagTail p v n false (shiftIn t b) (o + 1)
        else .ok (shiftIn t b, o + 1)

/-- The tag field at offset `o`: its tag and the offset after it, or the error met (40_tag_codec.md R124). -/
def tagField (p : Platform) (v : Visible) (o : Word) : Except Err (Word × Word) :=
  if v.regs.srcLen ≤ o then .error .noData
  else
    match srcByte p v o with
    | none => .error .busError
    | some b =>
      if low5 b = 31#5 then tagTail p v 4 true (zext32 b) (o + 1) else .ok (zext32 b, o + 1)

/-- The loop over the `n` length bytes still to read of R154; `msb` says that the next byte is the first of four. -/
def lenTail (p : Platform) (v : Visible) : Nat → Bool → Word → Word → Except Err (Word × Word)
  | 0, _, l, o => .ok (l, o)
  | n + 1, msb, l, o =>
    if v.regs.srcLen ≤ o then .error .msgSize
    else
      match srcByte p v o with
      | none => .error .busError
      | some c =>
        if msb ∧ bit7 c then .error .overflow else lenTail p v n false (shiftIn l c) (o + 1)

/-- The length field at offset `o`: its length and the offset after it, or the error met (41_length_codec.md R154). -/
def lenField (p : Platform) (v : Visible) (o : Word) : Except Err (Word × Word) :=
  if v.regs.srcLen ≤ o then .error .noData
  else
    match srcByte p v o with
    | none => .error .busError
    | some b =>
      if bit7 b = false then .ok (zext32 b, o + 1)
      else if b = 0xFF#8 then .error .invalid
      else if 4#7 < low7 b then .error .overflow
      else if low7 b = 0#7 then .error .invalid
      else lenTail p v (low7 b).toNat (decide (low7 b = 4#7)) 0 (o + 1)

/-- DECODE_TAG as one big step (40_tag_codec.md R124). -/
def bigDecodeTag (p : Platform) (v : Visible) : Visible :=
  match tagField p v v.regs.arg with
  | .error e => v.ended (some e)
  | .ok (t, o) => Visible.ended none { v with regs := { v.regs with res0 := t, res1 := o - v.regs.arg } }

/-- DECODE_LENGTH as one big step (41_length_codec.md R154). -/
def bigDecodeLength (p : Platform) (v : Visible) : Visible :=
  match lenField p v v.regs.arg with
  | .error e => v.ended (some e)
  | .ok (l, o) => Visible.ended none { v with regs := { v.regs with res0 := l, res1 := o - v.regs.arg } }

/-- One destination byte at `(DST_ADDR + w) mod 2^32`, `RES0` counting it (40_tag_codec.md R127); an error writes nothing. -/
def putByte (p : Platform) (b : Byte) (w : Word) (v : Visible) : Except Err Visible :=
  if v.regs.dstCap ≤ w then .error .noMemory
  else if memOk p (v.regs.dstAddr + w) .write then
    .ok { regs := { v.regs with res0 := w + 1 }, mem := v.mem.write (v.regs.dstAddr + w).toNat b }
  else .error .busError

/-- `emit(bytes)` of R214: the bytes in order from destination offset `w` on, up to the first that cannot be written. Answers
that error if any, the offset reached, and what is then visible. -/
def emitBytes (p : Platform) : List Byte → Word → Visible → Option Err × Word × Visible
  | [], w, v => (none, w, v)
  | b :: bs, w, v =>
    match putByte p b w v with
    | .error e => (some e, w, v)
    | .ok v => emitBytes p bs (w + 1) v

/-- ENCODE_TAG as one big step (40_tag_codec.md R128). -/
def bigEncodeTag (p : Platform) (v : Visible) : Visible :=
  match tagBytes v.regs.arg with
  | none => v.ended (some .invalid)
  | some bs =>
    match emitBytes p bs 0 v with
    | (e, _, v) => v.ended e

/-- ENCODE_LENGTH as one big step (41_length_codec.md R156). -/
def bigEncodeLength (p : Platform) (v : Visible) : Visible :=
  if v.regs.arg = 0#32 then v.ended (some .badArgument)
  else
    match emitBytes p (lengthBytes v.regs.arg) 0 v with
    | (e, _, v) => v.ended e

/-- The bytes of record `cnt` from byte `k` on, written in order up to the first that the platform refuses (42_parse.md R183):
whether all were written, and memory. -/
def storeRecord (p : Platform) (tokAddr cnt : Word) : List Byte → Word → Memory → Bool × Memory
  | [], _, m => (true, m)
  | b :: bs, k, m =>
    if memOk p (tokByteAddr tokAddr cnt k) .write then
      storeRecord p tokAddr cnt bs (k + 1) (m.write (tokByteAddr tokAddr cnt k).toNat b)
    else (false, m)

/-- One token at offset `off` of PARSE and FIND: its tag, its length and the offset of its value, or the error met. The value
lies within the buffer (42_parse.md R181, 44_find.md R241). -/
def tokenAt (p : Platform) (v : Visible) (off : Word) : Except Err (Word × Word × Word) :=
  match tagField p v off with
  | .error e => .error e
  | .ok (t, o) =>
    match lenField p v o with
    | .error e => .error e
    | .ok (l, vs) => if v.regs.srcLen.toNat < vs.toNat + l.toNat then .error .msgSize else .ok (t, l, vs)

/-- The loop of R183, for at most `n` turns. More turns than `SRC_LEN` are never taken, since each token takes bytes. -/
def parseLoop (p : Platform) : Nat → Word → Word → Visible → Visible
  | 0, _, _, v => v
  | n + 1, cnt, off, v =>
    if v.regs.srcLen ≤ off then v.ended none
    else if v.regs.tokN ≤ cnt then v.ended (some .noMemory)
    else
      match tokenAt p v off with
      | .error e => v.ended (some e)
      | .ok (t, l, vs) =>
        match storeRecord p v.regs.tokAddr cnt (recordBytes t l (v.regs.srcAddr + vs)).toList 0 v.mem with
        | (false, m) => Visible.ended (some .busError) { v with mem := m }
        | (true, m) =>
          parseLoop p n (cnt + 1) (vs + l) { regs := { v.regs with res0 := cnt + 1, res1 := vs + l }, mem := m }

/-- PARSE as one big step (42_parse.md R183). -/
def bigParse (p : Platform) (v : Visible) : Visible := parseLoop p (v.regs.srcLen.toNat + 1) 0 0 v

/-- Record `i` of the token list: its tag, length and value address, or `none` when the platform refuses one of its bytes
(43_serialize.md R214). -/
def recordAt (p : Platform) (v : Visible) (i : Word) : Option (Word × Word × Word) :=
  if (List.range 12).all (fun b => memOk p (tokByteAddr v.regs.tokAddr i (BitVec.ofNat 32 b)) .read) then
    some (recordWord v.mem v.regs.tokAddr i 0, recordWord v.mem v.regs.tokAddr i 4, recordWord v.mem v.regs.tokAddr i 8)
  else none

/-- The value bytes of R214 still to copy, `n` of them, from byte `q` of the value at `va` on; answers as `emitBytes` does. -/
def copyValue (p : Platform) (va : Word) : Nat → Word → Word → Visible → Option Err × Word × Visible
  | 0, _, w, v => (none, w, v)
  | n + 1, q, w, v =>
    if v.regs.dstCap ≤ w then (some .noMemory, w, v)
    else if memOk p (va + q) .read then
      match putByte p (v.mem.read (va + q).toNat) w v with
      | .error e => (some e, w, v)
      | .ok v => copyValue p va n (q + 1) (w + 1) v
    else (some .busError, w, v)

/-- One token of R214, from destination offset `w` on: record, tag field, length field, value. -/
def serializeToken (p : Platform) (i w : Word) (v : Visible) : Option Err × Word × Visible :=
  match recordAt p v i with
  | none => (some .busError, w, v)
  | some (t, l, va) =>
    match tagBytes t with
    | none => (some .invalid, w, v)
    | some bs =>
      match emitBytes p bs w v with
      | (some e, w, v) => (some e, w, v)
      | (none, w, v) =>
        if l = 0#32 then (some .badArgument, w, v)
        else
          match emitBytes p (lengthBytes l) w v with
          | (some e, w, v) => (some e, w, v)
          | (none, w, v) => copyValue p va l.toNat 0 w v

/-- The loop of R214 over the `n` records still to come, from record `i` on. -/
def serializeLoop (p : Platform) : Nat → Word → Word → Visible → Visible
  | 0, _, _, v => v.ended none
  | n + 1, i, w, v =>
    match serializeToken p i w v with
    | (some e, _, v) => v.ended (some e)
    | (none, w, v) => serializeLoop p n (i + 1) w { v with regs := { v.regs with res1 := i + 1 } }

/-- SERIALIZE as one big step (43_serialize.md R214). -/
def bigSerialize (p : Platform) (v : Visible) : Visible := serializeLoop p v.regs.tokN.toNat 0 0 v

/-- The loop of R242, for at most `n` turns. More turns than `SRC_LEN` are never taken, since each token takes bytes. -/
def findLoop (p : Platform) : Nat → Word → Visible → Visible
  | 0, _, v => v
  | n + 1, off, v =>
    if v.regs.srcLen ≤ off then v.ended (some .notFound)
    else
      match tokenAt p v off with
      | .error e => v.ended (some e)
      | .ok (t, l, vs) =>
        if t = v.regs.arg then
          Visible.ended none
            { v with regs := { v.regs with res0 := off, res1 := t, res2 := l, res3 := v.regs.srcAddr + vs } }
        else findLoop p n (vs + l) v

/-- FIND as one big step (44_find.md R242). -/
def bigFind (p : Platform) (v : Visible) : Visible := findLoop p (v.regs.srcLen.toNat + 1) 0 v

/-- The effect of a whole command, from the registers an accepted `CMD` write leaves (10_state.md R24). -/
def bigStep (p : Platform) (i : Instr) (v : Visible) : Visible :=
  match i with
  | .decodeTag => bigDecodeTag p v
  | .encodeTag => bigEncodeTag p v
  | .decodeLength => bigDecodeLength p v
  | .encodeLength => bigEncodeLength p v
  | .parse => bigParse p v
  | .serialize => bigSerialize p v
  | .find => bigFind p v

end Sys2Proof.Machine
end

