-- ==== Sys2Proof/Safety.lean ====
section
/-! DEFINITION. The words claims use: a machine without races, the invariants every step keeps, and runs of a command. -/
namespace Sys2Proof.Machine

/-- No race is open: the host has kept 70_reset_and_hazards.md R303 items 1 and 2 since the command started. -/
abbrev State.quiet (s : State) : Prop := s.env.raced = false ∧ s.env.contested = []

/-- The FSM states a command uses (10_state.md R32 with R124, R128, R154, R156, R183, R214, R242); the reserved `OP` uses
DISPATCH alone (30_encoding.md R92). -/
def usesState (op : BitVec 3) (st : Fsm) : Bool :=
  match decodeOp op with
  | .error _ => [Fsm.dispatch].contains st
  | .ok .decodeTag => [Fsm.dispatch, .tagFirst, .tagCont].contains st
  | .ok .encodeTag => [Fsm.dispatch, .encTag, .emit].contains st
  | .ok .decodeLength => [Fsm.dispatch, .lenFirst, .lenBytes].contains st
  | .ok .encodeLength => [Fsm.dispatch, .encLen, .emit].contains st
  | .ok .parse =>
    [Fsm.dispatch, .tokStart, .tagFirst, .tagCont, .lenFirst, .lenBytes, .tokEnd, .recWrite].contains st
  | .ok .serialize => [Fsm.dispatch, .tokStart, .recRead, .encTag, .encLen, .emit, .valCopy].contains st
  | .ok .find => [Fsm.dispatch, .tokStart, .tagFirst, .tagCont, .lenFirst, .lenBytes, .tokEnd].contains st

/-- `STATUS` is coherent: `BUSY` exactly when the engine is not in IDLE (10_state.md R33), `BUSY` and `DONE` never both 1 and
`ERR` 0 while `BUSY` (R25), `ERR` never 9 to 15 (60_exceptions.md R281). -/
abbrev StatusInv (s : State) : Prop :=
  (s.regs.busy = true ↔ s.eng.st ≠ .idle) ∧ (s.regs.busy = true → s.regs.done = false)
    ∧ (s.regs.busy = true → s.regs.err = 0) ∧ s.regs.err ≤ 8#4

/-- The engine is in IDLE or in a state the command in `CMD` uses (10_state.md R32); never at an unused code (R36). -/
abbrev LegalInv (s : State) : Prop := s.eng.st ≠ .idle → usesState s.regs.op s.eng.st = true

/-- The byte indexes lie within their buffers (10_state.md R30): `k` while a record is written or read, `ei` below `en` while the
emitter runs, `nrem` 1 to 4 while length bytes are read. -/
abbrev IndexInv (s : State) : Prop :=
  (s.eng.st = .recWrite → s.eng.k < 12#4) ∧ (s.eng.st = .recRead → s.eng.k < 12#4)
    ∧ (s.eng.st = .emit → s.eng.ei < s.eng.en ∧ s.eng.en ≤ 5#3)
    ∧ (s.eng.st = .lenBytes → 1#3 ≤ s.eng.nrem ∧ s.eng.nrem ≤ 4#3)

/-- What every step keeps so that the engine never lacks a rule. -/
abbrev EngineInv (s : State) : Prop := StatusInv s ∧ LegalInv s ∧ IndexInv s

/-- The command whose opcode `CMD` holds is running (10_state.md R25, R33). -/
abbrev Running (i : Instr) (s : State) : Prop := s.eng.st ≠ .idle ∧ s.regs.op = i.op

/-- Offsets never wrap (00_scope.md R9): the source offset and the value stay within `SRC_LEN` in the states that use them, and a
token's value starts at the offset reached (41_length_codec.md R153). -/
abbrev OffsetInv (s : State) : Prop :=
  (s.eng.st = .tagCont → s.eng.off ≤ s.regs.srcLen) ∧ (s.eng.st = .lenBytes → s.eng.off ≤ s.regs.srcLen)
    ∧ (s.eng.st = .tokEnd → s.eng.vstart = s.eng.off ∧ s.eng.vstart ≤ s.regs.srcLen)
    ∧ (s.eng.st = .recWrite →
        s.eng.vstart = s.eng.off ∧ s.eng.vstart.toNat + s.eng.clen.toNat ≤ s.regs.srcLen.toNat)
    ∧ ((Running .parse s ∨ Running .find s) →
        s.eng.off ≤ s.regs.srcLen ∧ (s.eng.st = .tagFirst → s.eng.off < s.regs.srcLen))

/-- Counts never wrap (00_scope.md R9): tokens stay within `TOK_N`, strictly inside a token, and written bytes within `DST_CAP`;
a length field is being written only for a length that is not 0 (43_serialize.md R212), and fewer than `clen` value bytes have
been copied. -/
abbrev CountInv (s : State) : Prop :=
  ((Running .parse s ∨ Running .serialize s) →
      s.eng.cnt ≤ s.regs.tokN ∧ (s.eng.st ≠ .dispatch ∧ s.eng.st ≠ .tokStart → s.eng.cnt < s.regs.tokN))
    ∧ ((Running .encodeTag s ∨ Running .encodeLength s ∨ Running .serialize s) → s.eng.wcnt ≤ s.regs.dstCap)
    ∧ (Running .serialize s → s.eng.st = .emit → s.eng.fld = .len → s.eng.clen ≠ 0)
    ∧ (s.eng.st = .valCopy → s.eng.j < s.eng.clen)

/-- Offsets and counts stay within their bounds. -/
abbrev BoundsInv (s : State) : Prop := OffsetInv s ∧ CountInv s

/-- What the result registers hold while a command runs (10_state.md R27): the decoders and FIND have written nothing, the
encoders and SERIALIZE count bytes in `RES0`, PARSE counts stored tokens in `RES0` and keeps in `RES1` where the last of them ends
(the offset between two tokens, the start of the token inside one), SERIALIZE counts tokens in `RES1`. -/
abbrev ResultsInv (s : State) : Prop :=
  ((Running .decodeTag s ∨ Running .decodeLength s ∨ Running .find s) →
      s.regs.res0 = 0 ∧ s.regs.res1 = 0 ∧ s.regs.res2 = 0 ∧ s.regs.res3 = 0)
    ∧ ((Running .encodeTag s ∨ Running .encodeLength s) →
      s.regs.res0 = s.eng.wcnt ∧ s.regs.res1 = 0 ∧ s.regs.res2 = 0 ∧ s.regs.res3 = 0)
    ∧ (Running .parse s → s.regs.res0 = s.eng.cnt ∧ s.regs.res2 = 0 ∧ s.regs.res3 = 0
      ∧ (s.eng.st = .dispatch ∨ s.eng.st = .tokStart → s.regs.res1 = s.eng.off)
      ∧ (s.eng.st ≠ .dispatch ∧ s.eng.st ≠ .tokStart → s.regs.res1 = s.eng.tstart))
    ∧ (Running .serialize s →
      s.regs.res0 = s.eng.wcnt ∧ s.regs.res1 = s.eng.cnt ∧ s.regs.res2 = 0 ∧ s.regs.res3 = 0)

/-- `n` steps of the machine, stopping at the first that does not answer a next state (`Laws.run_eq_core`: the run of the host's
interface). -/
def run : Nat → State → Out
  | 0, s => .next s
  | n + 1, s =>
    match step s with
    | .next t => run n t
    | .fault r => .fault r
    | .refused r => .refused r

/-- What the host can see of a state (10_state.md R33). -/
def State.visible (s : State) : Visible := { regs := s.regs, mem := s.mem }

/-- The engine has come to IDLE with the given visible outcome (60_exceptions.md R271, R272). -/
abbrev EndsWith (o : Out) (v : Visible) : Prop := ∃ t, o = .next t ∧ t.eng.st = .idle ∧ t.visible = v

/-- The source bytes from offset `o` on, `n` of them (20_memory.md R61, R62). -/
def sourceBytes (v : Visible) (o : Word) (n : Nat) : List Byte :=
  (List.range n).map (fun i => v.mem.read (v.regs.srcAddr + o + BitVec.ofNat 32 i).toNat)

/-- The number whose big-endian bytes are given (20_memory.md R63, 40_tag_codec.md R122, 41_length_codec.md R152). -/
def bigEndianValue (bs : List Byte) : Nat := bs.foldl (fun n b => n * 256 + b.toNat) 0

/-- FIND passes over the token at offset `o`, whose tag is not its target, to the offset `o'` after its value (44_find.md
R241). -/
def SkipsToken (p : Platform) (v : Visible) (o o' : Word) : Prop :=
  ∃ t l vs, tokenAt p v o = .ok (t, l, vs) ∧ t ≠ v.regs.arg ∧ o' = vs + l

/-- The platform completes every access to the first `n` bytes from `base` on (20_memory.md R60). -/
def allowsRegion (p : Platform) (base : Word) (n : Nat) : Prop :=
  ∀ i, i < n → ∀ k, memOk p (base + BitVec.ofNat 32 i) k = true

/-- The argument registers of two register files are the same (10_state.md R26). -/
abbrev SameArguments (g h : Regs) : Prop :=
  g.srcAddr = h.srcAddr ∧ g.srcLen = h.srcLen ∧ g.dstAddr = h.dstAddr ∧ g.dstCap = h.dstCap
    ∧ g.tokAddr = h.tokAddr ∧ g.tokN = h.tokN ∧ g.arg = h.arg

/-- The result registers of two register files are the same (10_state.md R27). -/
abbrev SameResults (g h : Regs) : Prop :=
  g.res0 = h.res0 ∧ g.res1 = h.res1 ∧ g.res2 = h.res2 ∧ g.res3 = h.res3

end Sys2Proof.Machine
end

