-- ==== Sys2Proof/Certificates/Slice0/Obligations.lean ====
section
/-! DEFINITION. The statements for the provers. Each docstring names the rules of spec/ it formalises; where a clause is the
model's choice, it names the log entry. -/

open Sys2Proof Sys2Proof.Machine

/-! ## The command word and the step -/

/-- 30_encoding.md R90, R91, R92: the command is the one of bits [2:0]; 0 is the reserved opcode; bits [31:3] are ignored. -/
def Obligations.CommandWordNamesItsCommand : Prop :=
  ∀ w : Word,
    (w.toNat % 8 = 0 → decode w = .error .reservedOp) ∧ (w.toNat % 8 = 1 → decode w = .ok .decodeTag)
    ∧ (w.toNat % 8 = 2 → decode w = .ok .encodeTag) ∧ (w.toNat % 8 = 3 → decode w = .ok .decodeLength)
    ∧ (w.toNat % 8 = 4 → decode w = .ok .encodeLength) ∧ (w.toNat % 8 = 5 → decode w = .ok .parse)
    ∧ (w.toNat % 8 = 6 → decode w = .ok .serialize) ∧ (w.toNat % 8 = 7 → decode w = .ok .find)

/-- 30_encoding.md R91, R92 on concrete command words, among them G3's 0xFFFFFFFD. -/
def Obligations.SampleCommandWordsDecode : Prop :=
  decodeTableWord 32 0x00000001 = some .decodeTag ∧ decodeTableWord 32 0x00000002 = some .encodeTag
  ∧ decodeTableWord 32 0x00000003 = some .decodeLength ∧ decodeTableWord 32 0x00000004 = some .encodeLength
  ∧ decodeTableWord 32 0xFFFFFFFD = some .parse ∧ decodeTableWord 32 0x80000006 = some .serialize
  ∧ decodeTableWord 32 0x0000000F = some .find ∧ decodeTableWord 32 0xFFFFFFF8 = none

/-- 10_state.md R34: while the engine is not in IDLE, its one step is the step of the command in `CMD`. What the machine adds
around it is whose turn it is, which is the model's (log 3, log 13). -/
def Obligations.StepRunsTheCommandInCmd : Prop :=
  ∀ (s : State) (i : Instr), decode (cmdWord s.regs) = .ok i → s.eng.st ≠ .idle →
    (s.env.sched = [] → step s = exec i s)
    ∧ (∀ l, s.env.sched = .engine :: l → step s = exec i (s.withSched l))
    ∧ (∀ l, s.env.sched = .poll :: l → s.regs.busy = true → step s = exec i s)

/-- 30_encoding.md R92: `OP = 0` is the only reserved encoding; it is accepted as a command start and ends with BadArgument, with
no memory access and no result. -/
def Obligations.ReservedOpEndsWithBadArgument : Prop :=
  (∀ w : Word, decode w = .error .reservedOp ↔ w.toNat % 8 = 0)
  ∧ ∀ (s : State) (w : Word), w.toNat % 8 = 0 → s.regs.busy = false → s.env.sched = [] →
    let s1 := hostMove (.regWrite s.plat.blockBase .word w) s
    s1.regs.busy = true ∧ s1.eng.st = .dispatch ∧ s1.mem = s.mem
    ∧ ∃ t, step s1 = .next t ∧ t.eng.st = .idle ∧ statusWord t.regs = 0x102#32 ∧ cmdWord t.regs = 0#32
      ∧ t.mem = s.mem ∧ t.regs.res0 = 0 ∧ t.regs.res1 = 0 ∧ t.regs.res2 = 0 ∧ t.regs.res3 = 0

/-- 10_state.md R35 and 60_exceptions.md R292: an idle engine holds its state. That the model's step then answers the same state is
its choice (log 2). -/
def Obligations.IdleEngineHoldsItsState : Prop :=
  ∀ s : State, s.eng.st = .idle → s.env.sched = [] → step s = .next s

/-- 10_state.md R32, R36: in an FSM state the running command has no rule for, the model stops, naming the unused codes apart.
That it stops by these faults is its choice (log 10). -/
def Obligations.StatesWithoutARuleStop : Prop :=
  ∀ (i : Instr) (s : State), s.eng.st ≠ .idle → usesState i.op s.eng.st = false →
    (s.eng.st = .unusedE ∨ s.eng.st = .unusedF → exec i s = .fault .unusedFsmCode)
    ∧ (s.eng.st ≠ .unusedE → s.eng.st ≠ .unusedF → exec i s = .fault .noRule)

/-! ## The register port and reset -/

/-- 10_state.md R24: the effects of an accepted `CMD` write, in one atomic action. Memory is not among them. -/
def Obligations.AcceptedCmdWriteStartsTheCommand : Prop :=
  ∀ (s : State) (w : Word), s.regs.busy = false →
    let t := hostMove (.regWrite s.plat.blockBase .word w) s
    t.regs = { s.regs with
      op := w.extractLsb' 0 3, busy := true, done := false, err := 0, res0 := 0, res1 := 0, res2 := 0, res3 := 0 }
    ∧ t.eng =
      { st := .dispatch, off := 0, acc := 0, first := false, nrem := 0, tstart := 0, vstart := 0, ctag := 0, clen := 0,
        cnt := 0, wcnt := 0, k := 0, recBuf := Vector.replicate 12 0, ebuf := Vector.replicate 5 0, en := 0, ei := 0,
        fld := .tag, j := 0, vaddr := 0 }
    ∧ t.mem = s.mem ∧ t.plat = s.plat

/-- 10_state.md R21, R22, 70_reset_and_hazards.md R304, 92_eei_decisions.md D25: a register write has no effect while BUSY, unless
it is an aligned 32-bit write, at a reserved slot, and at a read-only register. D25 names only sub-word and misaligned accesses; that one
wider than 32 bits is ignored too is the model's choice (log 12). -/
def Obligations.RegisterWritesThatAreIgnored : Prop :=
  ∀ (s : State) (a w : Word) (width : Width),
    (s.regs.busy = true → hostMove (.regWrite a width w) s = s)
    ∧ (width ≠ .word → hostMove (.regWrite a width w) s = s)
    ∧ ((a - s.plat.blockBase).toNat % 4 ≠ 0 → hostMove (.regWrite a width w) s = s)
    ∧ ((a - s.plat.blockBase).toNat ∈ [0x04, 0x24, 0x28, 0x2C, 0x30, 0x34, 0x38, 0x3C] →
        hostMove (.regWrite a width w) s = s)

/-- 10_state.md R22: "A read of an RW register returns the last value written to it"; the write touches nothing else. -/
def Obligations.ArgumentRegistersReadBack : Prop :=
  ∀ (s : State) (w : Word) (r : Reg), s.regs.busy = false →
    r ∈ [Reg.srcAddr, .srcLen, .dstAddr, .dstCap, .tokAddr, .tokN, .arg] →
    let a := s.plat.blockBase + BitVec.ofNat 32 (Reg.offset r)
    let t := hostMove (.regWrite a .word w) s
    portRead a .word t = w ∧ t.eng = s.eng ∧ t.mem = s.mem ∧ t.plat = s.plat ∧ t.env = s.env
    ∧ ∀ r', r' ≠ r → readReg r' t.regs = readReg r' s.regs

/-- 10_state.md R21, R23, R25: what the host reads at each offset, 0 at the reserved slots and for sub-word and misaligned accesses
(92_eei_decisions.md D25), and, by the model's choice, for accesses wider than 32 bits (log 12). "A host read never has a side
effect" (R22): a read in the window only tells the host what it returned, which the model keeps in a list (log 13), and one outside
it is not the block's (log 12). -/
def Obligations.RegisterReadsFollowTheMap : Prop :=
  ∀ s : State,
    let rd := fun n : Nat => portRead (s.plat.blockBase + BitVec.ofNat 32 n) .word s
    (∀ i, i < 32 → (rd 0x00).getLsbD i = (decide (i < 3) && s.regs.op.getLsbD i))
    ∧ (∀ i, i < 32 → (rd 0x04).getLsbD i =
        if i = 0 then s.regs.busy else if i = 1 then s.regs.done
        else if 8 ≤ i ∧ i ≤ 11 then s.regs.err.getLsbD (i - 8) else false)
    ∧ rd 0x08 = s.regs.srcAddr ∧ rd 0x0C = s.regs.srcLen ∧ rd 0x10 = s.regs.dstAddr ∧ rd 0x14 = s.regs.dstCap
    ∧ rd 0x18 = s.regs.tokAddr ∧ rd 0x1C = s.regs.tokN ∧ rd 0x20 = s.regs.arg ∧ rd 0x24 = s.regs.res0
    ∧ rd 0x28 = s.regs.res1 ∧ rd 0x2C = s.regs.res2 ∧ rd 0x30 = s.regs.res3
    ∧ rd 0x34 = 0 ∧ rd 0x38 = 0 ∧ rd 0x3C = 0
    ∧ (∀ a width, width ≠ .word ∨ (a - s.plat.blockBase).toNat % 4 ≠ 0 → portRead a width s = 0)
    ∧ ∀ a width, let t := hostMove (.regRead a width) s
        t.regs = s.regs ∧ t.eng = s.eng ∧ t.mem = s.mem ∧ t.plat = s.plat
        ∧ ((a - s.plat.blockBase).toNat < 64 → t.env = { s.env with seen := portRead a width s :: s.env.seen })
        ∧ (64 ≤ (a - s.plat.blockBase).toNat → t.env = s.env)

/-- 70_reset_and_hazards.md R300: reset clears every register, sets `fld` to TAG and `st` to IDLE, and does not touch memory. -/
def Obligations.ResetClearsEveryRegister : Prop :=
  ∀ s : State,
    let t := hostMove .reset s
    t.regs =
      { op := 0, busy := false, done := false, err := 0, srcAddr := 0, srcLen := 0, dstAddr := 0, dstCap := 0,
        tokAddr := 0, tokN := 0, arg := 0, res0 := 0, res1 := 0, res2 := 0, res3 := 0 }
    ∧ t.eng =
      { st := .idle, off := 0, acc := 0, first := false, nrem := 0, tstart := 0, vstart := 0, ctag := 0, clen := 0,
        cnt := 0, wcnt := 0, k := 0, recBuf := Vector.replicate 12 0, ebuf := Vector.replicate 5 0, en := 0, ei := 0,
        fld := .tag, j := 0, vaddr := 0 }
    ∧ t.mem = s.mem

/-- 70_reset_and_hazards.md R301: reset keeps every write made before it, no later write is made, and STATUS reads 0. -/
def Obligations.ResetAbortsTheRunningCommand : Prop :=
  ∀ (s : State) (l : List Turn), s.env.sched = .host .reset :: l →
    ∃ t, step s = .next t ∧ t.mem = s.mem ∧ statusWord t.regs = 0 ∧ t.eng.st = .idle
      ∧ (l = [] → ∀ n, run n t = .next t)

/-- 10_state.md R21, R30 and 70_reset_and_hazards.md R300: the machine right after reset. That no byte is listed, and the
platform, are the model's (log 4, log 5). -/
def Obligations.ResetStateIsAllZero : Prop :=
  (∀ r, readReg r State.reset.regs = 0) ∧ State.reset.eng = (hostMove .reset State.reset).eng
  ∧ State.reset.regs = (hostMove .reset State.reset).regs ∧ (∀ a, State.reset.mem.read a = 0)

/-! ## The end of a command -/

/-- 60_exceptions.md R271, R272: `finish` and `raise` write STATUS and `st` and nothing else; no write is rolled back and the result
registers stay. -/
def Obligations.FinishAndRaiseEndTheCommand : Prop :=
  ∀ s : State, s.env.raced = false →
    finish s =
      { s with regs := { s.regs with busy := false, done := true, err := 0 }, eng := { s.eng with st := .idle } }
    ∧ (∀ e : Err, raiseErr e s =
        { s with
          regs := { s.regs with
            busy := false, done := true
            err := match e with
              | .badArgument => 1 | .noData => 2 | .noMemory => 3 | .invalid => 4
              | .overflow => 5 | .msgSize => 6 | .notFound => 7 | .busError => 8 }
          eng := { s.eng with st := .idle } })

/-! ## One engine step in each FSM state

Where a rule reads or writes memory, no race is open: the host has kept 70_reset_and_hazards.md R303 since the command started
(log 6, log 7). -/

/-- 30_encoding.md R93: the DISPATCH step of every command, and of the reserved opcode. -/
def Obligations.DispatchStep : Prop :=
  ∀ s : State, s.eng.st = .dispatch →
    exec .decodeTag s = .next { s with eng := { s.eng with off := s.regs.arg, st := .tagFirst } }
    ∧ exec .encodeTag s = .next { s with eng := { s.eng with ctag := s.regs.arg, st := .encTag } }
    ∧ exec .decodeLength s = .next { s with eng := { s.eng with off := s.regs.arg, st := .lenFirst } }
    ∧ exec .encodeLength s = .next { s with eng := { s.eng with clen := s.regs.arg, st := .encLen } }
    ∧ (∀ i ∈ [Instr.parse, .serialize, .find], exec i s = .next { s with eng := { s.eng with st := .tokStart } })
    ∧ (s.regs.op = 0#3 → engineStep s = .next (raiseErr .badArgument s))

/-- 40_tag_codec.md R120, R123: the step of TAG_FIRST for the three commands that use it. -/
def Obligations.TagFirstStep : Prop :=
  ∀ s : State, s.eng.st = .tagFirst → s.env.raced = false →
    let a := s.regs.srcAddr + s.eng.off
    let b := s.mem.read a.toNat
    let r := { s.eng with off := s.eng.off + 1, acc := b.setWidth 32 }
    (s.regs.srcLen ≤ s.eng.off →
      ∀ i ∈ [Instr.decodeTag, .parse, .find], exec i s = .next (raiseErr .noData s))
    ∧ (s.eng.off < s.regs.srcLen → memOk s.plat a .read = false →
      ∀ i ∈ [Instr.decodeTag, .parse, .find], exec i s = .next (raiseErr .busError s))
    ∧ (s.eng.off < s.regs.srcLen → memOk s.plat a .read = true → b.toNat % 32 ≠ 31 →
      exec .decodeTag s = .next (finish { s with
          regs := { s.regs with res0 := b.setWidth 32, res1 := s.eng.off + 1 - s.regs.arg }
          eng := { r with ctag := b.setWidth 32 } })
      ∧ ∀ i ∈ [Instr.parse, .find], exec i s = .next { s with eng := { r with ctag := b.setWidth 32, st := .lenFirst } })
    ∧ (s.eng.off < s.regs.srcLen → memOk s.plat a .read = true → b.toNat % 32 = 31 →
      ∀ i ∈ [Instr.decodeTag, .parse, .find], exec i s = .next { s with eng := { r with first := true, st := .tagCont } })

/-- 40_tag_codec.md R121, R123: the step of TAG_CONT for the three commands that use it. -/
def Obligations.TagContStep : Prop :=
  ∀ s : State, s.eng.st = .tagCont → s.env.raced = false →
    let a := s.regs.srcAddr + s.eng.off
    let b := s.mem.read a.toNat
    let v := (s.eng.acc <<< 8) ||| b.setWidth 32
    let r := { s.eng with acc := v, off := s.eng.off + 1, first := false }
    (s.regs.srcLen ≤ s.eng.off →
      ∀ i ∈ [Instr.decodeTag, .parse, .find], exec i s = .next (raiseErr .msgSize s))
    ∧ (s.eng.off < s.regs.srcLen → memOk s.plat a .read = false →
      ∀ i ∈ [Instr.decodeTag, .parse, .find], exec i s = .next (raiseErr .busError s))
    ∧ (s.eng.off < s.regs.srcLen → memOk s.plat a .read = true → s.eng.first = true → b = 0#8 →
      ∀ i ∈ [Instr.decodeTag, .parse, .find], exec i s = .next (raiseErr .invalid s))
    ∧ (s.eng.off < s.regs.srcLen → memOk s.plat a .read = true → (s.eng.first = false ∨ b ≠ 0#8) →
      2 ^ 24 ≤ s.eng.acc.toNat → ∀ i ∈ [Instr.decodeTag, .parse, .find], exec i s = .next (raiseErr .overflow s))
    ∧ (s.eng.off < s.regs.srcLen → memOk s.plat a .read = true → (s.eng.first = false ∨ b ≠ 0#8) →
      s.eng.acc.toNat < 2 ^ 24 → 128 ≤ b.toNat → ∀ i ∈ [Instr.decodeTag, .parse, .find], exec i s = .next { s with eng := r })
    ∧ (s.eng.off < s.regs.srcLen → memOk s.plat a .read = true → (s.eng.first = false ∨ b ≠ 0#8) →
      s.eng.acc.toNat < 2 ^ 24 → b.toNat < 128 →
      exec .decodeTag s = .next (finish { s with
          regs := { s.regs with res0 := v, res1 := s.eng.off + 1 - s.regs.arg }, eng := { r with ctag := v } })
      ∧ ∀ i ∈ [Instr.parse, .find], exec i s = .next { s with eng := { r with ctag := v, st := .lenFirst } })

/-- 41_length_codec.md R150, R153: the step of LEN_FIRST for the three commands that use it. -/
def Obligations.LenFirstStep : Prop :=
  ∀ s : State, s.eng.st = .lenFirst → s.env.raced = false →
    let a := s.regs.srcAddr + s.eng.off
    let b := s.mem.read a.toNat
    let v : Word := b.setWidth 32
    let r := { s.eng with acc := v, off := s.eng.off + 1, clen := v }
    (s.regs.srcLen ≤ s.eng.off →
      ∀ i ∈ [Instr.decodeLength, .parse, .find], exec i s = .next (raiseErr .noData s))
    ∧ (s.eng.off < s.regs.srcLen → memOk s.plat a .read = false →
      ∀ i ∈ [Instr.decodeLength, .parse, .find], exec i s = .next (raiseErr .busError s))
    ∧ (s.eng.off < s.regs.srcLen → memOk s.plat a .read = true → b.toNat < 128 →
      exec .decodeLength s = .next (finish { s with
          regs := { s.regs with res0 := v, res1 := s.eng.off + 1 - s.regs.arg }, eng := r })
      ∧ ∀ i ∈ [Instr.parse, .find], exec i s = .next { s with eng := { r with vstart := s.eng.off + 1, st := .tokEnd } })
    ∧ (s.eng.off < s.regs.srcLen → memOk s.plat a .read = true → (b = 0xFF#8 ∨ b = 0x80#8) →
      ∀ i ∈ [Instr.decodeLength, .parse, .find], exec i s = .next (raiseErr .invalid s))
    ∧ (s.eng.off < s.regs.srcLen → memOk s.plat a .read = true → 0x85 ≤ b.toNat → b.toNat ≤ 0xFE →
      ∀ i ∈ [Instr.decodeLength, .parse, .find], exec i s = .next (raiseErr .overflow s))
    ∧ (s.eng.off < s.regs.srcLen → memOk s.plat a .read = true → 0x81 ≤ b.toNat → b.toNat ≤ 0x84 →
      ∀ i ∈ [Instr.decodeLength, .parse, .find],
        exec i s = .next { s with eng := { s.eng with
          nrem := BitVec.ofNat 3 (b.toNat - 0x80), acc := 0, first := true, off := s.eng.off + 1, st := .lenBytes } })

/-- 41_length_codec.md R151, R153: the step of LEN_BYTES for the three commands that use it. -/
def Obligations.LenBytesStep : Prop :=
  ∀ s : State, s.eng.st = .lenBytes → s.env.raced = false →
    let a := s.regs.srcAddr + s.eng.off
    let b := s.mem.read a.toNat
    let v := (s.eng.acc <<< 8) ||| b.setWidth 32
    let r := { s.eng with acc := v, off := s.eng.off + 1, first := false, nrem := s.eng.nrem - 1 }
    (s.regs.srcLen ≤ s.eng.off →
      ∀ i ∈ [Instr.decodeLength, .parse, .find], exec i s = .next (raiseErr .msgSize s))
    ∧ (s.eng.off < s.regs.srcLen → memOk s.plat a .read = false →
      ∀ i ∈ [Instr.decodeLength, .parse, .find], exec i s = .next (raiseErr .busError s))
    ∧ (s.eng.off < s.regs.srcLen → memOk s.plat a .read = true →
      s.eng.first = true → s.eng.nrem = 4#3 → 128 ≤ b.toNat →
      ∀ i ∈ [Instr.decodeLength, .parse, .find], exec i s = .next (raiseErr .overflow s))
    ∧ (s.eng.off < s.regs.srcLen → memOk s.plat a .read = true →
      (s.eng.first = false ∨ s.eng.nrem ≠ 4#3 ∨ b.toNat < 128) → s.eng.nrem ≠ 1#3 →
      ∀ i ∈ [Instr.decodeLength, .parse, .find], exec i s = .next { s with eng := r })
    ∧ (s.eng.off < s.regs.srcLen → memOk s.plat a .read = true → s.eng.nrem = 1#3 →
      exec .decodeLength s = .next (finish { s with
          regs := { s.regs with res0 := v, res1 := s.eng.off + 1 - s.regs.arg }, eng := { r with clen := v } })
      ∧ ∀ i ∈ [Instr.parse, .find],
          exec i s = .next { s with eng := { r with clen := v, vstart := s.eng.off + 1, st := .tokEnd } })

/-- 40_tag_codec.md R125: the step of ENC_TAG for the two commands that use it: one byte, the significant bytes of a tag with the
marker, or Invalid before any byte is written. -/
def Obligations.EncTagStep : Prop :=
  ∀ s : State, s.eng.st = .encTag →
    let t := s.eng.ctag
    let n := sigbytes t
    let lead := t.toNat / 256 ^ (n - 1) % 32
    (t.toNat ≤ 0xFF → t.toNat % 32 ≤ 30 → ∀ i ∈ [Instr.encodeTag, .serialize],
      exec i s = .next { s with eng := { s.eng with
        ebuf := s.eng.ebuf.set 0 (t.setWidth 8), en := 1, ei := 0, fld := .tag, st := .emit } })
    ∧ ((0xFF < t.toNat ∨ t.toNat % 32 = 31) → lead ≠ 31 → ∀ i ∈ [Instr.encodeTag, .serialize],
      exec i s = .next (raiseErr .invalid s))
    ∧ ((0xFF < t.toNat ∨ t.toNat % 32 = 31) → lead = 31 → ∀ i ∈ [Instr.encodeTag, .serialize],
      ∃ e : Vector Byte 5,
        exec i s = .next { s with eng := { s.eng with
          ebuf := e, en := BitVec.ofNat 3 n, ei := 0, fld := .tag, st := .emit } }
        ∧ (∀ m, m < n → (e[m]?).map BitVec.toNat = some (t.toNat / 256 ^ (n - 1 - m) % 256))
        ∧ (∀ m, n ≤ m → e[m]? = s.eng.ebuf[m]?))

/-- 41_length_codec.md R155: the step of ENC_LEN for the two commands that use it: BadArgument for 0, one byte up to 127, else the
marker and the significant bytes. -/
def Obligations.EncLenStep : Prop :=
  ∀ s : State, s.eng.st = .encLen →
    let l := s.eng.clen
    let n := sigbytes l
    (l = 0 → ∀ i ∈ [Instr.encodeLength, .serialize], exec i s = .next (raiseErr .badArgument s))
    ∧ (1 ≤ l.toNat → l.toNat ≤ 127 → ∀ i ∈ [Instr.encodeLength, .serialize],
      exec i s = .next { s with eng := { s.eng with
        ebuf := s.eng.ebuf.set 0 (l.setWidth 8), en := 1, ei := 0, fld := .len, st := .emit } })
    ∧ (128 ≤ l.toNat → ∀ i ∈ [Instr.encodeLength, .serialize],
      ∃ e : Vector Byte 5,
        exec i s = .next { s with eng := { s.eng with
          ebuf := e, en := BitVec.ofNat 3 (n + 1), ei := 0, fld := .len, st := .emit } }
        ∧ (e[0]?).map BitVec.toNat = some (0x80 + n)
        ∧ (∀ m, m < n → (e[m + 1]?).map BitVec.toNat = some (l.toNat / 256 ^ (n - 1 - m) % 256))
        ∧ (∀ m, n < m → e[m]? = s.eng.ebuf[m]?))

/-- 40_tag_codec.md R127: the step of EMIT for the three commands that use it, at a byte index within the buffer (`IndexInv`). The
`Overflow` test never fires: every step below the capacity writes or is refused. -/
def Obligations.EmitStep : Prop :=
  ∀ (s : State) (b : Byte), s.eng.st = .emit → s.quiet → s.eng.ebuf[s.eng.ei.toNat]? = some b →
    let a := s.regs.dstAddr + s.eng.wcnt
    let u := { s with
      mem := s.mem.write a.toNat b
      eng := { s.eng with wcnt := s.eng.wcnt + 1, ei := s.eng.ei + 1 }
      regs := { s.regs with res0 := s.eng.wcnt + 1 } }
    (s.regs.dstCap ≤ s.eng.wcnt →
      ∀ i ∈ [Instr.encodeTag, .encodeLength, .serialize], exec i s = .next (raiseErr .noMemory s))
    ∧ (s.eng.wcnt < s.regs.dstCap → memOk s.plat a .write = false →
      ∀ i ∈ [Instr.encodeTag, .encodeLength, .serialize], exec i s = .next (raiseErr .busError s))
    ∧ (s.eng.wcnt < s.regs.dstCap → memOk s.plat a .write = true → s.eng.ei + 1 ≠ s.eng.en →
      ∀ i ∈ [Instr.encodeTag, .encodeLength, .serialize], exec i s = .next u)
    ∧ (s.eng.wcnt < s.regs.dstCap → memOk s.plat a .write = true → s.eng.ei + 1 = s.eng.en →
      exec .encodeTag s = .next (finish u) ∧ exec .encodeLength s = .next (finish u)
      ∧ (s.eng.fld = .tag → exec .serialize s = .next { u with eng := { u.eng with st := .encLen } })
      ∧ (s.eng.fld = .len → exec .serialize s = .next { u with eng := { u.eng with j := 0, st := .valCopy } }))

/-- 42_parse.md R180, R181: the steps of TOK_START and TOK_END of PARSE. -/
def Obligations.ParseTokenBoundarySteps : Prop :=
  ∀ s : State,
    (s.eng.st = .tokStart →
      (s.regs.srcLen ≤ s.eng.off → exec .parse s = .next (finish s))
      ∧ (s.eng.off < s.regs.srcLen → s.regs.tokN ≤ s.eng.cnt → exec .parse s = .next (raiseErr .noMemory s))
      ∧ (s.eng.off < s.regs.srcLen → s.eng.cnt < s.regs.tokN →
          exec .parse s = .next { s with eng := { s.eng with tstart := s.eng.off, st := .tagFirst } }))
    ∧ (s.eng.st = .tokEnd →
      (s.regs.srcLen.toNat < s.eng.vstart.toNat + s.eng.clen.toNat → exec .parse s = .next (raiseErr .msgSize s))
      ∧ (s.eng.vstart.toNat + s.eng.clen.toNat ≤ s.regs.srcLen.toNat →
          exec .parse s = .next { s with eng := { s.eng with
            recBuf := recordBytes s.eng.ctag s.eng.clen (s.regs.srcAddr + s.eng.vstart), k := 0, st := .recWrite } }))

/-- 42_parse.md R182: the step of REC_WRITE, for each of the twelve bytes. -/
def Obligations.RecWriteStep : Prop :=
  ∀ (s : State) (h : s.eng.k.toNat < 12), s.eng.st = .recWrite → s.quiet →
    let a := s.regs.tokAddr + 12 * s.eng.cnt + s.eng.k.setWidth 32
    let m := s.mem.write a.toNat s.eng.recBuf[s.eng.k.toNat]
    (memOk s.plat a .write = false → exec .parse s = .next (raiseErr .busError s))
    ∧ (memOk s.plat a .write = true → s.eng.k.toNat < 11 →
        exec .parse s = .next { s with mem := m, eng := { s.eng with k := s.eng.k + 1 } })
    ∧ (memOk s.plat a .write = true → s.eng.k.toNat = 11 →
        exec .parse s = .next { s with
          mem := m
          eng := { s.eng with k := 12, cnt := s.eng.cnt + 1, off := s.eng.vstart + s.eng.clen, st := .tokStart }
          regs := { s.regs with res0 := s.eng.cnt + 1, res1 := s.eng.vstart + s.eng.clen } })

/-- 43_serialize.md R210, R211: the steps of TOK_START and REC_READ of SERIALIZE. -/
def Obligations.SerializeRecordSteps : Prop :=
  ∀ s : State,
    (s.eng.st = .tokStart →
      (s.regs.tokN ≤ s.eng.cnt → exec .serialize s = .next (finish s))
      ∧ (s.eng.cnt < s.regs.tokN → exec .serialize s = .next { s with eng := { s.eng with k := 0, st := .recRead } }))
    ∧ (∀ h : s.eng.k.toNat < 12, s.eng.st = .recRead → s.env.raced = false →
      let a := s.regs.tokAddr + 12 * s.eng.cnt + s.eng.k.setWidth 32
      let r := s.eng.recBuf.set s.eng.k.toNat (s.mem.read a.toNat)
      (memOk s.plat a .read = false → exec .serialize s = .next (raiseErr .busError s))
      ∧ (memOk s.plat a .read = true → s.eng.k.toNat < 11 →
          exec .serialize s = .next { s with eng := { s.eng with recBuf := r, k := s.eng.k + 1 } })
      ∧ (memOk s.plat a .read = true → s.eng.k.toNat = 11 →
          exec .serialize s = .next { s with eng := { s.eng with
            recBuf := r, k := 12, ctag := r[3] ++ r[2] ++ r[1] ++ r[0], clen := r[7] ++ r[6] ++ r[5] ++ r[4]
            vaddr := r[11] ++ r[10] ++ r[9] ++ r[8], st := .encTag } }))

/-- 43_serialize.md R213: the step of VAL_COPY. The `Overflow` test never fires. -/
def Obligations.ValCopyStep : Prop :=
  ∀ s : State, s.eng.st = .valCopy → s.quiet →
    let a := s.eng.vaddr + s.eng.j
    let d := s.regs.dstAddr + s.eng.wcnt
    let u := { s with
      mem := s.mem.write d.toNat (s.mem.read a.toNat)
      eng := { s.eng with wcnt := s.eng.wcnt + 1, j := s.eng.j + 1 }
      regs := { s.regs with res0 := s.eng.wcnt + 1 } }
    (s.regs.dstCap ≤ s.eng.wcnt → exec .serialize s = .next (raiseErr .noMemory s))
    ∧ (s.eng.wcnt < s.regs.dstCap → memOk s.plat a .read = false → exec .serialize s = .next (raiseErr .busError s))
    ∧ (s.eng.wcnt < s.regs.dstCap → memOk s.plat a .read = true → memOk s.plat d .write = false →
        exec .serialize s = .next (raiseErr .busError s))
    ∧ (s.eng.wcnt < s.regs.dstCap → memOk s.plat a .read = true → memOk s.plat d .write = true →
        s.eng.j + 1 ≠ s.eng.clen → exec .serialize s = .next u)
    ∧ (s.eng.wcnt < s.regs.dstCap → memOk s.plat a .read = true → memOk s.plat d .write = true →
        s.eng.j + 1 = s.eng.clen →
        exec .serialize s = .next { u with
          eng := { u.eng with cnt := s.eng.cnt + 1, st := .tokStart }
          regs := { u.regs with res1 := s.eng.cnt + 1 } })

/-- 44_find.md R240, R241: the steps of TOK_START and TOK_END of FIND. -/
def Obligations.FindTokenBoundarySteps : Prop :=
  ∀ s : State,
    (s.eng.st = .tokStart →
      (s.regs.srcLen ≤ s.eng.off → exec .find s = .next (raiseErr .notFound s))
      ∧ (s.eng.off < s.regs.srcLen →
          exec .find s = .next { s with eng := { s.eng with tstart := s.eng.off, st := .tagFirst } }))
    ∧ (s.eng.st = .tokEnd →
      (s.regs.srcLen.toNat < s.eng.vstart.toNat + s.eng.clen.toNat → exec .find s = .next (raiseErr .msgSize s))
      ∧ (s.eng.vstart.toNat + s.eng.clen.toNat ≤ s.regs.srcLen.toNat → s.eng.ctag = s.regs.arg →
          exec .find s = .next (finish { s with regs := { s.regs with
            res0 := s.eng.tstart, res1 := s.eng.ctag, res2 := s.eng.clen, res3 := s.regs.srcAddr + s.eng.vstart } }))
      ∧ (s.eng.vstart.toNat + s.eng.clen.toNat ≤ s.regs.srcLen.toNat → s.eng.ctag ≠ s.regs.arg →
          exec .find s = .next { s with eng := { s.eng with off := s.eng.vstart + s.eng.clen, st := .tokStart } }))

/-! ## Frames -/

/-- 10_state.md R22, R27, R30 with 40_tag_codec.md R124, 41_length_codec.md R154, 44_find.md R242 ("writes nothing"): what one step
of DECODE_TAG, DECODE_LENGTH and FIND leaves unchanged. Every address of memory reads as before; the result registers change
only where the command ends. -/
def Obligations.DecodersAndFindFrame : Prop :=
  ∀ i ∈ [Instr.decodeTag, .decodeLength, .find], ∀ s t : State, exec i s = .next t →
    (∀ a, t.mem.read a = s.mem.read a) ∧ t.mem = s.mem ∧ t.plat = s.plat ∧ t.regs.op = s.regs.op
    ∧ SameArguments t.regs s.regs ∧ (t.eng.st ≠ .idle → t.regs = s.regs)
    ∧ t.eng.cnt = s.eng.cnt ∧ t.eng.wcnt = s.eng.wcnt ∧ t.eng.k = s.eng.k ∧ t.eng.recBuf = s.eng.recBuf
    ∧ t.eng.ebuf = s.eng.ebuf ∧ t.eng.en = s.eng.en ∧ t.eng.ei = s.eng.ei ∧ t.eng.fld = s.eng.fld
    ∧ t.eng.j = s.eng.j ∧ t.eng.vaddr = s.eng.vaddr
    ∧ t.env.sched = s.env.sched ∧ t.env.seen = s.env.seen ∧ t.env.raced = s.env.raced ∧ t.env.contested = s.env.contested
    ∧ t.env.before = s.env.before

/-- 10_state.md R22, R27, R30 with 40_tag_codec.md R127, R128, 41_length_codec.md R156, 43_serialize.md R213, R214: what one step of
ENCODE_TAG, ENCODE_LENGTH and SERIALIZE leaves unchanged. The only byte stored to is the next destination byte, and only in EMIT
and VAL_COPY. -/
def Obligations.EncodersAndSerializeFrame : Prop :=
  ∀ i ∈ [Instr.encodeTag, .encodeLength, .serialize], ∀ s t : State, exec i s = .next t →
    (∀ a, a ≠ (s.regs.dstAddr + s.eng.wcnt).toNat → t.mem.read a = s.mem.read a)
    ∧ (s.eng.st ≠ .emit → s.eng.st ≠ .valCopy → (∀ a, t.mem.read a = s.mem.read a) ∧ t.eng.wcnt = s.eng.wcnt)
    ∧ (s.eng.st ≠ .emit → s.eng.st ≠ .valCopy → t.eng.st ≠ .idle → t.regs = s.regs)
    ∧ t.plat = s.plat ∧ t.regs.op = s.regs.op ∧ SameArguments t.regs s.regs
    ∧ (t.eng.st ≠ .idle → t.regs.res2 = s.regs.res2 ∧ t.regs.res3 = s.regs.res3)
    ∧ t.eng.off = s.eng.off ∧ t.eng.acc = s.eng.acc ∧ t.eng.first = s.eng.first ∧ t.eng.nrem = s.eng.nrem
    ∧ t.eng.tstart = s.eng.tstart ∧ t.eng.vstart = s.eng.vstart
    ∧ t.env.sched = s.env.sched ∧ t.env.seen = s.env.seen ∧ t.env.raced = s.env.raced ∧ t.env.contested = s.env.contested
    ∧ t.env.before = s.env.before

/-- 10_state.md R22, R27, R30 with 42_parse.md R182, R183: what one step of PARSE leaves unchanged. The only byte stored to is the
next byte of the current record, and only in REC_WRITE. -/
def Obligations.ParseFrame : Prop :=
  ∀ s t : State, exec .parse s = .next t →
    (∀ a, a ≠ (s.regs.tokAddr + 12 * s.eng.cnt + s.eng.k.setWidth 32).toNat → t.mem.read a = s.mem.read a)
    ∧ (s.eng.st ≠ .recWrite → (∀ a, t.mem.read a = s.mem.read a) ∧ t.eng.cnt = s.eng.cnt)
    ∧ (s.eng.st ≠ .recWrite → t.eng.st ≠ .idle → t.regs = s.regs)
    ∧ t.plat = s.plat ∧ t.regs.op = s.regs.op ∧ SameArguments t.regs s.regs
    ∧ (t.eng.st ≠ .idle → t.regs.res2 = s.regs.res2 ∧ t.regs.res3 = s.regs.res3)
    ∧ t.eng.wcnt = s.eng.wcnt ∧ t.eng.ebuf = s.eng.ebuf ∧ t.eng.en = s.eng.en ∧ t.eng.ei = s.eng.ei
    ∧ t.eng.fld = s.eng.fld ∧ t.eng.j = s.eng.j ∧ t.eng.vaddr = s.eng.vaddr
    ∧ t.env.sched = s.env.sched ∧ t.env.seen = s.env.seen ∧ t.env.raced = s.env.raced ∧ t.env.contested = s.env.contested
    ∧ t.env.before = s.env.before

/-- 10_state.md R22 and 20_memory.md R76: "the argument registers keep, for the whole command, the values they held when the command
started", and so does the opcode, whoever moves, unless the block is reset. -/
def Obligations.ArgumentsAreFrozenWhileBusy : Prop :=
  ∀ s t : State, s.regs.busy = true → (∀ l, s.env.sched ≠ .host .reset :: l) → step s = .next t →
    SameArguments t.regs s.regs ∧ t.regs.op = s.regs.op

/-- 20_memory.md R61: a step of the engine changes only bytes of the region the running command may write. -/
def Obligations.EngineWritesOnlyTheWriteRegion : Prop :=
  ∀ s t : State, EngineInv s → BoundsInv s → engineStep s = .next t →
    ∀ a : Word, t.mem.read a.toNat ≠ s.mem.read a.toNat → inWriteRegion s a = true

/-- 20_memory.md R61: a step of DECODE_TAG, DECODE_LENGTH and FIND depends on memory only through the bytes of the source region. -/
def Obligations.DecodersReadOnlyTheSourceRegion : Prop :=
  ∀ i ∈ [Instr.decodeTag, .decodeLength, .find], ∀ (s t : State) (m : Memory),
    (∀ a : Word, dist s.regs.srcAddr a < s.regs.srcLen.toNat → m.read a.toNat = s.mem.read a.toNat) →
    exec i s = .next t → exec i { s with mem := m } = .next { t with mem := m }

/-! ## Invariants -/

/-- 70_reset_and_hazards.md R300: the machine right after reset meets every invariant below. The last clause, that its memory is in
canonical form, is the model's: R300 leaves memory unspecified, and State.reset lists no byte (log 5). -/
def Obligations.ResetMeetsTheInvariants : Prop :=
  EngineInv State.reset ∧ BoundsInv State.reset ∧ ResultsInv State.reset ∧ State.reset.mem.wf = true

/-- 10_state.md R25, R32, R33, R36, 60_exceptions.md R281: every step, of engine or host, keeps STATUS coherent, the FSM in a state its
command uses, and the byte indexes within their buffers. -/
def Obligations.EveryStepKeepsEngineInv : Prop :=
  ∀ s t : State, EngineInv s → step s = .next t → EngineInv t

/-- 10_state.md R34, R36: where the invariant holds, the machine always has a next state: no fault and no refusal. -/
def Obligations.MachineNeverStops : Prop :=
  ∀ s : State, EngineInv s → ∃ t, step s = .next t

/-- 20_memory.md R61: every step keeps memory in its canonical form. -/
def Obligations.EveryStepKeepsMemoryCanonical : Prop :=
  ∀ s t : State, s.mem.wf = true → step s = .next t → t.mem.wf = true

/-- 00_scope.md R9: "Offsets and counts never wrap": every step keeps them within their bounds. -/
def Obligations.EveryStepKeepsBounds : Prop :=
  ∀ s t : State, EngineInv s → BoundsInv s → step s = .next t → BoundsInv t

/-- 10_state.md R27: while a command runs, every step keeps its result registers at what the command has counted so far. -/
def Obligations.EveryStepKeepsResults : Prop :=
  ∀ s t : State, EngineInv s → ResultsInv s → step s = .next t → ResultsInv t

/-- 10_state.md R35, 70_reset_and_hazards.md R303 item 1, R307. First: a command that `CMD` has accepted comes to IDLE once the engine
has had as many turns as R307 gives it, whatever the host does between them, races included. Second: from wherever the invariants
hold, raced or not, the engine left alone comes to IDLE; a state that no run reaches, in the middle of PARSE's record at an offset
too low for it, can take 9 steps more than R307's bound. -/
def Obligations.EveryCommandReachesIdle : Prop :=
  (∀ (s : State) (w : Word) (l : List Turn), .poll ∉ l → commandBound (startCommand w s).regs ≤ l.count .engine →
    ∃ n t, n ≤ l.length ∧ run n ((s.withCommand w).withSched l) = .next t ∧ t.eng.st = .idle)
  ∧ ∀ s : State, EngineInv s → BoundsInv s → s.env.sched = [] →
    ∃ n t, n ≤ commandBound s.regs + 9 ∧ run n s = .next t ∧ t.eng.st = .idle

/-! ## A whole command is its effect as one big step, within its step bound -/

/-- 40_tag_codec.md R124 and 70_reset_and_hazards.md R307. -/
def Obligations.DecodeTagRunIsItsBigStep : Prop :=
  ∀ s : State,
    let s0 := s.withCommand (encode .decodeTag)
    EndsWith (run 6 s0) (bigDecodeTag s0.plat s0.visible)

/-- 40_tag_codec.md R128 and 70_reset_and_hazards.md R307. -/
def Obligations.EncodeTagRunIsItsBigStep : Prop :=
  ∀ s : State,
    let s0 := s.withCommand (encode .encodeTag)
    EndsWith (run 6 s0) (bigEncodeTag s0.plat s0.visible)

/-- 41_length_codec.md R154 and 70_reset_and_hazards.md R307. -/
def Obligations.DecodeLengthRunIsItsBigStep : Prop :=
  ∀ s : State,
    let s0 := s.withCommand (encode .decodeLength)
    EndsWith (run 6 s0) (bigDecodeLength s0.plat s0.visible)

/-- 41_length_codec.md R156 and 70_reset_and_hazards.md R307. -/
def Obligations.EncodeLengthRunIsItsBigStep : Prop :=
  ∀ s : State,
    let s0 := s.withCommand (encode .encodeLength)
    EndsWith (run 7 s0) (bigEncodeLength s0.plat s0.visible)

/-- 42_parse.md R183 and 70_reset_and_hazards.md R307. -/
def Obligations.ParseRunIsItsBigStep : Prop :=
  ∀ s : State,
    let s0 := s.withCommand (encode .parse)
    EndsWith (run (8 * s.regs.srcLen.toNat + 5) s0) (bigParse s0.plat s0.visible)

/-- 43_serialize.md R214 and 70_reset_and_hazards.md R307. -/
def Obligations.SerializeRunIsItsBigStep : Prop :=
  ∀ s : State,
    let s0 := s.withCommand (encode .serialize)
    EndsWith (run (15 * s.regs.tokN.toNat + s.regs.dstCap.toNat + 3) s0) (bigSerialize s0.plat s0.visible)

/-- 44_find.md R242 and 70_reset_and_hazards.md R307. -/
def Obligations.FindRunIsItsBigStep : Prop :=
  ∀ s : State,
    let s0 := s.withCommand (encode .find)
    EndsWith (run (2 * s.regs.srcLen.toNat + 5) s0) (bigFind s0.plat s0.visible)

/-! ## Laws of whole commands -/

/-- 40_tag_codec.md R126: `sigbytes(v)` is the smallest `n ≥ 1` with `v < 2^(8n)`, and its table. -/
def Obligations.SigbytesIsTheSmallestWidth : Prop :=
  ∀ v : Word, 1 ≤ sigbytes v ∧ v.toNat < 2 ^ (8 * sigbytes v)
    ∧ (∀ n, 1 ≤ n → v.toNat < 2 ^ (8 * n) → sigbytes v ≤ n)
    ∧ (v.toNat ≤ 0xFF → sigbytes v = 1) ∧ (0x100 ≤ v.toNat → v.toNat ≤ 0xFFFF → sigbytes v = 2)
    ∧ (0x10000 ≤ v.toNat → v.toNat ≤ 0xFFFFFF → sigbytes v = 3) ∧ (0x1000000 ≤ v.toNat → sigbytes v = 4)

/-- 20_memory.md R64: a token record is three little-endian words, read back as they were written. -/
def Obligations.TokenRecordIsThreeLittleEndianWords : Prop :=
  ∀ t l a : Word,
    let r := recordBytes t l a
    (∀ i, i < 4 → (r[i]?).map BitVec.toNat = some (t.toNat / 256 ^ i % 256))
    ∧ (∀ i, i < 4 → (r[4 + i]?).map BitVec.toNat = some (l.toNat / 256 ^ i % 256))
    ∧ (∀ i, i < 4 → (r[8 + i]?).map BitVec.toNat = some (a.toNat / 256 ^ i % 256))
    ∧ recTag r = t ∧ recLen r = l ∧ recAddr r = a

/-- 30_encoding.md R95, R96, R102 and 40_tag_codec.md R122: after a successful DECODE_TAG, `RES0` is the big-endian value of the
`RES1` bytes of the field, and the field has the form the wire format gives it. -/
def Obligations.DecodeTagReturnsTheFieldsValue : Prop :=
  ∀ s t : State, run 6 (s.withCommand (encode .decodeTag)) = .next t → t.regs.err = 0 →
    let bs := sourceBytes s.visible s.regs.arg t.regs.res1.toNat
    t.regs.res0.toNat = bigEndianValue bs ∧ 1 ≤ t.regs.res1.toNat ∧ t.regs.res1.toNat ≤ 4
    ∧ s.regs.arg.toNat + t.regs.res1.toNat ≤ s.regs.srcLen.toNat
    ∧ (t.regs.res1.toNat = 1 ↔ (bs[0]?.getD 0).toNat % 32 ≠ 31)
    ∧ (2 ≤ t.regs.res1.toNat → bs[1]?.getD 0 ≠ 0#8
        ∧ (∀ i, 1 ≤ i → i + 1 < t.regs.res1.toNat → 128 ≤ (bs[i]?.getD 0).toNat)
        ∧ (bs[t.regs.res1.toNat - 1]?.getD 0).toNat < 128)

/-- 30_encoding.md R97, R98, R102 and 41_length_codec.md R152: after a successful DECODE_LENGTH, `RES0` is byte0 of a short field, or
the big-endian value of the N bytes after the marker of a long one, and at most 0x7FFFFFFF. -/
def Obligations.DecodeLengthReturnsTheFieldsValue : Prop :=
  ∀ s t : State, run 6 (s.withCommand (encode .decodeLength)) = .next t → t.regs.err = 0 →
    let bs := sourceBytes s.visible s.regs.arg t.regs.res1.toNat
    let b := (bs[0]?.getD 0).toNat
    t.regs.res0.toNat ≤ 0x7FFFFFFF ∧ s.regs.arg.toNat + t.regs.res1.toNat ≤ s.regs.srcLen.toNat
    ∧ (b < 128 → t.regs.res1 = 1 ∧ t.regs.res0.toNat = b)
    ∧ (128 ≤ b → 0x81 ≤ b ∧ b ≤ 0x84 ∧ t.regs.res1.toNat = 1 + (b - 0x80) ∧ t.regs.res0.toNat = bigEndianValue bs.tail)

/-- 40_tag_codec.md R129: ENCODE_TAG and then DECODE_TAG of the bytes written gives back the tag, with as many bytes consumed as
written, exactly when the tag is well-formed. The destination must be large enough and accessible. -/
def Obligations.TagRoundTripsExactlyWhenWellFormed : Prop :=
  ∀ s : State, s.mem.wf = true → 4 ≤ s.regs.dstCap.toNat → allowsRegion s.plat s.regs.dstAddr 4 →
    ∃ u t, run 6 (s.withCommand (encode .encodeTag)) = .next u
      ∧ run 6 (State.withCommand
          { u with regs := { u.regs with srcAddr := u.regs.dstAddr, srcLen := u.regs.res0, arg := 0 } }
          (encode .decodeTag)) = .next t
      ∧ ((u.regs.err = 0 ∧ t.regs.err = 0 ∧ t.regs.res0 = s.regs.arg ∧ t.regs.res1 = u.regs.res0)
          ↔ tagWf s.regs.arg = true)

/-- 41_length_codec.md R157: ENCODE_LENGTH and then DECODE_LENGTH of the bytes written gives back the length, with as many bytes
consumed as written, exactly for lengths 1 to 0x7FFFFFFF. The destination must be large enough and accessible. -/
def Obligations.LengthRoundTripsExactlyInRange : Prop :=
  ∀ s : State, s.mem.wf = true → 5 ≤ s.regs.dstCap.toNat → allowsRegion s.plat s.regs.dstAddr 5 →
    ∃ u t, run 7 (s.withCommand (encode .encodeLength)) = .next u
      ∧ run 6 (State.withCommand
          { u with regs := { u.regs with srcAddr := u.regs.dstAddr, srcLen := u.regs.res0, arg := 0 } }
          (encode .decodeLength)) = .next t
      ∧ ((u.regs.err = 0 ∧ t.regs.err = 0 ∧ t.regs.res0 = s.regs.arg ∧ t.regs.res1 = u.regs.res0)
          ↔ 1 ≤ s.regs.arg.toNat ∧ s.regs.arg.toNat ≤ 0x7FFFFFFF)

/-- 42_parse.md R184, R186: where PARSE ends with success it has consumed the buffer, with at most one token for every two bytes; where
it ends with NoMemory it has stored `TOK_N` tokens and bytes remain. -/
def Obligations.ParseEndsWhereItsResultsSay : Prop :=
  ∀ s t : State, run (8 * s.regs.srcLen.toNat + 5) (s.withCommand (encode .parse)) = .next t →
    (t.regs.err = 0 → t.regs.res1 = s.regs.srcLen)
    ∧ 2 * t.regs.res0.toNat ≤ s.regs.srcLen.toNat ∧ t.regs.res0 ≤ s.regs.tokN ∧ t.regs.res1 ≤ s.regs.srcLen
    ∧ (t.regs.err = 3 → t.regs.res0 = s.regs.tokN ∧ t.regs.res1 < s.regs.srcLen)

/-- 40_tag_codec.md R127, 43_serialize.md R215: the encoders and SERIALIZE write exactly within the `RES0` first bytes of the
destination, whatever they end with. -/
def Obligations.WritersTouchOnlyTheBytesTheyCount : Prop :=
  ∀ i ∈ [Instr.encodeTag, .encodeLength, .serialize], ∀ s t : State,
    run (stepBound i s.regs) (s.withCommand (encode i)) = .next t →
    t.regs.res0 ≤ s.regs.dstCap
    ∧ ∀ a : Word, t.regs.res0.toNat ≤ dist s.regs.dstAddr a → t.mem.read a.toNat = s.mem.read a.toNat

/-- 10_state.md R24: no result of one command depends on an earlier command: two machines with the same arguments, memory and platform
run a command alike, whatever else they held. -/
def Obligations.CommandsDoNotSeeEarlierOnes : Prop :=
  ∀ (i : Instr) (s s' : State) (n : Nat), SameArguments s.regs s'.regs → s.mem = s'.mem → s.plat = s'.plat →
    ∃ t t', run n (s.withCommand (encode i)) = .next t ∧ run n (s'.withCommand (encode i)) = .next t'
      ∧ t.visible = t'.visible ∧ t.eng = t'.eng

/-- 44_find.md R243: FIND returns the first match: it passes over tokens with other tags from offset 0 to `RES0`, where the token has
the target's tag, the length in `RES2` and the value address in `RES3`; and NotFound means that it passed over all. -/
def Obligations.FindReturnsTheFirstMatch : Prop :=
  ∀ s t : State, run (2 * s.regs.srcLen.toNat + 5) (s.withCommand (encode .find)) = .next t →
    (t.regs.err = 0 →
      Relation.ReflTransGen (SkipsToken s.plat s.visible) 0 t.regs.res0
      ∧ ∃ vs, tokenAt s.plat s.visible t.regs.res0 = .ok (s.regs.arg, t.regs.res2, vs)
        ∧ t.regs.res1 = s.regs.arg ∧ t.regs.res3 = s.regs.srcAddr + vs)
    ∧ (t.regs.err = 7 →
      ∃ o, s.regs.srcLen ≤ o ∧ Relation.ReflTransGen (SkipsToken s.plat s.visible) 0 o)

/-! ## Races -/

/-- 70_reset_and_hazards.md R303 item 1: a host write to a byte the running command may read makes every byte the command has written
or goes on to write, and at its end its results and `ERR`, free, `ERR` within 0 to 8; it still ends. How the model frees them is its
choice (log 6); the statement holds for every value. -/
def Obligations.RacedCommandsEndWithFreeResults : Prop :=
  (∀ (s : State) (a : Word) (v : Byte), s.regs.busy = true → inReadRegion s a = true →
    let t := hostMove (.memWrite a v) s
    t.env.raced = true ∧ t.regs = s.regs ∧ t.eng = s.eng
    ∧ (s.mem.wf = true → ∀ k, k < (writtenSoFar s).2 →
        ∃ j, j < (writtenSoFar s).2
          ∧ t.mem.read ((writtenSoFar s).1 + BitVec.ofNat 32 k).toNat = Config.freeByte (s.env.freeCtr + j)))
  ∧ (∀ (s t : State) (a : Word) (v : Byte), s.env.raced = true → s.mem.wf = true → memWrite a v s = some t →
    t.mem.read a.toNat = Config.freeByte s.env.freeCtr ∧ t.env.freeCtr = s.env.freeCtr + 1)
  ∧ ∀ (s : State) (e : Option Err), s.env.raced = true →
    let t := endCommand e s
    let n := s.env.freeCtr
    t.regs.busy = false ∧ t.regs.done = true ∧ t.eng.st = .idle ∧ t.mem = s.mem ∧ SameArguments t.regs s.regs
    ∧ t.regs.err = errCode (Config.freeErr n) ∧ t.regs.err ≤ 8#4
    ∧ t.regs.res0 = Config.freeWord n ∧ t.regs.res1 = Config.freeWord (n + 1)
    ∧ t.regs.res2 = Config.freeWord (n + 2) ∧ t.regs.res3 = Config.freeWord (n + 3)

/-- 70_reset_and_hazards.md R303 item 2: a byte both the host and the engine write while the command runs ends with one of the two
values. Which one is a free choice in the model (log 7); the statement holds for either. First: a host write to a byte the engine
has not written yet stores the host's byte and notes the address, and the engine's later write there leaves the host's or the
engine's byte. Second: a host write to a byte the engine has written leaves the host's byte or the one there. Third: an engine write
at a noted address leaves its byte or the one there. -/
def Obligations.ContestedBytesHaveOneOfTheTwoValues : Prop :=
  (∀ (s : State) (a : Word) (v : Byte), s.mem.wf = true → s.env.raced = false → s.regs.busy = true →
    inReadRegion s a = false → inWriteRegion s a = true →
    let t := hostMove (.memWrite a v) s
    ((writtenSoFar s).2 ≤ dist (writtenSoFar s).1 a →
      t.mem.read a.toNat = v ∧ t.env.contested = a.toNat :: s.env.contested
      ∧ ∀ (w : Byte) (u : State), memWrite a w t = some u → u.mem.read a.toNat = v ∨ u.mem.read a.toNat = w)
    ∧ (dist (writtenSoFar s).1 a < (writtenSoFar s).2 →
      (t.mem.read a.toNat = v ∨ t.mem.read a.toNat = s.mem.read a.toNat) ∧ t.env.contested = s.env.contested)
    ∧ (∀ b, b ≠ a.toNat → t.mem.read b = s.mem.read b) ∧ t.regs = s.regs ∧ t.eng = s.eng ∧ t.env.raced = false)
  ∧ ∀ (s t : State) (a : Word) (v : Byte), s.mem.wf = true → s.env.raced = false → a.toNat ∈ s.env.contested →
    memWrite a v s = some t → t.mem.read a.toNat = v ∨ t.mem.read a.toNat = s.mem.read a.toNat

/-- 70_reset_and_hazards.md R303 item 3: while a command that may write the byte runs, raced or not, the host reads the old byte or
the one the engine writes: the byte memory holds, the byte as it would stand without the command, or the byte the command leaves
there. Otherwise it reads the byte memory holds. Then, what the middle two are along a command the engine runs alone: memory as it
was at the command's start, and memory as it is at its end. Last, in a raced command the third is memory where the engine comes to
from here, along a path that the free values choose (item 1). The choices are free (log 6, log 8), and the statement holds for
each. -/
def Obligations.HostReadsTheOldOrTheEnginesByte : Prop :=
  (∀ (s : State) (a : Word),
    let t := hostMove (.memRead a) s
    t.regs = s.regs ∧ t.eng = s.eng ∧ t.mem = s.mem ∧ t.plat = s.plat
    ∧ ∃ b : Byte, t.env.seen = b.setWidth 32 :: s.env.seen
      ∧ ((s.regs.busy = false ∨ inWriteRegion s a = false) → b = s.mem.read a.toNat)
      ∧ (b = s.mem.read a.toNat ∨ b = s.env.before.read a.toNat ∨ b = (commandEnd s).mem.read a.toNat))
  ∧ (∀ (s t u : State) (w : Word) (m n : Nat), run m (s.withCommand w) = .next t → t.regs.busy = true →
      run n t = .next u → u.regs.busy = false → t.env.before = s.mem ∧ (commandEnd t).mem = u.mem)
  ∧ ∀ (s u : State) (n : Nat), s.env.raced = true → s.env.sched = [] → n ≤ commandBound s.regs →
      run n s = .next u → u.eng.st = .idle → (commandEnd s).mem = u.mem
end

