-- ==== Sys2Proof/Laws/Memory.lean ====
section
/-! SUPPORT. Memory: what a write does to a read, the canonical form, and that `MEM_OK` as data is any predicate. -/
namespace Sys2Proof.Laws
open Sys2Proof.Machine

@[simp] theorem read_nil (a : Nat) : Memory.read [] a = Memory.blank := rfl

theorem wfFrom_mono {m : Memory} {lo lo' : Nat} (h : lo' ≤ lo) (hm : Memory.wfFrom lo m = true) :
    Memory.wfFrom lo' m = true := by
  cases m with
  | nil => rfl
  | cons c m =>
    simp only [Memory.wfFrom, Bool.and_eq_true, decide_eq_true_eq] at hm ⊢
    exact ⟨⟨⟨by omega, hm.1.1.2⟩, hm.1.2⟩, hm.2⟩

/-- Below its first address a canonical memory reads blank. -/
theorem read_below {m : Memory} {lo a : Nat} (hm : Memory.wfFrom lo m = true) (h : a < lo) :
    Memory.read m a = Memory.blank := by
  induction m generalizing lo with
  | nil => rfl
  | cons c m ih =>
    simp only [Memory.wfFrom, Bool.and_eq_true, decide_eq_true_eq] at hm
    rw [Memory.read, if_neg (by omega)]
    exact ih hm.2 (by omega)

theorem read_write_from {m : Memory} {lo : Nat} (hm : Memory.wfFrom lo m = true) (a b : Nat) (v : Byte) :
    Memory.read (Memory.write m a v) b = if b = a then v else Memory.read m b := by
  induction m generalizing lo with
  | nil =>
    by_cases hv : v = Memory.blank <;> by_cases hb : b = a <;> simp [Memory.write, Memory.read, hv, hb]
  | cons c m ih =>
    obtain ⟨x, w⟩ := c
    simp only [Memory.wfFrom, Bool.and_eq_true, decide_eq_true_eq] at hm
    have low := fun y (hy : y < x + 1) => read_below hm.2 hy
    rw [Memory.write]
    split
    · rename_i hlt
      by_cases hv : v = Memory.blank
      · by_cases hb : b = a
        · subst hb
          rw [if_pos hv, if_pos rfl, hv, Memory.read, if_neg (by omega), low b (by omega)]
        · rw [if_pos hv, if_neg hb]
      · by_cases hb : b = a <;> simp [hv, hb, Memory.read]
    · split
      · rename_i heq
        subst heq
        by_cases hv : v = Memory.blank
        · by_cases hb : b = a
          · rw [if_pos hv, if_pos hb, hb, hv, low a (by omega)]
          · rw [if_pos hv, if_neg hb, Memory.read, if_neg hb]
        · by_cases hb : b = a <;> simp [hv, hb, Memory.read]
      · rename_i hlt hne
        by_cases hx : b = x
        · subst hx
          rw [Memory.read, if_pos rfl, if_neg (by omega), Memory.read, if_pos rfl]
        · rw [Memory.read, if_neg hx, ih hm.2, Memory.read, if_neg hx]

/-- What a canonical memory reads after a write: the byte written there, the old byte elsewhere (20_memory.md R60, R71). -/
theorem read_write {m : Memory} (hm : m.wf = true) (a b : Nat) (v : Byte) :
    Memory.read (m.write a v) b = if b = a then v else Memory.read m b := read_write_from hm a b v

theorem read_write_same {m : Memory} (hm : m.wf = true) (a : Nat) (v : Byte) : Memory.read (m.write a v) a = v := by
  rw [read_write hm, if_pos rfl]

/-- A write leaves every other address alone, in any memory. -/
theorem read_write_other (m : Memory) {a b : Nat} (h : b ≠ a) (v : Byte) :
    Memory.read (m.write a v) b = Memory.read m b := by
  induction m with
  | nil =>
    by_cases hv : v = Memory.blank <;> simp [Memory.write, Memory.read, hv, h]
  | cons c m ih =>
    obtain ⟨x, w⟩ := c
    rw [Memory.write]
    split
    · split
      · rfl
      · rw [Memory.read, if_neg h]
    · split
      · rename_i heq
        subst heq
        split
        · rw [Memory.read, if_neg h]
        · rw [Memory.read, if_neg h, Memory.read, if_neg h]
      · by_cases hx : b = x
        · simp [Memory.read, hx]
        · rw [Memory.read, if_neg hx, ih, Memory.read, if_neg hx]

theorem wfFrom_write {m : Memory} {lo a : Nat} (hm : Memory.wfFrom lo m = true) (hlo : lo ≤ a) (ha : a < 2 ^ 32) (v : Byte) :
    Memory.wfFrom lo (m.write a v) = true := by
  induction m generalizing lo with
  | nil =>
    by_cases hv : v = Memory.blank
    · simp [Memory.write, hv, Memory.wfFrom]
    · simpa [Memory.write, hv, Memory.wfFrom] using ⟨hlo, ha⟩
  | cons c m ih =>
    obtain ⟨x, w⟩ := c
    have hm' := hm
    simp only [Memory.wfFrom, Bool.and_eq_true, decide_eq_true_eq, bne_iff_ne] at hm
    obtain ⟨⟨⟨h1, h2⟩, h3⟩, h4⟩ := hm
    rw [Memory.write]
    split
    · split
      · exact hm'
      · rename_i hlt hv
        simp only [Memory.wfFrom, Bool.and_eq_true, decide_eq_true_eq, bne_iff_ne]
        exact ⟨⟨⟨hlo, ha⟩, hv⟩, ⟨⟨by omega, h2⟩, h3⟩, h4⟩
    · split
      · rename_i heq
        subst heq
        split
        · exact wfFrom_mono (by omega) h4
        · rename_i hv
          simp only [Memory.wfFrom, Bool.and_eq_true, decide_eq_true_eq, bne_iff_ne]
          exact ⟨⟨⟨hlo, ha⟩, hv⟩, h4⟩
      · simp only [Memory.wfFrom, Bool.and_eq_true, decide_eq_true_eq, bne_iff_ne]
        exact ⟨⟨⟨h1, h2⟩, h3⟩, ih h4 (by omega)⟩

/-- A write at an address of the space keeps the canonical form (20_memory.md R61). -/
theorem wf_write {m : Memory} (hm : m.wf = true) (a : Word) (v : Byte) : Memory.wf (m.write a.toNat v) = true :=
  wfFrom_write hm (Nat.zero_le _) a.isLt v

/-- Canonical memories that read alike are the same data. -/
theorem ext_from {m n : Memory} {lo : Nat} (hm : Memory.wfFrom lo m = true) (hn : Memory.wfFrom lo n = true)
    (h : ∀ a, Memory.read m a = Memory.read n a) : m = n := by
  induction m generalizing n lo with
  | nil =>
    cases n with
    | nil => rfl
    | cons c n =>
      obtain ⟨y, w⟩ := c
      have := h y
      simp only [Memory.wfFrom, Bool.and_eq_true, bne_iff_ne] at hn
      exact absurd (by simpa [Memory.read] using this.symm) hn.1.2
  | cons c m ih =>
    obtain ⟨x, v⟩ := c
    have hm0 := hm
    simp only [Memory.wfFrom, Bool.and_eq_true, decide_eq_true_eq, bne_iff_ne] at hm
    cases n with
    | nil => exact absurd (by simpa [Memory.read] using h x) hm.1.2
    | cons d n =>
      obtain ⟨y, w⟩ := d
      have hn0 := hn
      simp only [Memory.wfFrom, Bool.and_eq_true, decide_eq_true_eq, bne_iff_ne] at hn
      have hxy : x = y := by
        rcases Nat.lt_trichotomy x y with hlt | heq | hgt
        · have h1 := h x
          rw [Memory.read, if_pos rfl, Memory.read, if_neg (by omega), read_below hn.2 (by omega)] at h1
          exact absurd h1 hm.1.2
        · exact heq
        · have h1 := h y
          rw [Memory.read, if_neg (by omega), read_below hm.2 (by omega), Memory.read, if_pos rfl] at h1
          exact absurd h1.symm hn.1.2
      subst hxy
      have hvw : v = w := by simpa [Memory.read] using h x
      subst hvw
      congr 1
      refine ih hm.2 hn.2 fun a => ?_
      by_cases ha : a = x
      · rw [read_below hm.2 (by omega), read_below hn.2 (by omega)]
      · simpa [Memory.read, ha] using h a

theorem ext {m n : Memory} (hm : m.wf = true) (hn : n.wf = true) (h : ∀ a, Memory.read m a = Memory.read n a) : m = n :=
  ext_from hm hn h

/-- `MEM_OK` as a list of refused ranges is no restriction: every predicate is given by some list (00_scope.md R6, log 4). -/
theorem memOk_represents (ok : Word → Access → Bool) (base : Word) :
    ∃ p : Platform, p.blockBase = base ∧ ∀ a k, memOk p a k = ok a k := by
  let holesOf (k : Access) : List Hole :=
    ((List.range (2 ^ 32)).filter (fun n => !ok (BitVec.ofNat 32 n) k)).map
      (fun n => ⟨k, BitVec.ofNat 32 n, BitVec.ofNat 32 n⟩)
  have mem (k : Access) (h : Hole) : h ∈ holesOf k ↔ h.kind = k ∧ h.lo = h.hi ∧ ok h.lo k = false := by
    constructor
    · intro hh
      obtain ⟨n, hn, rfl⟩ := List.mem_map.1 hh
      exact ⟨rfl, rfl, by simpa using (List.mem_filter.1 hn).2⟩
    · rintro ⟨h1, h2, h3⟩
      refine List.mem_map.2 ⟨h.lo.toNat, List.mem_filter.2 ⟨List.mem_range.2 h.lo.isLt, by simp [h3]⟩, ?_⟩
      cases h
      simp_all
  refine ⟨⟨base, holesOf .read ++ holesOf .write⟩, rfl, fun a k => ?_⟩
  rw [Bool.eq_iff_iff]
  simp only [memOk, List.all_eq_true, List.mem_append, mem]
  constructor
  · intro h
    by_contra hk
    have hk' : ok a k = false := by simpa using hk
    have := h ⟨k, a, a⟩ (by cases k <;> simp [hk'])
    simp at this
  · rintro hk h (⟨h1, h2, h3⟩ | ⟨h1, h2, h3⟩) <;>
    · by_contra hc
      simp only [Bool.not_eq_true, Bool.not_eq_false', Bool.and_eq_true, decide_eq_true_eq] at hc
      obtain ⟨⟨e1, e2⟩, e3⟩ := hc
      have : h.lo = a := BitVec.le_antisymm e2 (h2 ▸ e3)
      rw [this, ← h1, e1, hk] at h3
      exact absurd h3 (by simp)

end Sys2Proof.Laws
end

