-- ==== Sys2Proof/Laws/State.lean ====
section
/-! SUPPORT. What each named update does to each part of the state, so that no proof unfolds a record update. -/
namespace Sys2Proof.Laws
open Sys2Proof.Machine

section
variable (s : State) (n : Nat) (w : Word) (l : List Turn) (e : Option Err)

@[simp] theorem skipFree_regs : (s.skipFree n).regs = s.regs := rfl
@[simp] theorem skipFree_eng : (s.skipFree n).eng = s.eng := rfl
@[simp] theorem skipFree_mem : (s.skipFree n).mem = s.mem := rfl
@[simp] theorem skipFree_plat : (s.skipFree n).plat = s.plat := rfl
@[simp] theorem skipFree_sched : (s.skipFree n).env.sched = s.env.sched := rfl
@[simp] theorem skipFree_seen : (s.skipFree n).env.seen = s.env.seen := rfl
@[simp] theorem skipFree_raced : (s.skipFree n).env.raced = s.env.raced := rfl
@[simp] theorem skipFree_contested : (s.skipFree n).env.contested = s.env.contested := rfl
@[simp] theorem skipFree_before : (s.skipFree n).env.before = s.env.before := rfl
@[simp] theorem skipFree_freeCtr : (s.skipFree n).env.freeCtr = s.env.freeCtr + n := rfl
theorem skipFree_zero : s.skipFree 0 = s := rfl

@[simp] theorem withSched_regs : (s.withSched l).regs = s.regs := rfl
@[simp] theorem withSched_eng : (s.withSched l).eng = s.eng := rfl
@[simp] theorem withSched_mem : (s.withSched l).mem = s.mem := rfl
@[simp] theorem withSched_plat : (s.withSched l).plat = s.plat := rfl
@[simp] theorem withSched_sched : (s.withSched l).env.sched = l := rfl
@[simp] theorem withSched_seen : (s.withSched l).env.seen = s.env.seen := rfl
@[simp] theorem withSched_raced : (s.withSched l).env.raced = s.env.raced := rfl
@[simp] theorem withSched_contested : (s.withSched l).env.contested = s.env.contested := rfl
@[simp] theorem withSched_before : (s.withSched l).env.before = s.env.before := rfl
@[simp] theorem withSched_freeCtr : (s.withSched l).env.freeCtr = s.env.freeCtr := rfl

@[simp] theorem note_regs : (s.note w).regs = s.regs := rfl
@[simp] theorem note_eng : (s.note w).eng = s.eng := rfl
@[simp] theorem note_mem : (s.note w).mem = s.mem := rfl
@[simp] theorem note_plat : (s.note w).plat = s.plat := rfl
@[simp] theorem note_sched : (s.note w).env.sched = s.env.sched := rfl
@[simp] theorem note_seen : (s.note w).env.seen = w :: s.env.seen := rfl
@[simp] theorem note_raced : (s.note w).env.raced = s.env.raced := rfl
@[simp] theorem note_contested : (s.note w).env.contested = s.env.contested := rfl
@[simp] theorem note_before : (s.note w).env.before = s.env.before := rfl
@[simp] theorem note_freeCtr : (s.note w).env.freeCtr = s.env.freeCtr := rfl

@[simp] theorem startCommand_regs : (startCommand w s).regs = s.regs.started (opField w) := rfl
@[simp] theorem startCommand_eng : (startCommand w s).eng = Engine.started := rfl
@[simp] theorem startCommand_mem : (startCommand w s).mem = s.mem := rfl
@[simp] theorem startCommand_plat : (startCommand w s).plat = s.plat := rfl
@[simp] theorem startCommand_sched : (startCommand w s).env.sched = s.env.sched := rfl
@[simp] theorem startCommand_seen : (startCommand w s).env.seen = s.env.seen := rfl
@[simp] theorem startCommand_raced : (startCommand w s).env.raced = false := rfl
@[simp] theorem startCommand_contested : (startCommand w s).env.contested = [] := rfl
@[simp] theorem startCommand_before : (startCommand w s).env.before = s.mem := rfl
@[simp] theorem startCommand_freeCtr : (startCommand w s).env.freeCtr = s.env.freeCtr := rfl

@[simp] theorem resetBlock_regs : (resetBlock s).regs = Regs.zero := rfl
@[simp] theorem resetBlock_eng : (resetBlock s).eng = Engine.zero := rfl
@[simp] theorem resetBlock_mem : (resetBlock s).mem = s.mem := rfl
@[simp] theorem resetBlock_plat : (resetBlock s).plat = s.plat := rfl
@[simp] theorem resetBlock_sched : (resetBlock s).env.sched = s.env.sched := rfl
@[simp] theorem resetBlock_raced : (resetBlock s).env.raced = false := rfl
@[simp] theorem resetBlock_before : (resetBlock s).env.before = s.env.before := rfl
@[simp] theorem resetBlock_contested : (resetBlock s).env.contested = [] := rfl

@[simp] theorem raceCommand_regs : (raceCommand s).regs = s.regs := rfl
@[simp] theorem raceCommand_eng : (raceCommand s).eng = s.eng := rfl
@[simp] theorem raceCommand_plat : (raceCommand s).plat = s.plat := rfl
@[simp] theorem raceCommand_sched : (raceCommand s).env.sched = s.env.sched := rfl
@[simp] theorem raceCommand_contested : (raceCommand s).env.contested = s.env.contested := rfl
@[simp] theorem raceCommand_before : (raceCommand s).env.before = s.env.before := rfl
@[simp] theorem raceCommand_seen : (raceCommand s).env.seen = s.env.seen := rfl
@[simp] theorem raceCommand_raced : (raceCommand s).env.raced = true := rfl

@[simp] theorem endCommand_eng : (endCommand e s).eng = { s.eng with st := .idle } := by
  unfold endCommand; split <;> rfl
@[simp] theorem endCommand_mem : (endCommand e s).mem = s.mem := by unfold endCommand; split <;> rfl
@[simp] theorem endCommand_plat : (endCommand e s).plat = s.plat := by unfold endCommand; split <;> rfl
@[simp] theorem endCommand_sched : (endCommand e s).env.sched = s.env.sched := by unfold endCommand; split <;> rfl
@[simp] theorem endCommand_seen : (endCommand e s).env.seen = s.env.seen := by unfold endCommand; split <;> rfl
@[simp] theorem endCommand_raced : (endCommand e s).env.raced = s.env.raced := by unfold endCommand; split <;> rfl
@[simp] theorem endCommand_contested : (endCommand e s).env.contested = s.env.contested := by
  unfold endCommand; split <;> rfl
@[simp] theorem endCommand_before : (endCommand e s).env.before = s.env.before := by unfold endCommand; split <;> rfl
@[simp] theorem endCommand_busy : (endCommand e s).regs.busy = false := by unfold endCommand; split <;> rfl
@[simp] theorem endCommand_done : (endCommand e s).regs.done = true := by unfold endCommand; split <;> rfl
@[simp] theorem endCommand_op : (endCommand e s).regs.op = s.regs.op := by unfold endCommand; split <;> rfl
@[simp] theorem endCommand_srcAddr : (endCommand e s).regs.srcAddr = s.regs.srcAddr := by
  unfold endCommand; split <;> rfl
@[simp] theorem endCommand_srcLen : (endCommand e s).regs.srcLen = s.regs.srcLen := by unfold endCommand; split <;> rfl
@[simp] theorem endCommand_dstAddr : (endCommand e s).regs.dstAddr = s.regs.dstAddr := by
  unfold endCommand; split <;> rfl
@[simp] theorem endCommand_dstCap : (endCommand e s).regs.dstCap = s.regs.dstCap := by unfold endCommand; split <;> rfl
@[simp] theorem endCommand_tokAddr : (endCommand e s).regs.tokAddr = s.regs.tokAddr := by
  unfold endCommand; split <;> rfl
@[simp] theorem endCommand_tokN : (endCommand e s).regs.tokN = s.regs.tokN := by unfold endCommand; split <;> rfl
@[simp] theorem endCommand_arg : (endCommand e s).regs.arg = s.regs.arg := by unfold endCommand; split <;> rfl

end

/-- The code of every error is 1 to 8 (60_exceptions.md R270, R281). -/
theorem errCode_le (e : Option Err) : errCode e ≤ 8#4 := by
  cases e with
  | none => decide
  | some e => cases e <;> decide

/-- Whatever a command ends with, `ERR` stays at most 8 (60_exceptions.md R281). -/
theorem endCommand_err_le (e : Option Err) (s : State) : (endCommand e s).regs.err ≤ 8#4 := by
  unfold endCommand; split <;> exact errCode_le _

/-- Without a race, a command's end changes `STATUS` and the FSM state alone (60_exceptions.md R271, R272). -/
theorem endCommand_quiet {s : State} (h : s.env.raced = false) (e : Option Err) :
    endCommand e s = { s with regs := s.regs.ended e, eng := { s.eng with st := .idle } } := by
  unfold endCommand; rw [h]; rfl

end Sys2Proof.Laws
end

