-- ==== Sys2Proof/Laws/Ops.lean ====
section
/-! SUPPORT. For each shared operation and each FSM state's action, one lemma that says once everything it can do. -/
namespace Sys2Proof.Laws
open Sys2Proof.Machine

/-- All a memory read can do (20_memory.md R60): the platform completes it, only the free-value index may move, and without a
race nothing moves and the byte is memory's. -/
theorem memRead_some {a : Word} {s t : State} {b : Byte} (h : memRead a s = some (b, t)) :
    memOk s.plat a .read = true ∧ ∃ n, t = s.skipFree n ∧ (s.env.raced = false → n = 0 ∧ b = s.mem.read a.toNat) := by
  unfold memRead at h
  split at h
  · rename_i hok
    split at h
    · rename_i hr
      cases h
      exact ⟨hok, 1, rfl, fun hn => absurd hr (by simp [hn])⟩
    · cases h
      exact ⟨hok, 0, rfl, fun _ => ⟨rfl, rfl⟩⟩
  · cases h

/-- A read fails exactly when the platform refuses it (20_memory.md R60). -/
theorem memRead_none {a : Word} {s : State} : memRead a s = none ↔ memOk s.plat a .read = false := by
  unfold memRead
  split
  · rename_i h
    simp only [h, Bool.true_eq_false, iff_false]
    split <;> simp
  · rename_i h
    simpa using h

/-- A read without a race. -/
theorem memRead_quiet {s : State} (h : s.env.raced = false) (a : Word) :
    memRead a s = if memOk s.plat a .read then some (s.mem.read a.toNat, s) else none := by
  unfold memRead
  simp [h]

/-- All a memory write can do (20_memory.md R60): one byte changes, the free-value index may move; without a race and away from
contested bytes the byte is the one written. -/
theorem memWrite_some {a : Word} {v : Byte} {s t : State} (h : memWrite a v s = some t) :
    memOk s.plat a .write = true ∧
      ∃ n b, t = State.skipFree n { s with mem := s.mem.write a.toNat b } ∧ b = storedByte a v s ∧
        (s.env.raced = false → s.env.contested = [] → n = 0 ∧ b = v) := by
  unfold memWrite at h
  split at h
  · rename_i hok
    cases h
    refine ⟨hok, if s.env.raced ∨ a.toNat ∈ s.env.contested then 1 else 0, storedByte a v s, ?_, rfl, fun hr hc => ?_⟩
    · unfold State.skipFree
      split <;> rfl
    · simp [hr, hc, storedByte]
  · cases h

/-- A write fails exactly when the platform refuses it (20_memory.md R60). -/
theorem memWrite_none {a : Word} {v : Byte} {s : State} : memWrite a v s = none ↔ memOk s.plat a .write = false := by
  unfold memWrite
  split
  · rename_i h
    simp [h]
  · rename_i h
    simpa using h

/-- A write without a race. -/
theorem memWrite_quiet {s : State} (h : s.env.raced = false) (hc : s.env.contested = []) (a : Word) (v : Byte) :
    memWrite a v s = if memOk s.plat a .write then some { s with mem := s.mem.write a.toNat v } else none := by
  obtain ⟨g, e, m, p, ⟨sc, sn, r, c, f⟩⟩ := s
  simp_all [memWrite, storedByte]

section actions
variable {s : State} (P : State → Prop) {complete : State → State}

/-- All TAG_FIRST can do (40_tag_codec.md R120). -/
theorem tagFirst_rule
    (hEnd : s.regs.srcLen ≤ s.eng.off → P (raiseErr .noData s))
    (hBus : s.eng.off < s.regs.srcLen → memOk s.plat (s.regs.srcAddr + s.eng.off) .read = false → P (raiseErr .busError s))
    (hShort : ∀ b t, s.eng.off < s.regs.srcLen → readSrc s.eng.off s = some (b, t) → low5 b ≠ 31#5 →
      P (complete { t with eng := { t.eng with off := t.eng.off + 1, acc := zext32 b } }))
    (hExt : ∀ b t, s.eng.off < s.regs.srcLen → readSrc s.eng.off s = some (b, t) → low5 b = 31#5 →
      P { t with eng := { t.eng with off := t.eng.off + 1, acc := zext32 b, first := true, st := .tagCont } }) :
    P (tagFirst complete s) := by
  unfold tagFirst
  split
  · exact hEnd ‹_›
  · have hlt := BitVec.not_le.1 ‹_›
    split
    · exact hBus hlt (memRead_none.1 ‹_›)
    · simp only []
      split
      · exact hShort _ _ hlt ‹_› ‹_›
      · rename_i h
        exact hExt _ _ hlt ‹_› (not_not.1 h)

/-- All TAG_CONT can do (40_tag_codec.md R121). -/
theorem tagCont_rule
    (hEnd : s.regs.srcLen ≤ s.eng.off → P (raiseErr .msgSize s))
    (hBus : s.eng.off < s.regs.srcLen → memOk s.plat (s.regs.srcAddr + s.eng.off) .read = false → P (raiseErr .busError s))
    (hErr : ∀ b t e, s.eng.off < s.regs.srcLen → readSrc s.eng.off s = some (b, t) →
      (e = .invalid ∧ s.eng.first = true ∧ b = 0x00#8 ∨
        e = .overflow ∧ ¬ (s.eng.first = true ∧ b = 0x00#8) ∧ byteOf s.eng.acc 3 ≠ 0x00#8) → P (raiseErr e t))
    (hMore : ∀ b t, s.eng.off < s.regs.srcLen → readSrc s.eng.off s = some (b, t) →
      ¬ (s.eng.first = true ∧ b = 0x00#8) → byteOf s.eng.acc 3 = 0x00#8 → bit7 b = true →
      P { t with eng := { t.eng with acc := shiftIn t.eng.acc b, off := t.eng.off + 1, first := false } })
    (hLast : ∀ b t, s.eng.off < s.regs.srcLen → readSrc s.eng.off s = some (b, t) →
      ¬ (s.eng.first = true ∧ b = 0x00#8) → byteOf s.eng.acc 3 = 0x00#8 → bit7 b = false →
      P (complete { t with eng := { t.eng with acc := shiftIn t.eng.acc b, off := t.eng.off + 1, first := false } })) :
    P (tagCont complete s) := by
  unfold tagCont
  split
  · exact hEnd ‹_›
  · have hlt := BitVec.not_le.1 ‹_›
    split
    · exact hBus hlt (memRead_none.1 ‹_›)
    · rename_i b t hr
      have he : t.eng = s.eng := by
        obtain ⟨-, n, rfl, -⟩ := memRead_some hr
        rfl
      rw [he]
      split
      · rename_i h
        exact hErr _ _ _ hlt hr (.inl ⟨rfl, h⟩)
      · rename_i h1
        split
        · rename_i h2
          exact hErr _ _ _ hlt hr (.inr ⟨rfl, h1, h2⟩)
        · rename_i h2
          simp only []
          split
          · have := hMore _ _ hlt hr h1 (not_not.1 h2) ‹_›
            rwa [he] at this
          · rename_i h3
            have := hLast _ _ hlt hr h1 (not_not.1 h2) (by simpa using h3)
            rwa [he] at this

/-- All ENC_TAG can do (40_tag_codec.md R125). -/
theorem encTag_rule
    (hBad : tagBytes s.eng.ctag = none → P (raiseErr .invalid s))
    (hLoad : ∀ bs, tagBytes s.eng.ctag = some bs →
      P { s with eng := { s.eng with
        ebuf := loadEbuf bs s.eng.ebuf, en := BitVec.ofNat 3 bs.length, ei := 0, fld := .tag, st := .emit } }) :
    P (encTag s) := by
  unfold encTag
  split
  · exact hBad ‹_›
  · exact hLoad _ ‹_›

/-- All LEN_FIRST can do (41_length_codec.md R150). -/
theorem lenFirst_rule
    (hEnd : s.regs.srcLen ≤ s.eng.off → P (raiseErr .noData s))
    (hBus : s.eng.off < s.regs.srcLen → memOk s.plat (s.regs.srcAddr + s.eng.off) .read = false → P (raiseErr .busError s))
    (hShort : ∀ b t, s.eng.off < s.regs.srcLen → readSrc s.eng.off s = some (b, t) → bit7 b = false →
      P (complete { t with eng := { t.eng with acc := zext32 b, off := t.eng.off + 1 } }))
    (hErr : ∀ b t e, s.eng.off < s.regs.srcLen → readSrc s.eng.off s = some (b, t) → bit7 b = true →
      (e = .invalid ∧ (b = 0xFF#8 ∨ low7 b = 0#7) ∨ e = .overflow ∧ b ≠ 0xFF#8 ∧ 4#7 < low7 b) → P (raiseErr e t))
    (hLong : ∀ b t, s.eng.off < s.regs.srcLen → readSrc s.eng.off s = some (b, t) → bit7 b = true →
      low7 b ≤ 4#7 → low7 b ≠ 0#7 →
      P { t with eng := { t.eng with
        nrem := (low7 b).setWidth 3, acc := 0, first := true, off := t.eng.off + 1, st := .lenBytes } }) :
    P (lenFirst complete s) := by
  unfold lenFirst
  split
  · exact hEnd ‹_›
  · have hlt := BitVec.not_le.1 ‹_›
    split
    · exact hBus hlt (memRead_none.1 ‹_›)
    · rename_i b t hr
      split
      · exact hShort _ _ hlt hr ‹_›
      · have h7 : bit7 b = true := by simpa using ‹¬ bit7 b = false›
        split
        · exact hErr _ _ _ hlt hr h7 (.inl ⟨rfl, .inl ‹_›⟩)
        · split
          · exact hErr _ _ _ hlt hr h7 (.inr ⟨rfl, ‹_›, ‹_›⟩)
          · rename_i h4
            split
            · exact hErr _ _ _ hlt hr h7 (.inl ⟨rfl, .inr ‹_›⟩)
            · exact hLong _ _ hlt hr h7 (BitVec.not_lt.1 h4) ‹_›

/-- All LEN_BYTES can do (41_length_codec.md R151). -/
theorem lenBytes_rule
    (hEnd : s.regs.srcLen ≤ s.eng.off → P (raiseErr .msgSize s))
    (hBus : s.eng.off < s.regs.srcLen → memOk s.plat (s.regs.srcAddr + s.eng.off) .read = false → P (raiseErr .busError s))
    (hErr : ∀ b t, s.eng.off < s.regs.srcLen → readSrc s.eng.off s = some (b, t) →
      s.eng.first = true ∧ s.eng.nrem = 4#3 ∧ bit7 b = true → P (raiseErr .overflow t))
    (hMore : ∀ b t, s.eng.off < s.regs.srcLen → readSrc s.eng.off s = some (b, t) →
      ¬ (s.eng.first = true ∧ s.eng.nrem = 4#3 ∧ bit7 b = true) → s.eng.nrem - 1 ≠ 0#3 →
      P { t with eng := { t.eng with
        acc := shiftIn t.eng.acc b, off := t.eng.off + 1, first := false, nrem := t.eng.nrem - 1 } })
    (hLast : ∀ b t, s.eng.off < s.regs.srcLen → readSrc s.eng.off s = some (b, t) →
      ¬ (s.eng.first = true ∧ s.eng.nrem = 4#3 ∧ bit7 b = true) → s.eng.nrem - 1 = 0#3 →
      P (complete { t with eng := { t.eng with
        acc := shiftIn t.eng.acc b, off := t.eng.off + 1, first := false, nrem := t.eng.nrem - 1 } })) :
    P (lenBytes complete s) := by
  unfold lenBytes
  split
  · exact hEnd ‹_›
  · have hlt := BitVec.not_le.1 ‹_›
    split
    · exact hBus hlt (memRead_none.1 ‹_›)
    · rename_i b t hr
      have he : t.eng = s.eng := by
        obtain ⟨-, n, rfl, -⟩ := memRead_some hr
        rfl
      rw [he]
      split
      · exact hErr _ _ hlt hr ‹_›
      · simp only []
        split
        · have := hLast _ _ hlt hr ‹_› ‹_›
          rwa [he] at this
        · have := hMore _ _ hlt hr ‹_› ‹_›
          rwa [he] at this

/-- All ENC_LEN can do (41_length_codec.md R155): its `n > 126` test never holds, a word having at most 4 bytes. -/
theorem encLen_rule
    (hZero : s.eng.clen = 0#32 → P (raiseErr .badArgument s))
    (hLoad : s.eng.clen ≠ 0#32 →
      P { s with eng := { s.eng with
        ebuf := loadEbuf (lengthBytes s.eng.clen) s.eng.ebuf
        en := BitVec.ofNat 3 (lengthBytes s.eng.clen).length, ei := 0, fld := .len, st := .emit } }) :
    P (encLen s) := by
  have h4 : ¬ 126 < sigbytes s.eng.clen := by
    unfold sigbytes
    split
    · decide
    · split
      · decide
      · split <;> decide
  unfold encLen
  split
  · exact hZero ‹_›
  · rw [if_neg (fun h => h4 h.2)]
    exact hLoad ‹_›

/-- All EMIT can do (40_tag_codec.md R127): its `Overflow` test never holds, since `wcnt < DST_CAP`. -/
theorem emit_rule (Q : Out → Prop) {fieldDone : State → State}
    (hFull : s.regs.dstCap ≤ s.eng.wcnt → Q (.next (raiseErr .noMemory s)))
    (hStuck : s.eng.wcnt < s.regs.dstCap → s.eng.ebuf[s.eng.ei.toNat]? = none → Q (.fault .noRule))
    (hBus : s.eng.wcnt < s.regs.dstCap → memOk s.plat (s.regs.dstAddr + s.eng.wcnt) .write = false →
      Q (.next (raiseErr .busError s)))
    (hMore : ∀ b t, s.eng.wcnt < s.regs.dstCap → s.eng.ebuf[s.eng.ei.toNat]? = some b →
      memWrite (s.regs.dstAddr + s.eng.wcnt) b s = some t → s.eng.ei + 1 ≠ s.eng.en →
      Q (.next { t with
        eng := { t.eng with wcnt := t.eng.wcnt + 1, ei := t.eng.ei + 1 }
        regs := { t.regs with res0 := t.eng.wcnt + 1 } }))
    (hLast : ∀ b t, s.eng.wcnt < s.regs.dstCap → s.eng.ebuf[s.eng.ei.toNat]? = some b →
      memWrite (s.regs.dstAddr + s.eng.wcnt) b s = some t → s.eng.ei + 1 = s.eng.en →
      Q (.next (fieldDone { t with
        eng := { t.eng with wcnt := t.eng.wcnt + 1, ei := t.eng.ei + 1 }
        regs := { t.regs with res0 := t.eng.wcnt + 1 } }))) :
    Q (emit fieldDone s) := by
  unfold emit
  split
  · exact hFull ‹_›
  · have hlt := BitVec.not_le.1 ‹_›
    rw [if_neg (fun h => by rw [h] at hlt; bv_omega)]
    split
    · exact hStuck hlt ‹_›
    · split
      · exact hBus hlt (memWrite_none.1 ‹_›)
      · rename_i b hb _ t hw
        have he : t.eng = s.eng := by
          obtain ⟨-, n, b, rfl, -⟩ := memWrite_some hw
          rfl
        simp only []
        split
        · rename_i h
          rw [he] at h
          exact hLast b t hlt hb hw h
        · rename_i h
          rw [he] at h
          exact hMore b t hlt hb hw h

/-- All TOK_START of PARSE can do (42_parse.md R180). -/
theorem parseTokStart_rule
    (hDone : s.regs.srcLen ≤ s.eng.off → P (finish s))
    (hFull : s.eng.off < s.regs.srcLen → s.regs.tokN ≤ s.eng.cnt → P (raiseErr .noMemory s))
    (hGo : s.eng.off < s.regs.srcLen → s.eng.cnt < s.regs.tokN →
      P { s with eng := { s.eng with tstart := s.eng.off, st := .tagFirst } }) :
    P (parseTokStart s) := by
  unfold parseTokStart
  split
  · exact hDone ‹_›
  · have hlt := BitVec.not_le.1 ‹_›
    split
    · exact hFull hlt ‹_›
    · exact hGo hlt (BitVec.not_le.1 ‹_›)

/-- All TOK_END of PARSE can do (42_parse.md R181). -/
theorem parseTokEnd_rule
    (hOver : s.regs.srcLen.toNat < s.eng.vstart.toNat + s.eng.clen.toNat → P (raiseErr .msgSize s))
    (hGo : s.eng.vstart.toNat + s.eng.clen.toNat ≤ s.regs.srcLen.toNat →
      P { s with eng := { s.eng with
        recBuf := recordBytes s.eng.ctag s.eng.clen (s.regs.srcAddr + s.eng.vstart), k := 0, st := .recWrite } }) :
    P (parseTokEnd s) := by
  unfold parseTokEnd valueOverruns
  split
  · rename_i h
    exact hOver (of_decide_eq_true h)
  · rename_i h
    exact hGo (Nat.not_lt.1 (of_decide_eq_false (by simpa using h)))

/-- All REC_WRITE can do (42_parse.md R182). -/
theorem recWrite_rule (Q : Out → Prop)
    (hStuck : 12#4 ≤ s.eng.k → Q (.fault .noRule))
    (hBus : memOk s.plat (tokByteAddr s.regs.tokAddr s.eng.cnt (s.eng.k.setWidth 32)) .write = false →
      Q (.next (raiseErr .busError s)))
    (hMore : ∀ b t, s.eng.recBuf[s.eng.k.toNat]? = some b →
      memWrite (tokByteAddr s.regs.tokAddr s.eng.cnt (s.eng.k.setWidth 32)) b s = some t → s.eng.k + 1 ≠ 12#4 →
      Q (.next { t with eng := { t.eng with k := t.eng.k + 1 } }))
    (hLast : ∀ b t, s.eng.recBuf[s.eng.k.toNat]? = some b →
      memWrite (tokByteAddr s.regs.tokAddr s.eng.cnt (s.eng.k.setWidth 32)) b s = some t → s.eng.k + 1 = 12#4 →
      Q (.next { t with
        eng := { t.eng with
          k := t.eng.k + 1, cnt := t.eng.cnt + 1, off := t.eng.vstart + t.eng.clen, st := .tokStart }
        regs := { t.regs with res0 := t.eng.cnt + 1, res1 := t.eng.vstart + t.eng.clen } })) :
    Q (recWrite s) := by
  unfold recWrite
  split
  · rename_i h
    have := Vector.getElem?_eq_none_iff.1 h
    exact hStuck (by bv_omega)
  · split
    · exact hBus (memWrite_none.1 ‹_›)
    · rename_i b hb _ t hw
      have he : t.eng = s.eng := by
        obtain ⟨-, n, b, rfl, -⟩ := memWrite_some hw
        rfl
      simp only []
      split
      · rename_i h
        rw [he] at h
        exact hLast b t hb hw h
      · rename_i h
        rw [he] at h
        exact hMore b t hb hw h

/-- All TOK_START of SERIALIZE can do (43_serialize.md R210). -/
theorem serializeTokStart_rule
    (hDone : s.regs.tokN ≤ s.eng.cnt → P (finish s))
    (hGo : s.eng.cnt < s.regs.tokN → P { s with eng := { s.eng with k := 0, st := .recRead } }) :
    P (serializeTokStart s) := by
  unfold serializeTokStart
  split
  · exact hDone ‹_›
  · exact hGo (BitVec.not_le.1 ‹_›)

/-- All REC_READ can do (43_serialize.md R211). -/
theorem recRead_rule (Q : Out → Prop)
    (hStuck : 12#4 ≤ s.eng.k → Q (.fault .noRule))
    (hBus : memOk s.plat (tokByteAddr s.regs.tokAddr s.eng.cnt (s.eng.k.setWidth 32)) .read = false →
      Q (.next (raiseErr .busError s)))
    (hMore : ∀ b t (h : s.eng.k.toNat < 12),
      memRead (tokByteAddr s.regs.tokAddr s.eng.cnt (s.eng.k.setWidth 32)) s = some (b, t) → s.eng.k + 1 ≠ 12#4 →
      Q (.next { t with eng := { t.eng with recBuf := s.eng.recBuf.set s.eng.k.toNat b h, k := s.eng.k + 1 } }))
    (hLast : ∀ b t (h : s.eng.k.toNat < 12),
      memRead (tokByteAddr s.regs.tokAddr s.eng.cnt (s.eng.k.setWidth 32)) s = some (b, t) → s.eng.k + 1 = 12#4 →
      Q (.next { t with eng := { t.eng with
        recBuf := s.eng.recBuf.set s.eng.k.toNat b h, k := s.eng.k + 1
        ctag := recTag (s.eng.recBuf.set s.eng.k.toNat b h), clen := recLen (s.eng.recBuf.set s.eng.k.toNat b h)
        vaddr := recAddr (s.eng.recBuf.set s.eng.k.toNat b h), st := .encTag } })) :
    Q (recRead s) := by
  unfold recRead
  split
  · rename_i h
    split
    · exact hBus (memRead_none.1 ‹_›)
    · rename_i b t hr
      simp only []
      split
      · exact hLast b t h hr ‹_›
      · exact hMore b t h hr ‹_›
  · rename_i h
    exact hStuck (by bv_omega)

/-- All VAL_COPY can do (43_serialize.md R213): its `Overflow` test never holds, since `wcnt < DST_CAP`. -/
theorem valCopy_rule
    (hFull : s.regs.dstCap ≤ s.eng.wcnt → P (raiseErr .noMemory s))
    (hBusR : s.eng.wcnt < s.regs.dstCap → memOk s.plat (s.eng.vaddr + s.eng.j) .read = false → P (raiseErr .busError s))
    (hBusW : ∀ b t, s.eng.wcnt < s.regs.dstCap → memRead (s.eng.vaddr + s.eng.j) s = some (b, t) →
      memOk s.plat (s.regs.dstAddr + s.eng.wcnt) .write = false → P (raiseErr .busError t))
    (hMore : ∀ b t u, s.eng.wcnt < s.regs.dstCap → memRead (s.eng.vaddr + s.eng.j) s = some (b, t) →
      memWrite (s.regs.dstAddr + s.eng.wcnt) b t = some u → s.eng.j + 1 ≠ s.eng.clen →
      P { u with
        eng := { u.eng with wcnt := u.eng.wcnt + 1, j := u.eng.j + 1 }
        regs := { u.regs with res0 := u.eng.wcnt + 1 } })
    (hLast : ∀ b t u, s.eng.wcnt < s.regs.dstCap → memRead (s.eng.vaddr + s.eng.j) s = some (b, t) →
      memWrite (s.regs.dstAddr + s.eng.wcnt) b t = some u → s.eng.j + 1 = s.eng.clen →
      P { u with
        eng := { u.eng with wcnt := u.eng.wcnt + 1, j := u.eng.j + 1, cnt := u.eng.cnt + 1, st := .tokStart }
        regs := { u.regs with res0 := u.eng.wcnt + 1, res1 := u.eng.cnt + 1 } }) :
    P (valCopy s) := by
  unfold valCopy
  split
  · exact hFull ‹_›
  · have hlt := BitVec.not_le.1 ‹_›
    rw [if_neg (fun h => by rw [h] at hlt; bv_omega)]
    split
    · exact hBusR hlt (memRead_none.1 ‹_›)
    · rename_i b t hr
      obtain ⟨-, n, rfl, -⟩ := memRead_some hr
      simp only [skipFree_regs, skipFree_eng]
      split
      · rename_i h
        have hw := memWrite_none.1 h
        exact hBusW b _ hlt hr hw
      · rename_i u hw
        have he : u.eng = s.eng := by
          obtain ⟨-, n, b, rfl, -⟩ := memWrite_some hw
          rfl
        split
        · rename_i h
          rw [he] at h
          exact hLast b _ u hlt hr hw h
        · rename_i h
          rw [he] at h
          exact hMore b _ u hlt hr hw h

/-- All TOK_START of FIND can do (44_find.md R240). -/
theorem findTokStart_rule
    (hEnd : s.regs.srcLen ≤ s.eng.off → P (raiseErr .notFound s))
    (hGo : s.eng.off < s.regs.srcLen → P { s with eng := { s.eng with tstart := s.eng.off, st := .tagFirst } }) :
    P (findTokStart s) := by
  unfold findTokStart
  split
  · exact hEnd ‹_›
  · exact hGo (BitVec.not_le.1 ‹_›)

/-- All TOK_END of FIND can do (44_find.md R241). -/
theorem findTokEnd_rule
    (hOver : s.regs.srcLen.toNat < s.eng.vstart.toNat + s.eng.clen.toNat → P (raiseErr .msgSize s))
    (hHit : s.eng.vstart.toNat + s.eng.clen.toNat ≤ s.regs.srcLen.toNat → s.eng.ctag = s.regs.arg →
      P (finish { s with regs := { s.regs with
        res0 := s.eng.tstart, res1 := s.eng.ctag, res2 := s.eng.clen, res3 := s.regs.srcAddr + s.eng.vstart } }))
    (hSkip : s.eng.vstart.toNat + s.eng.clen.toNat ≤ s.regs.srcLen.toNat → s.eng.ctag ≠ s.regs.arg →
      P { s with eng := { s.eng with off := s.eng.vstart + s.eng.clen, st := .tokStart } }) :
    P (findTokEnd s) := by
  unfold findTokEnd valueOverruns
  split
  · rename_i h
    exact hOver (of_decide_eq_true h)
  · rename_i h
    have hle := Nat.not_lt.1 (of_decide_eq_false (by simpa using h))
    split
    · exact hHit hle ‹_›
    · exact hSkip hle ‹_›

end actions

end Sys2Proof.Laws
end

