-- ==== Sys2Proof/Laws/Host.lean ====
section
/-! SUPPORT. What the host's memory accesses can do, and the run of the engine that they look at. -/
namespace Sys2Proof.Laws
open Sys2Proof.Machine

/-- Free bytes keep the canonical form of memory (20_memory.md R61). -/
theorem wf_freeBytes {m : Memory} (hm : m.wf = true) (n : Nat) (base : Word) (c : Nat) :
    Memory.wf (freeBytes n base c m) = true := by
  induction n generalizing m with
  | zero => exact hm
  | succ n ih => exact ih (wf_write hm _ _)

/-- Everything a host write of a byte can do to the running command: open a race (70_reset_and_hazards.md R303 item 1), note a
byte the engine has not written yet (item 2), or store one byte, the host's or, while the command may write it, the one there. -/
theorem hostStore_cases (a : Word) (v : Byte) (s : State) :
    (s.regs.busy = true ∧ hostStore a v s = raceCommand { s with mem := s.mem.write a.toNat v })
      ∨ (s.regs.busy = true ∧ hostStore a v s =
          { s with mem := s.mem.write a.toNat v, env := { s.env with contested := a.toNat :: s.env.contested } })
      ∨ ∃ b n, (b = v ∨ s.regs.busy = true ∧ b = s.mem.read a.toNat) ∧ hostStore a v s =
          { s with mem := s.mem.write a.toNat b, env := { s.env with freeCtr := s.env.freeCtr + n } } := by
  unfold hostStore
  split
  · exact .inl ⟨‹_ ∧ _›.1, rfl⟩
  · split
    · split
      · refine .inr (.inr ⟨_, 1, ?_, rfl⟩)
        split
        · exact .inl rfl
        · exact .inr ⟨‹_ ∧ _›.1, rfl⟩
      · exact .inr (.inl ⟨‹_ ∧ _›.1, rfl⟩)
    · exact .inr (.inr ⟨v, 0, .inl rfl, rfl⟩)

section
variable (a : Word) (v : Byte) (s : State)

@[simp] theorem hostStore_regs : (hostStore a v s).regs = s.regs := by
  rcases hostStore_cases a v s with ⟨-, h⟩ | ⟨-, h⟩ | ⟨_, _, -, h⟩ <;> simp [h]
@[simp] theorem hostStore_eng : (hostStore a v s).eng = s.eng := by
  rcases hostStore_cases a v s with ⟨-, h⟩ | ⟨-, h⟩ | ⟨_, _, -, h⟩ <;> simp [h]
@[simp] theorem hostStore_plat : (hostStore a v s).plat = s.plat := by
  rcases hostStore_cases a v s with ⟨-, h⟩ | ⟨-, h⟩ | ⟨_, _, -, h⟩ <;> simp [h]
@[simp] theorem hostStore_sched : (hostStore a v s).env.sched = s.env.sched := by
  rcases hostStore_cases a v s with ⟨-, h⟩ | ⟨-, h⟩ | ⟨_, _, -, h⟩ <;> simp [h]
@[simp] theorem hostStore_seen : (hostStore a v s).env.seen = s.env.seen := by
  rcases hostStore_cases a v s with ⟨-, h⟩ | ⟨-, h⟩ | ⟨_, _, -, h⟩ <;> simp [h]

@[simp] theorem hostMemWrite_regs : (hostMemWrite a v s).regs = s.regs := hostStore_regs a v s
@[simp] theorem hostMemWrite_eng : (hostMemWrite a v s).eng = s.eng := hostStore_eng a v s
@[simp] theorem hostMemWrite_plat : (hostMemWrite a v s).plat = s.plat := hostStore_plat a v s
@[simp] theorem hostMemWrite_mem : (hostMemWrite a v s).mem = (hostStore a v s).mem := rfl
@[simp] theorem hostMemWrite_sched : (hostMemWrite a v s).env.sched = s.env.sched := hostStore_sched a v s
@[simp] theorem hostMemWrite_seen : (hostMemWrite a v s).env.seen = s.env.seen := hostStore_seen a v s
@[simp] theorem hostMemWrite_raced : (hostMemWrite a v s).env.raced = (hostStore a v s).env.raced := rfl
@[simp] theorem hostMemWrite_contested : (hostMemWrite a v s).env.contested = (hostStore a v s).env.contested := rfl
@[simp] theorem hostMemWrite_freeCtr : (hostMemWrite a v s).env.freeCtr = (hostStore a v s).env.freeCtr := rfl
@[simp] theorem hostMemWrite_before : (hostMemWrite a v s).env.before = s.env.before.write a.toNat v := rfl

end

/-- A host write keeps the canonical form of memory, and of memory as it would stand without the running command (log 8). -/
theorem wf_hostMemWrite {s : State} (hm : s.mem.wf = true) (hb : s.env.before.wf = true) (a : Word) (v : Byte) :
    (hostMemWrite a v s).mem.wf = true ∧ (hostMemWrite a v s).env.before.wf = true := by
  refine ⟨?_, wf_write hb a v⟩
  rw [hostMemWrite_mem]
  rcases hostStore_cases a v s with ⟨-, h⟩ | ⟨-, h⟩ | ⟨_, _, -, h⟩ <;> rw [h]
  · exact wf_freeBytes (wf_write hm _ _) _ _ _
  · exact wf_write hm _ _
  · exact wf_write hm _ _

@[simp] theorem engineRun_zero (s : State) : engineRun 0 s = s := rfl

/-- An idle engine runs no further. -/
theorem engineRun_idle {s : State} (h : s.eng.st = .idle) (n : Nat) : engineRun n s = s := by
  cases n with
  | zero => rfl
  | succ n => exact if_pos h

/-- One step of a running engine, then the rest. -/
theorem engineRun_next {s t : State} (hi : s.eng.st ≠ .idle) (h : engineStep s = .next t) (n : Nat) :
    engineRun (n + 1) s = engineRun n t := by
  rw [engineRun, if_neg hi, h]

@[simp] theorem commandStart_mem (s : State) : (commandStart s).mem = s.env.before := rfl
@[simp] theorem commandStart_eng (s : State) : (commandStart s).eng = Engine.started := rfl
@[simp] theorem commandStart_plat (s : State) : (commandStart s).plat = s.plat := rfl
@[simp] theorem commandStart_raced (s : State) : (commandStart s).env.raced = false := rfl
@[simp] theorem commandStart_contested (s : State) : (commandStart s).env.contested = [] := rfl
/-- Without a race, the command's end is that of the whole command from its start. -/
theorem commandEnd_quiet {s : State} (h : s.env.raced = false) :
    commandEnd s = engineRun (commandBound s.regs) (commandStart s) := by
  rw [commandEnd, h]; rfl

/-- In a raced command, it is where the engine comes to from here. -/
theorem commandEnd_raced {s : State} (h : s.env.raced = true) : commandEnd s = engineRun (commandBound s.regs) s := by
  rw [commandEnd, h]; rfl

/-- Everything a host read of a byte can return. -/
theorem hostMemRead_cases (a : Word) (s : State) :
    hostMemRead a s = s.mem.read a.toNat
      ∨ (s.regs.busy = true ∧ inWriteRegion s a = true
        ∧ (hostMemRead a s = s.env.before.read a.toNat ∨ hostMemRead a s = (commandEnd s).mem.read a.toNat)) := by
  unfold hostMemRead
  split
  · split
    · exact .inl rfl
    · split
      · exact .inr ⟨‹_ ∧ _›.1, ‹_ ∧ _›.2, .inl rfl⟩
      · exact .inr ⟨‹_ ∧ _›.1, ‹_ ∧ _›.2, .inr rfl⟩
  · exact .inl rfl

@[simp] theorem commandStart_before (s : State) : (commandStart s).env.before = s.env.before := rfl

end Sys2Proof.Laws
end

