-- ==== Sys2Proof/Laws/Operands.lean ====
section
/-! SUPPORT. The sizes of wire fields and of the emitter's buffer. -/
namespace Sys2Proof.Laws
open Sys2Proof.Machine

/-- A word has 1 to 4 significant bytes (40_tag_codec.md R126). -/
theorem sigbytes_range (v : Word) : 1 ≤ sigbytes v ∧ sigbytes v ≤ 4 := by
  unfold sigbytes
  split
  · decide
  · split
    · decide
    · split <;> decide

@[simp] theorem bigEndian_length (n : Nat) (v : Word) : (bigEndian n v).length = n := by
  induction n with
  | zero => rfl
  | succ n ih => simp [bigEndian, ih]

/-- A tag's field has 1 to 4 bytes (40_tag_codec.md R125). -/
theorem tagBytes_length {t : Word} {bs : List Byte} (h : tagBytes t = some bs) : 1 ≤ bs.length ∧ bs.length ≤ 4 := by
  unfold tagBytes at h
  split at h
  · cases h; simp
  · split at h
    · cases h
    · cases h
      simpa using sigbytes_range t

/-- A length's field has 1 to 5 bytes (41_length_codec.md R155). -/
theorem lengthBytes_length (l : Word) : 1 ≤ (lengthBytes l).length ∧ (lengthBytes l).length ≤ 5 := by
  unfold lengthBytes
  split
  · simp
  · have := sigbytes_range l
    simp only [List.length_cons, bigEndian_length]
    omega

/-- A field's bytes stand in the emitter's buffer from `ebuf[0]` on (40_tag_codec.md R125, 41_length_codec.md R155). -/
theorem loadEbuf_get {bs : List Byte} {e : Vector Byte 5} {i : Nat} (h : i < bs.length) (h5 : i < 5) :
    (loadEbuf bs e)[i]? = some bs[i] := by
  match i, h5 with
  | 0, _ => simp [loadEbuf, h]
  | 1, _ => simp [loadEbuf, h]
  | 2, _ => simp [loadEbuf, h]
  | 3, _ => simp [loadEbuf, h]
  | 4, _ => simp [loadEbuf, h]

end Sys2Proof.Laws
end

