-- ==== Sys2Proof/Laws/PerInstr.lean ====
section
/-! SUPPORT. Per command: its opcode row (30_encoding.md R90, R91). -/
namespace Sys2Proof.Laws

/-- The command is well-formed, and its command word decodes to it, as a word and as a table entry (30_encoding.md R91). -/
def OpcodeRow.Statement (i : Instr) : Prop :=
  i.wf = true ∧ decode (encode i) = .ok i ∧ decodeTableWord 32 (encode i).toNat = some i

theorem OpcodeRow.decodeTag : OpcodeRow.Statement .decodeTag := ⟨rfl, rfl, rfl⟩
theorem OpcodeRow.encodeTag : OpcodeRow.Statement .encodeTag := ⟨rfl, rfl, rfl⟩
theorem OpcodeRow.decodeLength : OpcodeRow.Statement .decodeLength := ⟨rfl, rfl, rfl⟩
theorem OpcodeRow.encodeLength : OpcodeRow.Statement .encodeLength := ⟨rfl, rfl, rfl⟩
theorem OpcodeRow.parse : OpcodeRow.Statement .parse := ⟨rfl, rfl, rfl⟩
theorem OpcodeRow.serialize : OpcodeRow.Statement .serialize := ⟨rfl, rfl, rfl⟩
theorem OpcodeRow.find : OpcodeRow.Statement .find := ⟨rfl, rfl, rfl⟩

end Sys2Proof.Laws
end

