-- ==== Sys2Proof/Laws/Run.lean ====
section
/-! SUPPORT. Runs of the machine, and what one engine step does. -/
namespace Sys2Proof.Laws
open Sys2Proof.Machine

@[simp] theorem run_zero (s : State) : run 0 s = .next s := rfl

/-- One step, then the rest. -/
theorem run_succ (n : Nat) (s : State) :
    run (n + 1) s = (match step s with
      | .next t => run n t
      | .fault r => .fault r
      | .refused r => .refused r) := rfl

/-- It is the run of the host's interface. -/
theorem run_eq_core (n : Nat) (s : State) : run n s = Host.Core.run Sys2Proof.core n s := by
  induction n generalizing s with
  | zero => rfl
  | succ n ih =>
    have hstep : Sys2Proof.core.step s = step s := rfl
    cases h : step s with
    | next t =>
      simp only [run, Host.Core.run, hstep, h]
      exact ih t
    | fault r =>
      simp only [run, Host.Core.run, hstep, h]
      rfl
    | refused r =>
      simp only [run, Host.Core.run, hstep, h]
      rfl

theorem run_succ_next {s t : State} (h : step s = .next t) (n : Nat) : run (n + 1) s = run n t := by
  rw [run_succ, h]

/-- A run of `m + n` steps is a run of `m` and then one of `n`. -/
theorem run_add {s t : State} {m : Nat} (h : run m s = .next t) (n : Nat) : run (m + n) s = run n t := by
  induction m generalizing s with
  | zero =>
    cases h
    rw [Nat.zero_add]
  | succ m ih =>
    rw [Nat.succ_add, run_succ]
    rw [run_succ] at h
    cases hs : step s with
    | next u =>
      rw [hs] at h
      exact ih h
    | fault r => rw [hs] at h; cases h
    | refused r => rw [hs] at h; cases h

/-- With nothing scheduled, the engine moves (log 3). -/
theorem step_empty {s : State} (h : s.env.sched = []) : step s = engineStep s := by
  unfold step takeTurn
  rw [h]

/-- An idle engine with nothing scheduled stays as it is, however long (10_state.md R35, log 2). -/
theorem run_idle {s : State} (hi : s.eng.st = .idle) (h : s.env.sched = []) (n : Nat) : run n s = .next s := by
  induction n with
  | zero => rfl
  | succ n ih =>
    rw [run_succ_next (t := s) _ n, ih]
    rw [step_empty h]
    unfold engineStep
    rw [if_pos hi]

/-- The opcode of a command names it (30_encoding.md R91). -/
@[simp] theorem decodeOp_op (i : Instr) : decodeOp i.op = .ok i := by cases i <;> rfl

/-- Only a command's own opcode names it (30_encoding.md R91). -/
theorem op_of_decodeOp {o : BitVec 3} {i : Instr} (h : decodeOp o = .ok i) : o = i.op := by
  have h' : (decodeOp o).toOption = some i := by rw [h]; rfl
  revert h'
  clear h
  revert o
  cases i <;> decide

/-- The command in `CMD` is read from its stored bits (10_state.md R23). -/
@[simp] theorem decode_cmdWord (g : Regs) : decode (cmdWord g) = decodeOp g.op := by
  unfold decode cmdWord opField
  congr 1
  ext i hi
  simp [hi]
  intro _
  omega

/-- The engine runs the command whose opcode `CMD` holds (10_state.md R34). -/
theorem engineStep_running {i : Instr} {s : State} (h : Running i s) : engineStep s = exec i s := by
  unfold engineStep
  rw [if_neg h.1, decode_cmdWord, h.2, decodeOp_op]

/-- All an engine step can do (10_state.md R34, R35): nothing in IDLE, the reserved command for an opcode that names none, else
one step of the command. -/
theorem engineStep_cases (s : State) :
    (s.eng.st = .idle ∧ engineStep s = .next s)
      ∨ (s.eng.st ≠ .idle ∧ decodeOp s.regs.op = .error .reservedOp ∧ engineStep s = execReserved s)
      ∨ ∃ i, Running i s ∧ engineStep s = exec i s := by
  by_cases hi : s.eng.st = .idle
  · exact .inl ⟨hi, by unfold engineStep; rw [if_pos hi]⟩
  · right
    cases hd : decodeOp s.regs.op with
    | error e =>
      cases e
      refine .inl ⟨hi, rfl, ?_⟩
      unfold engineStep
      rw [if_neg hi, decode_cmdWord, hd]
    | ok i =>
      have hop := op_of_decodeOp hd
      exact .inr ⟨i, ⟨hi, hop⟩, engineStep_running ⟨hi, hop⟩⟩

/-- All a turn can do (log 3): the engine moves, or the host does, or the host reads `STATUS` at the end of a poll. -/
theorem step_cases (s : State) :
    (∃ l, step s = engineStep (s.withSched l)) ∨ (∃ m l, step s = .next (hostMove m (s.withSched l)))
      ∨ ∃ l, step s = .next ((s.note (statusWord s.regs)).withSched l) := by
  unfold step takeTurn
  split
  · rename_i h
    exact .inl ⟨[], by unfold State.withSched; rw [← h]⟩
  · exact .inl ⟨_, rfl⟩
  · exact .inr (.inl ⟨_, _, rfl⟩)
  · rename_i l h
    split
    · exact .inl ⟨.poll :: l, by unfold State.withSched; rw [← h]⟩
    · exact .inr (.inr ⟨_, rfl⟩)

end Sys2Proof.Laws
end

