-- ==== Sys2Proof/Tests/Slice0.lean ====
section
/-! SUPPORT. Tests: the well-formedness smoke test, command words written out, single steps whose expected results are worked
out from 95_test_vectors.md by hand, and for every statement with hypotheses a state that meets them, at the boundary values of
its clauses. -/
namespace Sys2Proof.Tests
open Sys2Proof Sys2Proof.Machine

/-! ## Helpers -/

/-- The state of a step outcome; reset where there is none (no test relies on that case). -/
def after : Out → State
  | .next s => s
  | _ => State.reset

/-- The outcome is a next state. -/
def goesOn : Out → Bool
  | .next _ => true
  | _ => false

/-- A machine with bytes `bs` at 0x1000 as the source buffer, destination 0x3000 with 8 bytes of capacity, token list 0x2000 with
4 records: the conventions of 95_test_vectors.md. -/
def ready (bs : List Byte) (arg : Word) : State :=
  { State.reset with
    mem := ((List.range bs.length).zip bs).foldl (fun m c => m.write (0x1000 + c.1) c.2) []
    regs := { Regs.zero with
      srcAddr := 0x1000, srcLen := BitVec.ofNat 32 bs.length, dstAddr := 0x3000, dstCap := 8, tokAddr := 0x2000, tokN := 4
      arg := arg } }

/-- The machine just after `CMD` accepted command `i`, moved to FSM state `f`. -/
def inState (i : Instr) (f : Fsm) (bs : List Byte) (arg : Word) : State :=
  let s := (ready bs arg).withCommand (encode i)
  { s with eng := { s.eng with st := f } }

/-- The same with other engine registers. -/
def withEng (s : State) (e : Engine) : State := { s with eng := e }

/-- The same with accesses of one kind refused at one address. -/
def refusing (k : Access) (a : Word) (s : State) : State := { s with plat := { s.plat with holes := [⟨k, a, a⟩] } }

/-! ## The command word: 30_encoding.md R90 to R92 -/

theorem test_wf_refuses_reserved_op : commandWordWf 0x00000000 = false := by decide
theorem test_wf_refuses_reserved_op_under_ignored_bits : commandWordWf 0xFFFFFFF8 = false := by decide
theorem test_wf_accepts_every_command :
    ∀ i ∈ [Instr.decodeTag, .encodeTag, .decodeLength, .encodeLength, .parse, .serialize, .find], i.wf = true := by decide

theorem test_decode_decode_tag : decode 0b00000000000000000000000000000001 = .ok .decodeTag := by decide
theorem test_decode_encode_tag : decode 0b00000000000000000000000000000010 = .ok .encodeTag := by decide
theorem test_decode_decode_length : decode 0b00000000000000000000000000000011 = .ok .decodeLength := by decide
theorem test_decode_encode_length : decode 0b00000000000000000000000000000100 = .ok .encodeLength := by decide
theorem test_decode_parse : decode 0b00000000000000000000000000000101 = .ok .parse := by decide
theorem test_decode_serialize : decode 0b00000000000000000000000000000110 = .ok .serialize := by decide
theorem test_decode_find : decode 0b00000000000000000000000000000111 = .ok .find := by decide
theorem test_decode_ignores_high_bits : decode 0b10000000000000000000000000001111 = .ok .find := by decide
theorem test_decode_rejects_op_0 : decode 0b11111111111111111111111111111000 = .error .reservedOp := by decide

/-- The word placed for the host runs as the first command after reset. -/
theorem test_fetch_word_runs :
    decodeTableWord 32 6 = some .serialize
    ∧ step (State.reset.withFetchWord 32 6) = exec .serialize (State.reset.withFetchWord 32 6) := ⟨rfl, rfl⟩

/-! ## Single steps, from the vectors of 95_test_vectors.md -/

/-- X2a step 4: the last byte of `1F 88 01` gives the tag 0x1F8801 and three bytes consumed. -/
theorem test_decode_tag_last_byte :
    let s := inState .decodeTag .tagCont [0x1F, 0x88, 0x01] 0
    let t := after (exec .decodeTag (withEng s { s.eng with off := 2, acc := 0x1F88 }))
    t.regs.res0 = 0x1F8801 ∧ t.regs.res1 = 3 ∧ statusWord t.regs = 0x00000002 := by decide

/-- T10: a fourth continuation byte overflows, and no result is written. -/
theorem test_decode_tag_overflow :
    let s := inState .decodeTag .tagCont [0x1F, 0x81, 0x82, 0x83, 0x04] 0
    let t := after (exec .decodeTag (withEng s { s.eng with off := 4, acc := 0x1F818283 }))
    t.regs.res0 = 0 ∧ t.regs.res1 = 0 ∧ statusWord t.regs = 0x00000502 := by decide

/-- E7: the field of 0x1F8801 is `1F 88 01`. -/
theorem test_encode_tag_field :
    let s := inState .encodeTag .encTag [] 0
    let t := after (exec .encodeTag (withEng s { s.eng with ctag := 0x1F8801 }))
    t.eng.ebuf = #v[0x1F, 0x88, 0x01, 0, 0] ∧ t.eng.en = 3 ∧ t.eng.st = .emit ∧ t.eng.fld = .tag := by decide

/-- E12: the lead byte 0x01 of tag 0x0100 lacks the marker. -/
theorem test_encode_tag_invalid :
    let s := inState .encodeTag .encTag [] 0
    let t := after (exec .encodeTag (withEng s { s.eng with ctag := 0x0100 }))
    statusWord t.regs = 0x00000402 ∧ t.regs.res0 = 0 ∧ t.mem = s.mem := by decide

/-- L18: the last byte of `82 01 01` at offset 3 gives 257 and three bytes consumed. -/
theorem test_decode_length_last_byte :
    let s := inState .decodeLength .lenBytes [0x1F, 0x88, 0x01, 0x82, 0x01, 0x01] 3
    let t := after (exec .decodeLength (withEng s { s.eng with off := 5, acc := 1, nrem := 1 }))
    t.regs.res0 = 257 ∧ t.regs.res1 = 3 ∧ statusWord t.regs = 0x00000002 := by decide

/-- L12 and L10: 0xFF is Invalid though N is above 4, and 0x85 is Overflow. -/
theorem test_decode_length_first_byte_errors :
    statusWord (after (exec .decodeLength (inState .decodeLength .lenFirst [0xFF] 0))).regs = 0x00000402
    ∧ statusWord (after (exec .decodeLength (inState .decodeLength .lenFirst [0x85, 0] 0))).regs = 0x00000502 := by decide

/-- N7 step 2: the field of 257 is `82 01 01`. -/
theorem test_encode_length_field :
    let s := inState .encodeLength .encLen [] 0
    let t := after (exec .encodeLength (withEng s { s.eng with clen := 257 }))
    t.eng.ebuf = #v[0x82, 0x01, 0x01, 0, 0] ∧ t.eng.en = 3 ∧ t.eng.fld = .len ∧ t.eng.st = .emit := by decide

/-- N7 step 5: the third byte goes to 0x3002, and the command ends with RES0 = 3. -/
theorem test_encode_length_last_emit :
    let s := inState .encodeLength .emit [] 0
    let t := after (exec .encodeLength (withEng s
      { s.eng with ebuf := #v[0x82, 0x01, 0x07, 0, 0], en := 3, ei := 2, wcnt := 2, fld := .len }))
    t.mem = [(0x3002, 0x07)] ∧ t.regs.res0 = 3 ∧ statusWord t.regs = 0x00000002 := by decide

/-- P16: the second token's value would end at 9, past the five bytes. -/
theorem test_parse_value_overshoots :
    let s := inState .parse .tokEnd [0x01, 0x00, 0x02, 0x05, 0xAA] 0
    let t := after (exec .parse (withEng s { s.eng with off := 4, vstart := 4, ctag := 2, clen := 5, cnt := 1 }))
    statusWord t.regs = 0x00000602 ∧ t.mem = s.mem := by decide

/-- P15: the twelfth byte of a record at 0xFFFFFFFA goes to address 5, and the token then counts. -/
theorem test_parse_last_record_byte_wraps :
    let s := inState .parse .recWrite [0x02, 0x00] 0
    let t := after (exec .parse { s with
      regs := { s.regs with tokAddr := 0xFFFFFFFA }
      eng := { s.eng with k := 11, vstart := 2, off := 2, ctag := 2, recBuf := #v[2, 0, 0, 0, 0, 0, 0, 0, 2, 0x10, 0, 0x77] } })
    t.mem.read 5 = 0x77 ∧ t.regs.res0 = 1 ∧ t.regs.res1 = 2 ∧ t.eng.st = .tokStart := by decide

/-- S1: after the twelfth record byte, tag 2, length 4 and value address 0x1002. -/
theorem test_serialize_last_record_byte :
    let s := inState .serialize .recRead [] 0
    let t := after (exec .serialize (withEng s
      { s.eng with k := 11, recBuf := #v[2, 0, 0, 0, 4, 0, 0, 0, 2, 0x10, 0, 9] }))
    t.eng.ctag = 2 ∧ t.eng.clen = 4 ∧ t.eng.vaddr = 0x1002 ∧ t.eng.st = .encTag := by decide

/-- S6, end of its access sequence: at the capacity NoMemory comes before the read. -/
theorem test_serialize_capacity_before_read :
    let s := inState .serialize .valCopy [0, 0, 0, 0x2A] 0
    let t := after (exec .serialize (refusing .read 0x1002
      { s with regs := { s.regs with dstCap := 4, res0 := 4 }, eng := { s.eng with vaddr := 0x1000, j := 2, clen := 4, wcnt := 4 } }))
    statusWord t.regs = 0x00000302 ∧ t.regs.res0 = 4 := by decide

/-- F2: the match at offset 3. -/
theorem test_find_match :
    let s := inState .find .tokEnd [0x01, 0x01, 0xAA, 0x02, 0x01, 0xBB] 2
    let t := after (exec .find (withEng s { s.eng with off := 5, tstart := 3, vstart := 5, ctag := 2, clen := 1 }))
    t.regs.res0 = 3 ∧ t.regs.res1 = 2 ∧ t.regs.res2 = 1 ∧ t.regs.res3 = 0x1005 ∧ statusWord t.regs = 0x00000002 := by decide

/-- F7: the bound check comes before the match. -/
theorem test_find_bound_before_match :
    let s := inState .find .tokEnd [0x01, 0x05, 0xAA] 1
    let t := after (exec .find (withEng s { s.eng with off := 2, vstart := 2, ctag := 1, clen := 5 }))
    statusWord t.regs = 0x00000602 ∧ t.regs.res1 = 0 := by decide

/-- G3: `CMD <- 0xFFFFFFFD` starts PARSE, and `CMD` then reads 5. -/
theorem test_cmd_write_starts_parse :
    let s := hostMove (.regWrite 0x40000000 .word 0xFFFFFFFD) State.reset
    cmdWord s.regs = 5 ∧ statusWord s.regs = 1 ∧ s.eng.st = .dispatch := by decide

/-- G5 and G4: a reserved slot and STATUS ignore writes. -/
theorem test_ignored_register_writes :
    hostMove (.regWrite 0x40000034 .word 0x12345678) State.reset = State.reset
    ∧ hostMove (.regWrite 0x40000004 .word 0xFFFFFFFF) State.reset = State.reset := by decide

/-- G2: OP 0 ends with BadArgument. -/
theorem test_reserved_op_status :
    statusWord (after (step (State.reset.withCommand 0))).regs = 0x00000102 := by decide

/-! ## States that meet the hypotheses of the statements -/

theorem witness_CommandWordNamesItsCommand :
    (0xFFFFFFF8#32).toNat % 8 = 0 ∧ (0xFFFFFFF9#32).toNat % 8 = 1 ∧ (0x00000002#32).toNat % 8 = 2
    ∧ (0x0000000B#32).toNat % 8 = 3 ∧ (0x00000004#32).toNat % 8 = 4 ∧ (0xFFFFFFFD#32).toNat % 8 = 5
    ∧ (0x00000006#32).toNat % 8 = 6 ∧ (0xFFFFFFFF#32).toNat % 8 = 7 := by decide

theorem witness_StepRunsTheCommandInCmd :
    let s := inState .parse .dispatch [] 0
    decode (cmdWord s.regs) = .ok .parse ∧ s.eng.st ≠ .idle ∧ s.env.sched = [] ∧ s.regs.busy = true
    ∧ (s.withSched [.engine]).env.sched = .engine :: [] ∧ (s.withSched [.poll]).env.sched = .poll :: [] := by decide

theorem witness_ReservedOpEndsWithBadArgument :
    (0xFFFFFFF8#32).toNat % 8 = 0 ∧ State.reset.regs.busy = false ∧ State.reset.env.sched = [] := by decide

theorem witness_IdleEngineHoldsItsState : State.reset.eng.st = .idle ∧ State.reset.env.sched = [] := by decide

theorem witness_StatesWithoutARuleStop :
    usesState (Instr.op .find) .unusedE = false ∧ usesState (Instr.op .find) .unusedF = false
    ∧ usesState (Instr.op .find) (inState .find .recWrite [] 0).eng.st = false ∧ Fsm.recWrite ≠ .unusedE
    ∧ Fsm.recWrite ≠ .unusedF ∧ Fsm.recWrite ≠ .idle := by decide

theorem witness_AcceptedCmdWriteStartsTheCommand : State.reset.regs.busy = false := by decide

theorem witness_RegisterWritesThatAreIgnored :
    (inState .parse .dispatch [] 0).regs.busy = true ∧ Width.byte ≠ .word ∧ Width.half ≠ .word ∧ Width.wide ≠ .word
    ∧ (0x40000001#32 - State.reset.plat.blockBase).toNat % 4 ≠ 0 ∧ (0x4000003F#32 - State.reset.plat.blockBase).toNat % 4 ≠ 0
    ∧ (0x40000004#32 - State.reset.plat.blockBase).toNat ∈ [0x04, 0x24, 0x28, 0x2C, 0x30, 0x34, 0x38, 0x3C]
    ∧ (0x4000003C#32 - State.reset.plat.blockBase).toNat ∈ [0x04, 0x24, 0x28, 0x2C, 0x30, 0x34, 0x38, 0x3C] := by decide

theorem witness_ArgumentRegistersReadBack :
    State.reset.regs.busy = false
    ∧ Reg.srcAddr ∈ [Reg.srcAddr, .srcLen, .dstAddr, .dstCap, .tokAddr, .tokN, .arg]
    ∧ Reg.arg ∈ [Reg.srcAddr, .srcLen, .dstAddr, .dstCap, .tokAddr, .tokN, .arg] ∧ Reg.res0 ≠ Reg.arg := by decide

theorem witness_RegisterReadsFollowTheMap :
    (31 < 32) ∧ 8 ≤ 11 ∧ Width.half ≠ .word ∧ (0x40000002#32 - State.reset.plat.blockBase).toNat % 4 ≠ 0
    ∧ (0x4000003F#32 - State.reset.plat.blockBase).toNat < 64 ∧ 64 ≤ (0x40000040#32 - State.reset.plat.blockBase).toNat
    ∧ 64 ≤ (0x3FFFFFFF#32 - State.reset.plat.blockBase).toNat := by decide

theorem witness_ResetAbortsTheRunningCommand :
    ((inState .parse .recWrite [] 0).withSched [.host .reset]).env.sched = .host .reset :: [] := by decide

theorem witness_FinishAndRaiseEndTheCommand : (inState .parse .tokStart [] 0).env.raced = false := by decide

theorem witness_DispatchStep :
    (inState .find .dispatch [] 0).eng.st = .dispatch
    ∧ (State.reset.withCommand 0).eng.st = .dispatch ∧ (State.reset.withCommand 0).regs.op = 0#3 := by decide

/-- The address of the next source byte, and the byte there. -/
def srcA (s : State) : Word := s.regs.srcAddr + s.eng.off
def srcB (s : State) : Byte := s.mem.read (srcA s).toNat

/-- The state at TAG_FIRST with source bytes `bs`. -/
def tagFirstAt (bs : List Byte) : State := inState .parse .tagFirst bs 0

/-- TAG_FIRST: the buffer's end, a refused read, a short byte 0x1E, an extended byte 0x1F. -/
theorem witness_TagFirstStep :
    (∃ s : State, s.eng.st = .tagFirst ∧ s.env.raced = false ∧ s.regs.srcLen ≤ s.eng.off)
    ∧ (∃ s : State, s.eng.st = .tagFirst ∧ s.env.raced = false ∧ s.eng.off < s.regs.srcLen ∧ memOk s.plat (srcA s) .read = false)
    ∧ (∃ s : State, s.eng.st = .tagFirst ∧ s.env.raced = false ∧ s.eng.off < s.regs.srcLen ∧ memOk s.plat (srcA s) .read = true
      ∧ (srcB s).toNat % 32 ≠ 31)
    ∧ (∃ s : State, s.eng.st = .tagFirst ∧ s.env.raced = false ∧ s.eng.off < s.regs.srcLen ∧ memOk s.plat (srcA s) .read = true
      ∧ (srcB s).toNat % 32 = 31) :=
  ⟨⟨tagFirstAt [], by decide⟩, ⟨refusing .read 0x1000 (tagFirstAt [0x1E]), by decide⟩, ⟨tagFirstAt [0x1E], by decide⟩,
    ⟨tagFirstAt [0x1F], by decide⟩⟩

/-- A state of TAG_CONT at offset 1, the next byte being `b`. -/
def tagContAt (b : Byte) (acc : Word) (first : Bool) : State :=
  let s := inState .decodeTag .tagCont [0x1F, b] 0
  withEng s { s.eng with off := 1, acc := acc, first := first }

/-- What the clauses of TAG_CONT that read a byte assume. -/
abbrev TagContReads (s : State) : Prop :=
  s.eng.st = .tagCont ∧ s.env.raced = false ∧ s.eng.off < s.regs.srcLen ∧ memOk s.plat (srcA s) .read = true

/-- TAG_CONT: the buffer's end, a refused read, a zero first byte, the overflow boundary 2^24, bit7 at 0x80 and 0x7F. -/
theorem witness_TagContStep :
    (∃ s : State, s.eng.st = .tagCont ∧ s.env.raced = false ∧ s.regs.srcLen ≤ s.eng.off)
    ∧ (∃ s : State, s.eng.st = .tagCont ∧ s.env.raced = false ∧ s.eng.off < s.regs.srcLen ∧ memOk s.plat (srcA s) .read = false)
    ∧ (∃ s, TagContReads s ∧ s.eng.first = true ∧ srcB s = 0#8)
    ∧ (∃ s, TagContReads s ∧ s.eng.first = false ∧ 2 ^ 24 ≤ s.eng.acc.toNat)
    ∧ (∃ s, TagContReads s ∧ srcB s ≠ 0#8 ∧ s.eng.acc.toNat < 2 ^ 24 ∧ 128 ≤ (srcB s).toNat)
    ∧ (∃ s, TagContReads s ∧ srcB s ≠ 0#8 ∧ s.eng.acc.toNat < 2 ^ 24 ∧ (srcB s).toNat < 128) :=
  ⟨⟨inState .find .tagCont [] 0, by decide⟩, ⟨refusing .read 0x1001 (tagContAt 0x80 0x1F true), by decide⟩,
    ⟨tagContAt 0x00 0x1F true, by decide⟩, ⟨tagContAt 0x01 0x1000000 false, by decide⟩,
    ⟨tagContAt 0x80 0xFFFFFF false, by decide⟩, ⟨tagContAt 0x7F 0x1F true, by decide⟩⟩

/-- What the clauses of LEN_FIRST that read a byte assume. -/
abbrev LenFirstReads (s : State) : Prop :=
  s.eng.st = .lenFirst ∧ s.env.raced = false ∧ s.eng.off < s.regs.srcLen ∧ memOk s.plat (srcA s) .read = true

/-- The state at LEN_FIRST with source bytes `bs`. -/
def lenFirstAt (bs : List Byte) : State := inState .decodeLength .lenFirst bs 0

/-- LEN_FIRST: the buffer's end, a refused read, and the first bytes 0x7F, 0x80, 0xFF, 0x85, 0xFE, 0x81, 0x84. -/
theorem witness_LenFirstStep :
    (∃ s : State, s.eng.st = .lenFirst ∧ s.env.raced = false ∧ s.regs.srcLen ≤ s.eng.off)
    ∧ (∃ s : State, s.eng.st = .lenFirst ∧ s.env.raced = false ∧ s.eng.off < s.regs.srcLen ∧ memOk s.plat (srcA s) .read = false)
    ∧ (∃ s, LenFirstReads s ∧ (srcB s).toNat < 128)
    ∧ (∃ s, LenFirstReads s ∧ srcB s = 0x80#8) ∧ (∃ s, LenFirstReads s ∧ srcB s = 0xFF#8)
    ∧ (∃ s, LenFirstReads s ∧ (srcB s).toNat = 0x85) ∧ (∃ s, LenFirstReads s ∧ (srcB s).toNat = 0xFE)
    ∧ (∃ s, LenFirstReads s ∧ (srcB s).toNat = 0x81) ∧ (∃ s, LenFirstReads s ∧ (srcB s).toNat = 0x84) :=
  ⟨⟨lenFirstAt [], by decide⟩, ⟨refusing .read 0x1000 (lenFirstAt [0x7F]), by decide⟩, ⟨lenFirstAt [0x7F], by decide⟩,
    ⟨lenFirstAt [0x80], by decide⟩, ⟨lenFirstAt [0xFF], by decide⟩, ⟨lenFirstAt [0x85], by decide⟩,
    ⟨lenFirstAt [0xFE], by decide⟩, ⟨lenFirstAt [0x81], by decide⟩, ⟨lenFirstAt [0x84], by decide⟩⟩

/-- A state of LEN_BYTES at offset 1 with `n` bytes to come, the next being `b`. -/
def lenBytesAt (b : Byte) (n : BitVec 3) (first : Bool) : State :=
  let s := inState .parse .lenBytes [0x84, b] 0
  withEng s { s.eng with off := 1, nrem := n, first := first }

/-- What the clauses of LEN_BYTES that read a byte assume. -/
abbrev LenBytesReads (s : State) : Prop :=
  s.eng.st = .lenBytes ∧ s.env.raced = false ∧ s.eng.off < s.regs.srcLen ∧ memOk s.plat (srcA s) .read = true

/-- LEN_BYTES: the buffer's end, a refused read, four bytes to come with 0x80 and with 0x7F, a later byte, and the last byte. -/
theorem witness_LenBytesStep :
    (∃ s : State, s.eng.st = .lenBytes ∧ s.env.raced = false ∧ s.regs.srcLen ≤ s.eng.off)
    ∧ (∃ s : State, s.eng.st = .lenBytes ∧ s.env.raced = false ∧ s.eng.off < s.regs.srcLen ∧ memOk s.plat (srcA s) .read = false)
    ∧ (∃ s, LenBytesReads s ∧ s.eng.first = true ∧ s.eng.nrem = 4#3 ∧ 128 ≤ (srcB s).toNat)
    ∧ (∃ s, LenBytesReads s ∧ s.eng.nrem = 4#3 ∧ (srcB s).toNat < 128 ∧ s.eng.nrem ≠ 1#3)
    ∧ (∃ s, LenBytesReads s ∧ s.eng.first = false ∧ s.eng.nrem ≠ 1#3)
    ∧ (∃ s, LenBytesReads s ∧ s.eng.nrem = 1#3) :=
  ⟨⟨inState .find .lenBytes [] 0, by decide⟩, ⟨refusing .read 0x1001 (lenBytesAt 0x80 4 true), by decide⟩,
    ⟨lenBytesAt 0x80 4 true, by decide⟩, ⟨lenBytesAt 0x7F 4 true, by decide⟩, ⟨lenBytesAt 0xFF 2 false, by decide⟩,
    ⟨lenBytesAt 0xFF 1 true, by decide⟩⟩

/-- The state at ENC_TAG with tag `t`. -/
def encTagAt (t : Word) : State :=
  let s := inState .encodeTag .encTag [] 0
  withEng s { s.eng with ctag := t }

/-- The low 5 bits of a tag's first significant byte, as `EncTagStep` writes them. -/
def leadOf (t : Word) : Nat := t.toNat / 256 ^ (sigbytes t - 1) % 32

/-- What the three clauses of ENC_TAG assume. -/
abbrev OneByteTag (s : State) : Prop := s.eng.st = .encTag ∧ s.eng.ctag.toNat ≤ 0xFF ∧ s.eng.ctag.toNat % 32 ≤ 30
abbrev LongTag (s : State) : Prop := s.eng.st = .encTag ∧ (0xFF < s.eng.ctag.toNat ∨ s.eng.ctag.toNat % 32 = 31)

/-- ENC_TAG: the tags 0x00, 0x1E, 0xFE (one byte), 0x100 (refused), 0x1F, 0xFF, 0x1F05, 0xFFFFFFFF (significant bytes). -/
theorem witness_EncTagStep :
    OneByteTag (encTagAt 0x00) ∧ OneByteTag (encTagAt 0x1E) ∧ OneByteTag (encTagAt 0xFE)
    ∧ (LongTag (encTagAt 0x100) ∧ leadOf (encTagAt 0x100).eng.ctag ≠ 31)
    ∧ (LongTag (encTagAt 0x1F) ∧ leadOf (encTagAt 0x1F).eng.ctag = 31)
    ∧ (LongTag (encTagAt 0xFF) ∧ leadOf (encTagAt 0xFF).eng.ctag = 31)
    ∧ (LongTag (encTagAt 0x1F05) ∧ leadOf (encTagAt 0x1F05).eng.ctag = 31)
    ∧ (LongTag (encTagAt 0xFFFFFFFF) ∧ leadOf (encTagAt 0xFFFFFFFF).eng.ctag = 31) :=
  ⟨by decide, by decide, by decide, by decide, by decide, by decide, by decide, by decide⟩

/-- The state at ENC_LEN with length `l`. -/
def encLenAt (l : Word) : State :=
  let s := inState .serialize .encLen [] 0
  withEng s { s.eng with clen := l }

/-- ENC_LEN: the lengths 0, 1, 127, 128. -/
theorem witness_EncLenStep :
    (∃ s : State, s.eng.st = .encLen ∧ s.eng.clen = 0)
    ∧ (∃ s : State, s.eng.st = .encLen ∧ s.eng.clen.toNat = 1) ∧ (∃ s : State, s.eng.st = .encLen ∧ s.eng.clen.toNat = 127)
    ∧ (∃ s : State, s.eng.st = .encLen ∧ s.eng.clen.toNat = 128) :=
  ⟨⟨encLenAt 0, by decide⟩, ⟨encLenAt 1, by decide⟩, ⟨encLenAt 127, by decide⟩, ⟨encLenAt 128, by decide⟩⟩

/-- A state of EMIT with `w` bytes written and byte `ei` of `en` next. -/
def emitAt (i : Instr) (w : Word) (ei en : BitVec 3) (f : Fld) : State :=
  let s := inState i .emit [] 0
  { s with
    regs := { s.regs with res0 := w }
    eng := { s.eng with
      wcnt := w, ei := ei, en := en, fld := f, ebuf := #v[0x84, 1, 2, 3, 4], clen := 0x01020304 } }

/-- The address of the next destination byte. -/
def dstA (s : State) : Word := s.regs.dstAddr + s.eng.wcnt

/-- What every clause of EMIT assumes, with some byte in the buffer. -/
abbrev Emits (s : State) : Prop :=
  s.eng.st = .emit ∧ s.quiet ∧ (s.eng.ebuf[s.eng.ei.toNat]?).isSome = true

/-- EMIT: at the capacity, one below it, a refused write, a byte that is not the last, the last one of a tag and of a length. -/
theorem witness_EmitStep :
    (∃ s, Emits s ∧ s.regs.dstCap ≤ s.eng.wcnt)
    ∧ (∃ s, Emits s ∧ s.eng.wcnt < s.regs.dstCap ∧ memOk s.plat (dstA s) .write = false)
    ∧ (∃ s, Emits s ∧ s.eng.wcnt < s.regs.dstCap ∧ memOk s.plat (dstA s) .write = true ∧ s.eng.ei + 1 ≠ s.eng.en)
    ∧ (∃ s, Emits s ∧ s.eng.wcnt < s.regs.dstCap ∧ memOk s.plat (dstA s) .write = true ∧ s.eng.ei + 1 = s.eng.en
      ∧ s.eng.fld = .tag)
    ∧ (∃ s, Emits s ∧ s.eng.wcnt < s.regs.dstCap ∧ memOk s.plat (dstA s) .write = true ∧ s.eng.ei + 1 = s.eng.en
      ∧ s.eng.fld = .len) :=
  ⟨⟨emitAt .encodeTag 8 0 1 .tag, by decide⟩, ⟨refusing .write 0x3007 (emitAt .encodeLength 7 0 1 .len), by decide⟩,
    ⟨emitAt .serialize 7 0 2 .tag, by decide⟩, ⟨emitAt .serialize 7 0 1 .tag, by decide⟩,
    ⟨emitAt .serialize 7 4 5 .len, by decide⟩⟩

/-- PARSE at TOK_START with offset `o` and `n` tokens stored, and at TOK_END with a value of `l` bytes at offset 2. -/
def parseStartAt (o n : Word) : State :=
  let s := inState .parse .tokStart [2, 4, 0, 0, 0, 0x2A] 0
  withEng s { s.eng with off := o, cnt := n }
def tokEndAt (i : Instr) (l t : Word) : State :=
  let s := inState i .tokEnd [2, 4, 0, 0, 0, 0x2A] 2
  withEng s { s.eng with off := 2, vstart := 2, clen := l, ctag := t }

/-- PARSE: offsets 5 and 6 of 6, 3 and 4 tokens of 4, a value that ends at 6 and at 7 of 6. -/
theorem witness_ParseTokenBoundarySteps :
    (∃ s : State, s.eng.st = .tokStart ∧ s.regs.srcLen ≤ s.eng.off)
    ∧ (∃ s : State, s.eng.st = .tokStart ∧ s.eng.off < s.regs.srcLen ∧ s.regs.tokN ≤ s.eng.cnt)
    ∧ (∃ s : State, s.eng.st = .tokStart ∧ s.eng.off < s.regs.srcLen ∧ s.eng.cnt < s.regs.tokN)
    ∧ (∃ s : State, s.eng.st = .tokEnd ∧ s.regs.srcLen.toNat < s.eng.vstart.toNat + s.eng.clen.toNat)
    ∧ (∃ s : State, s.eng.st = .tokEnd ∧ s.eng.vstart.toNat + s.eng.clen.toNat ≤ s.regs.srcLen.toNat) :=
  ⟨⟨parseStartAt 6 0, by decide⟩, ⟨parseStartAt 5 4, by decide⟩, ⟨parseStartAt 5 3, by decide⟩,
    ⟨tokEndAt .parse 5 2, by decide⟩, ⟨tokEndAt .parse 4 2, by decide⟩⟩

/-- Command `i` at byte `k` of a record. -/
def recordAtByte (i : Instr) (f : Fsm) (k : BitVec 4) : State :=
  let s := inState i f [] 0
  withEng s { s.eng with k := k }

/-- The address of the next record byte. -/
def recA (s : State) : Word := s.regs.tokAddr + 12 * s.eng.cnt + s.eng.k.setWidth 32

/-- REC_WRITE: a refused write, and the record bytes 10 and 11. -/
theorem witness_RecWriteStep :
    (∃ s : State, s.eng.k.toNat < 12 ∧ s.eng.st = .recWrite ∧ s.quiet ∧ memOk s.plat (recA s) .write = false)
    ∧ (∃ s : State, s.eng.k.toNat = 10 ∧ s.eng.st = .recWrite ∧ s.quiet ∧ memOk s.plat (recA s) .write = true)
    ∧ (∃ s : State, s.eng.k.toNat = 11 ∧ s.eng.st = .recWrite ∧ s.quiet ∧ memOk s.plat (recA s) .write = true) :=
  ⟨⟨refusing .write 0x200B (recordAtByte .parse .recWrite 11), by decide⟩, ⟨recordAtByte .parse .recWrite 10, by decide⟩,
    ⟨recordAtByte .parse .recWrite 11, by decide⟩⟩

/-- SERIALIZE: 4 and 3 tokens of 4, a refused read, and the record bytes 10 and 11. -/
theorem witness_SerializeRecordSteps :
    (∃ s : State, s.eng.st = .tokStart ∧ s.regs.tokN ≤ s.eng.cnt) ∧ (∃ s : State, s.eng.st = .tokStart ∧ s.eng.cnt < s.regs.tokN)
    ∧ (∃ s : State, s.eng.k.toNat < 12 ∧ s.eng.st = .recRead ∧ s.env.raced = false ∧ memOk s.plat (recA s) .read = false)
    ∧ (∃ s : State, s.eng.k.toNat = 10 ∧ s.eng.st = .recRead ∧ s.env.raced = false ∧ memOk s.plat (recA s) .read = true)
    ∧ (∃ s : State, s.eng.k.toNat = 11 ∧ s.eng.st = .recRead ∧ s.env.raced = false ∧ memOk s.plat (recA s) .read = true) :=
  ⟨⟨parseStartAt 0 4, by decide⟩, ⟨parseStartAt 0 3, by decide⟩,
    ⟨refusing .read 0x200B (recordAtByte .serialize .recRead 11), by decide⟩, ⟨recordAtByte .serialize .recRead 10, by decide⟩,
    ⟨recordAtByte .serialize .recRead 11, by decide⟩⟩

/-- A state of VAL_COPY with `w` bytes written, byte `j` of a value of `n` bytes next. -/
def valCopyAt (w j n : Word) : State :=
  let s := inState .serialize .valCopy [0, 0, 0, 0x2A] 0
  { s with
    regs := { s.regs with res0 := w }
    eng := { s.eng with wcnt := w, j := j, clen := n, vaddr := 0x1000 } }

/-- The address of the next value byte. -/
def valA (s : State) : Word := s.eng.vaddr + s.eng.j

/-- What the clauses of VAL_COPY that make both accesses assume. -/
abbrev ValCopies (s : State) : Prop :=
  s.eng.st = .valCopy ∧ s.quiet ∧ s.eng.wcnt < s.regs.dstCap ∧ memOk s.plat (valA s) .read = true
    ∧ memOk s.plat (dstA s) .write = true

/-- VAL_COPY: at the capacity, a refused read, a refused write, a byte before the last, and the last one. -/
theorem witness_ValCopyStep :
    (∃ s : State, s.eng.st = .valCopy ∧ s.quiet ∧ s.regs.dstCap ≤ s.eng.wcnt)
    ∧ (∃ s : State, s.eng.st = .valCopy ∧ s.quiet ∧ s.eng.wcnt < s.regs.dstCap ∧ memOk s.plat (valA s) .read = false)
    ∧ (∃ s : State, s.eng.st = .valCopy ∧ s.quiet ∧ s.eng.wcnt < s.regs.dstCap ∧ memOk s.plat (valA s) .read = true
      ∧ memOk s.plat (dstA s) .write = false)
    ∧ (∃ s, ValCopies s ∧ s.eng.j + 1 ≠ s.eng.clen) ∧ (∃ s, ValCopies s ∧ s.eng.j + 1 = s.eng.clen) :=
  ⟨⟨valCopyAt 8 3 4, by decide⟩, ⟨refusing .read 0x1003 (valCopyAt 7 3 4), by decide⟩,
    ⟨refusing .write 0x3007 (valCopyAt 7 3 4), by decide⟩, ⟨valCopyAt 7 2 4, by decide⟩, ⟨valCopyAt 7 3 4, by decide⟩⟩

/-- FIND: offsets 6 and 5 of 6, a value that ends at 7 and at 6 of 6, a match and no match. -/
theorem witness_FindTokenBoundarySteps :
    (∃ s : State, s.eng.st = .tokStart ∧ s.regs.srcLen ≤ s.eng.off) ∧ (∃ s : State, s.eng.st = .tokStart ∧ s.eng.off < s.regs.srcLen)
    ∧ (∃ s : State, s.eng.st = .tokEnd ∧ s.regs.srcLen.toNat < s.eng.vstart.toNat + s.eng.clen.toNat)
    ∧ (∃ s : State, s.eng.st = .tokEnd ∧ s.eng.vstart.toNat + s.eng.clen.toNat ≤ s.regs.srcLen.toNat ∧ s.eng.ctag = s.regs.arg)
    ∧ (∃ s : State, s.eng.st = .tokEnd ∧ s.eng.vstart.toNat + s.eng.clen.toNat ≤ s.regs.srcLen.toNat ∧ s.eng.ctag ≠ s.regs.arg) :=
  ⟨⟨parseStartAt 6 0, by decide⟩, ⟨parseStartAt 5 0, by decide⟩, ⟨tokEndAt .find 5 2, by decide⟩,
    ⟨tokEndAt .find 4 2, by decide⟩, ⟨tokEndAt .find 4 1, by decide⟩⟩

/-- A next state in every FSM state a decoder or FIND uses, where one is reached, and where the command ends. -/
theorem witness_DecodersAndFindFrame :
    goesOn (exec .decodeTag (inState .decodeTag .dispatch [0x1F] 0)) = true
    ∧ goesOn (exec .decodeLength (inState .decodeLength .lenFirst [0x7F] 0)) = true
    ∧ goesOn (exec .find (inState .find .tokStart [0x1F] 0)) = true
    ∧ (after (exec .find (inState .find .tokStart [0x1F] 0))).eng.st ≠ .idle := by decide

theorem witness_EncodersAndSerializeFrame :
    goesOn (exec .encodeTag (emitAt .encodeTag 7 0 1 .tag)) = true ∧ goesOn (exec .encodeLength (emitAt .encodeLength 7 0 2 .len)) = true
    ∧ goesOn (exec .serialize (valCopyAt 7 3 4)) = true ∧ goesOn (exec .serialize (inState .serialize .tokStart [] 0)) = true
    ∧ (inState .serialize .tokStart [] 0).eng.st ≠ .emit ∧ (inState .serialize .tokStart [] 0).eng.st ≠ .valCopy
    ∧ (after (exec .serialize (inState .serialize .tokStart [] 0))).eng.st ≠ .idle := by decide

theorem witness_ParseFrame :
    goesOn (exec .parse (inState .parse .recWrite [] 0)) = true ∧ goesOn (exec .parse (inState .parse .tokStart [1] 0)) = true
    ∧ (inState .parse .tokStart [1] 0).eng.st ≠ .recWrite
    ∧ (after (exec .parse (inState .parse .tokStart [1] 0))).eng.st ≠ .idle := by decide

theorem witness_ArgumentsAreFrozenWhileBusy :
    let s := (inState .parse .tokStart [1] 0).withSched [.host (.regWrite 0x40000020 .word 7)]
    s.regs.busy = true ∧ (∀ l, s.env.sched ≠ .host .reset :: l) ∧ goesOn (step s) = true :=
  ⟨rfl, fun _ => by simp [State.withSched], rfl⟩

theorem witness_EngineWritesOnlyTheWriteRegion :
    let s := emitAt .encodeTag 7 0 1 .tag
    EngineInv s ∧ BoundsInv s ∧ goesOn (engineStep s) = true ∧ (after (engineStep s)).mem.read 0x3007 ≠ s.mem.read 0x3007 :=
  ⟨by decide, ⟨by decide, by decide⟩, by decide, by decide⟩

theorem witness_DecodersReadOnlyTheSourceRegion :
    let s := { inState .find .tagFirst [1] 0 with mem := [(0x1000, 1), (0x2000, 9)] }
    let m : Memory := [(0x1000, 1)]
    (∀ a : Word, dist s.regs.srcAddr a < s.regs.srcLen.toNat → m.read a.toNat = s.mem.read a.toNat)
    ∧ goesOn (exec .find s) = true ∧ m ≠ s.mem := by
  refine ⟨fun a h => ?_, by decide, by decide⟩
  have h1 : (a - 0x1000#32).toNat < 1 := h
  have h2 : a = 0x1000#32 := by bv_omega
  subst h2
  decide

theorem witness_EveryStepKeepsEngineInv : EngineInv (valCopyAt 7 3 4) ∧ goesOn (step (valCopyAt 7 3 4)) = true := by decide

theorem witness_MachineNeverStops :
    EngineInv State.reset ∧ EngineInv (emitAt .serialize 7 4 5 .len) ∧ EngineInv (lenBytesAt 0x80 1 false) :=
  ⟨by decide, by decide, by decide⟩

theorem witness_EveryStepKeepsMemoryCanonical :
    (valCopyAt 7 3 4).mem.wf = true ∧ goesOn (step (valCopyAt 7 3 4)) = true ∧ (after (step (valCopyAt 7 3 4))).mem ≠ (valCopyAt 7 3 4).mem := by
  decide

theorem witness_EveryStepKeepsBounds :
    EngineInv (valCopyAt 7 3 4) ∧ BoundsInv (valCopyAt 7 3 4) ∧ BoundsInv (emitAt .encodeTag 8 0 1 .tag)
    ∧ goesOn (step (valCopyAt 7 3 4)) = true :=
  ⟨by decide, ⟨by decide, by decide⟩, ⟨by decide, by decide⟩, by decide⟩

theorem witness_EveryStepKeepsResults :
    EngineInv (valCopyAt 7 3 4) ∧ ResultsInv (valCopyAt 7 3 4) ∧ goesOn (step (valCopyAt 7 3 4)) = true
    ∧ ResultsInv (inState .find .tagFirst [1] 0) := ⟨by decide, by decide, by decide, by decide⟩

/-- PARSE between two tokens, and inside the second one. -/
theorem witness_EveryStepKeepsResults_parse :
    let s := inState .parse .tokStart [1, 0, 2, 0] 0
    let t := { s with regs := { s.regs with res0 := 1, res1 := 2 }, eng := { s.eng with off := 2, cnt := 1 } }
    (EngineInv t ∧ Running .parse t) ∧ ResultsInv t ∧ (after (step t)).eng.st = .tagFirst ∧ ResultsInv (after (step t)) :=
  ⟨by decide, by decide, by decide, by decide⟩

/-- DECODE_TAG with a racing host write among its six engine turns, and a machine in the middle of a command. -/
theorem witness_EveryCommandReachesIdle :
    let l := .host (.memWrite 0x1000 7) :: List.replicate 6 Turn.engine
    .poll ∉ l ∧ commandBound (startCommand 1 (ready [1] 0)).regs ≤ l.count .engine
    ∧ (after (step (((ready [1] 0).withCommand 1).withSched l))).env.raced = true
    ∧ EngineInv (valCopyAt 7 3 4) ∧ (OffsetInv (valCopyAt 7 3 4) ∧ CountInv (valCopyAt 7 3 4))
    ∧ (valCopyAt 7 3 4).env.sched = [] ∧ (valCopyAt 7 3 4).eng.st ≠ .idle :=
  ⟨by decide, by decide, by decide, by decide, ⟨by decide, by decide⟩, by decide, by decide⟩

theorem witness_SigbytesIsTheSmallestWidth :
    (0xFF#32).toNat ≤ 0xFF ∧ 0x100 ≤ (0x100#32).toNat ∧ (0xFFFF#32).toNat ≤ 0xFFFF ∧ 0x10000 ≤ (0x10000#32).toNat
    ∧ (0xFFFFFF#32).toNat ≤ 0xFFFFFF ∧ 0x1000000 ≤ (0x1000000#32).toNat ∧ 1 ≤ 4 ∧ (0xFFFFFFFF#32).toNat < 2 ^ (8 * 4) := by decide

/-- A field of one byte and the longest field (T9). -/
theorem witness_DecodeTagReturnsTheFieldsValue :
    let t := after (run 6 ((ready [0x02] 0).withCommand (encode .decodeTag)))
    let u := after (run 6 ((ready [0x1F, 0x81, 0x82, 0x03] 0).withCommand (encode .decodeTag)))
    goesOn (run 6 ((ready [0x02] 0).withCommand (encode .decodeTag))) = true ∧ t.regs.err = 0 ∧ t.regs.res1.toNat = 1
    ∧ goesOn (run 6 ((ready [0x1F, 0x81, 0x82, 0x03] 0).withCommand (encode .decodeTag))) = true ∧ u.regs.err = 0
    ∧ 2 ≤ u.regs.res1.toNat := by decide

/-- The largest short field and the largest length (L2, L6). -/
theorem witness_DecodeLengthReturnsTheFieldsValue :
    let t := after (run 6 ((ready [0x7F] 0).withCommand (encode .decodeLength)))
    let u := after (run 6 ((ready [0x84, 0x7F, 0xFF, 0xFF, 0xFF] 0).withCommand (encode .decodeLength)))
    goesOn (run 6 ((ready [0x7F] 0).withCommand (encode .decodeLength))) = true ∧ t.regs.err = 0
    ∧ goesOn (run 6 ((ready [0x84, 0x7F, 0xFF, 0xFF, 0xFF] 0).withCommand (encode .decodeLength))) = true ∧ u.regs.err = 0 := by
  decide

theorem witness_TagRoundTripsExactlyWhenWellFormed :
    let s := { ready [] 0x1F8801 with regs := { (ready [] 0x1F8801).regs with dstCap := 4 } }
    s.mem.wf = true ∧ 4 ≤ s.regs.dstCap.toNat ∧ allowsRegion s.plat s.regs.dstAddr 4 ∧ tagWf s.regs.arg = true
    ∧ tagWf 0x1F = false :=
  ⟨rfl, by decide, fun _ _ _ => rfl, by decide, by decide⟩

theorem witness_LengthRoundTripsExactlyInRange :
    let s := { ready [] 0x7FFFFFFF with regs := { (ready [] 0x7FFFFFFF).regs with dstCap := 5 } }
    s.mem.wf = true ∧ 5 ≤ s.regs.dstCap.toNat ∧ allowsRegion s.plat s.regs.dstAddr 5 :=
  ⟨rfl, by decide, fun _ _ _ => rfl⟩

/-- An empty buffer ends with success, and a full token list with NoMemory. -/
theorem witness_ParseEndsWhereItsResultsSay :
    let s := ready [1] 0
    let s0 := { s with regs := { s.regs with tokN := 0 } }
    goesOn (run (8 * (ready [] 0).regs.srcLen.toNat + 5) ((ready [] 0).withCommand (encode .parse))) = true
    ∧ (after (run (8 * (ready [] 0).regs.srcLen.toNat + 5) ((ready [] 0).withCommand (encode .parse)))).regs.err = 0
    ∧ goesOn (run (8 * s0.regs.srcLen.toNat + 5) (s0.withCommand (encode .parse))) = true
    ∧ (after (run (8 * s0.regs.srcLen.toNat + 5) (s0.withCommand (encode .parse)))).regs.err = 3 := by decide

theorem witness_WritersTouchOnlyTheBytesTheyCount :
    let s := ready [] 5
    goesOn (run (stepBound .encodeTag s.regs) (s.withCommand (encode .encodeTag))) = true
    ∧ (after (run (stepBound .encodeTag s.regs) (s.withCommand (encode .encodeTag)))).regs.res0.toNat = 1
    ∧ 1 ≤ dist s.regs.dstAddr 0x3001 ∧ (1 ≤ dist s.regs.dstAddr 0x2FFF) := by decide

/-- Two machines with the same arguments and different pasts. -/
theorem witness_CommandsDoNotSeeEarlierOnes :
    let s := ready [1] 0
    let s' := after (step (s.withCommand (encode .find)))
    SameArguments s.regs s'.regs ∧ s.mem = s'.mem ∧ s.plat = s'.plat ∧ s.eng ≠ s'.eng := by decide

/-- A match, and none. -/
theorem witness_FindReturnsTheFirstMatch :
    let m := run (2 * (ready [2, 0] 2).regs.srcLen.toNat + 5) ((ready [2, 0] 2).withCommand (encode .find))
    let n := run (2 * (ready [2, 0] 3).regs.srcLen.toNat + 5) ((ready [2, 0] 3).withCommand (encode .find))
    goesOn m = true ∧ (after m).regs.err = 0 ∧ goesOn n = true ∧ (after n).regs.err = 7 := by decide

/-- A race before any byte is written, one after PARSE has written two bytes of a record, and an engine write in a raced command. -/
theorem witness_RacedCommandsEndWithFreeResults :
    let s := inState .decodeTag .tagFirst [1] 0
    let p := recordAtByte .parse .recWrite 2
    let q := { p with regs := { p.regs with srcLen := 1 } }
    let r := hostMove (.memWrite 0x1000 7) q
    (s.regs.busy = true ∧ inReadRegion s 0x1000 = true ∧ inReadRegion s 0x1001 = false)
    ∧ (q.regs.busy = true ∧ inReadRegion q 0x1000 = true ∧ q.mem.wf = true ∧ 1 < (writtenSoFar q).2)
    ∧ (r.env.raced = true ∧ (raceCommand q).env.raced = true ∧ (memWrite 0x2002 4 { q with env := { q.env with raced := true } }).isSome = true) := by
  decide

/-- With six bytes written of a region of eight: the last byte the engine has written, the first it has not, the last of the region, and the
byte past it. -/
theorem witness_ContestedBytesHaveOneOfTheTwoValues :
    let s := emitAt .encodeTag 6 0 1 .tag
    let t := hostMove (.memWrite 0x3006 9) s
    (s.mem.wf = true ∧ s.env.raced = false ∧ s.regs.busy = true ∧ inReadRegion s 0x3006 = false)
    ∧ (inWriteRegion s 0x3006 = true ∧ (writtenSoFar s).2 ≤ dist (writtenSoFar s).1 0x3006)
    ∧ (inWriteRegion s 0x3007 = true ∧ (writtenSoFar s).2 ≤ dist (writtenSoFar s).1 0x3007)
    ∧ (inWriteRegion s 0x3005 = true ∧ dist (writtenSoFar s).1 0x3005 < (writtenSoFar s).2) ∧ inWriteRegion s 0x3008 = false
    ∧ (memWrite 0x3006 4 t).isSome = true
    ∧ (t.mem.wf = true ∧ t.env.raced = false ∧ (0x3006#32).toNat ∈ t.env.contested) := by decide

/-- A byte ENCODE_TAG may write, read in the middle of the command, and one past the region; a run cut at its second step; and a
raced command at its last byte. -/
theorem witness_HostReadsTheOldOrTheEnginesByte :
    let s := emitAt .encodeTag 7 0 1 .tag
    let t := run 2 ((ready [] 5).withCommand (encode .encodeTag))
    (s.regs.busy = true ∧ inWriteRegion s 0x3007 = true ∧ s.env.raced = false) ∧ inWriteRegion s 0x3008 = false
    ∧ State.reset.regs.busy = false
    ∧ (goesOn t = true ∧ (after t).regs.busy = true ∧ goesOn (run 1 (after t)) = true ∧ (after (run 1 (after t))).regs.busy = false)
    ∧ (let r := { s with env := { s.env with raced := true } }
      r.env.raced = true ∧ r.env.sched = [] ∧ 1 ≤ commandBound r.regs ∧ goesOn (run 1 r) = true
      ∧ (after (run 1 r)).eng.st = .idle) := by
  decide

/-- E7 while it runs: the byte the engine will write at 0x3000 is 0x1F, and the old byte 0. -/
theorem test_command_end_holds_the_engines_bytes :
    let s := (ready [] 0x1F8801).withCommand (encode .encodeTag)
    (commandEnd s).mem = [(0x3000, 0x1F), (0x3001, 0x88), (0x3002, 0x01)] ∧ s.env.before.read 0x3000 = 0 := by decide

end Sys2Proof.Tests
end

section
/-! PROOF. Offsets and counts never wrap (00_scope.md R9). The bounds are read once as one assertion per FSM state, each state's
action is shown to lead from its own assertion to the next state's, and the turns of engine and host are assembled from that. -/
namespace Sys2Proof.Bounds
open Sys2Proof Sys2Proof.Machine Sys2Proof.Laws

/-! ## The bounds, FSM state by FSM state -/

/-- The commands that go through a source buffer token by token (42_parse.md R183, 44_find.md R242). -/
def ScansTokens (g : Regs) : Prop := g.op = Instr.parse.op ∨ g.op = Instr.find.op

/-- The commands that count the records of a token list (42_parse.md R183, 43_serialize.md R214). -/
def CountsTokens (g : Regs) : Prop := g.op = Instr.parse.op ∨ g.op = Instr.serialize.op

/-- The commands that count destination bytes (40_tag_codec.md R127). -/
def CountsBytes (g : Regs) : Prop :=
  g.op = Instr.encodeTag.op ∨ g.op = Instr.encodeLength.op ∨ g.op = Instr.serialize.op

/-- The bounds before a token, when the token list may be full. -/
def BetweenTokens (s : State) : Prop :=
  (ScansTokens s.regs → s.eng.off ≤ s.regs.srcLen) ∧ (CountsTokens s.regs → s.eng.cnt ≤ s.regs.tokN)
    ∧ (CountsBytes s.regs → s.eng.wcnt ≤ s.regs.dstCap)

/-- The bounds while a token or a field is worked on: its record has a place in the token list. -/
def InsideToken (s : State) : Prop :=
  (ScansTokens s.regs → s.eng.off ≤ s.regs.srcLen) ∧ (CountsTokens s.regs → s.eng.cnt < s.regs.tokN)
    ∧ (CountsBytes s.regs → s.eng.wcnt ≤ s.regs.dstCap)

/-- The bounds after a source byte of a field has been read, whatever the command. -/
def InsideField (s : State) : Prop := InsideToken s ∧ s.eng.off ≤ s.regs.srcLen

/-- What the bounds say in each FSM state. -/
def BoundsAt : Fsm → State → Prop
  | .idle, _ => True
  | .dispatch, s => BetweenTokens s
  | .tokStart, s => BetweenTokens s
  | .tagFirst, s => InsideToken s ∧ (ScansTokens s.regs → s.eng.off < s.regs.srcLen)
  | .tagCont, s => InsideField s
  | .lenFirst, s => InsideToken s
  | .lenBytes, s => InsideField s
  | .tokEnd, s => InsideToken s ∧ s.eng.vstart = s.eng.off ∧ s.eng.vstart ≤ s.regs.srcLen
  | .recWrite, s =>
    InsideToken s ∧ s.eng.vstart = s.eng.off ∧ s.eng.vstart.toNat + s.eng.clen.toNat ≤ s.regs.srcLen.toNat
  | .recRead, s => InsideToken s
  | .encTag, s => InsideToken s
  | .encLen, s => InsideToken s
  | .emit, s => InsideToken s ∧ (s.regs.op = Instr.serialize.op → s.eng.fld = .len → s.eng.clen ≠ 0)
  | .valCopy, s => InsideToken s ∧ s.eng.j < s.eng.clen
  | .unusedE, s => InsideToken s
  | .unusedF, s => InsideToken s

theorem running_scansTokens_iff (s : State) :
    Running .parse s ∨ Running .find s ↔ s.eng.st ≠ .idle ∧ ScansTokens s.regs :=
  and_or_left.symm

theorem running_countsTokens_iff (s : State) :
    Running .parse s ∨ Running .serialize s ↔ s.eng.st ≠ .idle ∧ CountsTokens s.regs :=
  and_or_left.symm

theorem running_countsBytes_iff (s : State) :
    Running .encodeTag s ∨ Running .encodeLength s ∨ Running .serialize s ↔
      s.eng.st ≠ .idle ∧ CountsBytes s.regs := by
  simp only [Running, CountsBytes, and_or_left]

/-- The frozen invariant is the assertion of the FSM state the engine is in: in each state, the clauses that name another state
fall away, and strictly inside a token `cnt < TOK_N` absorbs `cnt ≤ TOK_N`. -/
theorem boundsInv_iff (s : State) : BoundsInv s ↔ BoundsAt s.eng.st s := by
  have hcnt : s.eng.cnt ≤ s.regs.tokN ∧ s.eng.cnt < s.regs.tokN ↔ s.eng.cnt < s.regs.tokN :=
    and_iff_right_of_imp BitVec.le_of_lt
  unfold BoundsInv OffsetInv CountInv
  rw [running_scansTokens_iff, running_countsTokens_iff, running_countsBytes_iff]
  cases hst : s.eng.st <;> simp [BoundsAt, BetweenTokens, InsideToken, InsideField, Running, hst, hcnt] <;> tauto

/-- An engine in FSM state `st` that meets this state's assertion is within its bounds. -/
theorem boundsInv_of_at {s : State} {st : Fsm} (hst : s.eng.st = st) (h : BoundsAt st s) : BoundsInv s := by
  rw [boundsInv_iff, hst]
  exact h

/-- An engine within its bounds meets the assertion of the FSM state it is in. -/
theorem boundsAt_of_boundsInv {s : State} {st : Fsm} (hst : s.eng.st = st) (h : BoundsInv s) : BoundsAt st s := by
  rw [boundsInv_iff, hst] at h
  exact h

/-- An idle engine is held to no bound. -/
theorem boundsInv_of_idle {s : State} (h : s.eng.st = .idle) : BoundsInv s := boundsInv_of_at h trivial

/-- However a command ends, the engine is idle (60_exceptions.md R271, R272). -/
theorem boundsInv_endCommand (e : Option Err) (s : State) : BoundsInv (endCommand e s) :=
  boundsInv_of_idle (by simp)

/-- The bounds speak of the registers and the engine alone. -/
theorem boundsInv_congr {s t : State} (hr : t.regs = s.regs) (he : t.eng = s.eng) (h : BoundsInv s) : BoundsInv t := by
  cases s
  cases t
  cases hr
  cases he
  exact h

/-- Inside a token, the bounds before a token hold all the more. -/
theorem InsideToken.betweenTokens {s : State} (h : InsideToken s) : BetweenTokens s := by
  obtain ⟨hoff, hcnt, hwcnt⟩ := h
  exact ⟨hoff, fun hc => BitVec.le_of_lt (hcnt hc), hwcnt⟩

/-! ## Counting up by one -/

theorem succ_le_of_lt {a b : Word} (h : a < b) : a + 1 ≤ b := by bv_omega

theorem succ_lt_of_lt_of_ne {a b : Word} (h : a < b) (hne : a + 1 ≠ b) : a + 1 < b :=
  BitVec.lt_of_le_ne (succ_le_of_lt h) hne

/-- The offset after a value that ends within the buffer stays within it: the sum does not wrap (42_parse.md R181). -/
theorem value_end_le {v l n : Word} (h : v.toNat + l.toNat ≤ n.toNat) : v + l ≤ n := by bv_omega

/-- A source byte read below `SRC_LEN` leaves the offset within it, and the FSM state as it was. -/
theorem readSrc_bounds {s t : State} {b : Byte} (h : InsideToken s) (hlt : s.eng.off < s.regs.srcLen)
    (hr : readSrc s.eng.off s = some (b, t)) :
    InsideField { t with eng := { t.eng with off := t.eng.off + 1 } } ∧ t.eng.st = s.eng.st := by
  obtain ⟨-, n, rfl, -⟩ := memRead_some hr
  obtain ⟨-, hcnt, hwcnt⟩ := h
  have hoff : s.eng.off + 1 ≤ s.regs.srcLen := succ_le_of_lt hlt
  exact ⟨⟨⟨fun _ => hoff, hcnt, hwcnt⟩, hoff⟩, rfl⟩

/-- A destination byte written below `DST_CAP` leaves the count of such bytes within it. -/
theorem InsideToken.count_byte {s : State} (h : InsideToken s) (hlt : s.eng.wcnt < s.regs.dstCap) :
    InsideToken { s with eng := { s.eng with wcnt := s.eng.wcnt + 1 } } := by
  obtain ⟨hoff, hcnt, -⟩ := h
  exact ⟨hoff, hcnt, fun _ => succ_le_of_lt hlt⟩

/-- A token counted inside its token leaves the count of tokens within `TOK_N`. -/
theorem InsideToken.count_token {s : State} (h : InsideToken s) :
    BetweenTokens { s with eng := { s.eng with cnt := s.eng.cnt + 1 } } := by
  obtain ⟨hoff, hcnt, hwcnt⟩ := h
  exact ⟨hoff, fun hc => succ_le_of_lt (hcnt hc), hwcnt⟩

/-- Before a token, an offset moved past a value that ends within the buffer is within bounds. -/
theorem BetweenTokens.skip_value {s : State} (h : BetweenTokens s)
    (hle : s.eng.vstart.toNat + s.eng.clen.toNat ≤ s.regs.srcLen.toNat) :
    BetweenTokens { s with eng := { s.eng with off := s.eng.vstart + s.eng.clen } } := by
  obtain ⟨-, hcnt, hwcnt⟩ := h
  exact ⟨fun _ => value_end_le hle, hcnt, hwcnt⟩

/-! ## Reading a field (40_tag_codec.md R120, R121, 41_length_codec.md R150, R151) -/

section fields
variable {s : State} {complete : State → State}

theorem tagFirst_bounds (h : BoundsAt .tagFirst s) (hc : ∀ u, InsideField u → BoundsInv (complete u)) :
    BoundsInv (tagFirst complete s) := by
  obtain ⟨hin, -⟩ := h
  exact tagFirst_rule BoundsInv
    (hEnd := fun _ => boundsInv_endCommand _ _)
    (hBus := fun _ _ => boundsInv_endCommand _ _)
    (hShort := fun _ _ hlt hr _ => hc _ (readSrc_bounds hin hlt hr).1)
    (hExt := fun _ _ hlt hr _ => boundsInv_of_at (st := .tagCont) rfl (readSrc_bounds hin hlt hr).1)

theorem tagCont_bounds (hst : s.eng.st = .tagCont) (h : BoundsAt .tagCont s)
    (hc : ∀ u, InsideField u → BoundsInv (complete u)) : BoundsInv (tagCont complete s) := by
  obtain ⟨hin, -⟩ := h
  refine tagCont_rule BoundsInv
    (hEnd := fun _ => boundsInv_endCommand _ _)
    (hBus := fun _ _ => boundsInv_endCommand _ _)
    (hErr := fun _ _ _ _ _ _ => boundsInv_endCommand _ _)
    (hMore := fun b t hlt hr _ _ _ => ?_)
    (hLast := fun _ _ hlt hr _ _ _ => hc _ (readSrc_bounds hin hlt hr).1)
  obtain ⟨hfield, hkeep⟩ := readSrc_bounds hin hlt hr
  exact boundsInv_of_at (hkeep.trans hst) hfield

theorem lenFirst_bounds (h : BoundsAt .lenFirst s) (hc : ∀ u, InsideField u → BoundsInv (complete u)) :
    BoundsInv (lenFirst complete s) :=
  lenFirst_rule BoundsInv
    (hEnd := fun _ => boundsInv_endCommand _ _)
    (hBus := fun _ _ => boundsInv_endCommand _ _)
    (hShort := fun _ _ hlt hr _ => hc _ (readSrc_bounds h hlt hr).1)
    (hErr := fun _ _ _ _ _ _ _ => boundsInv_endCommand _ _)
    (hLong := fun _ _ hlt hr _ _ _ => boundsInv_of_at (st := .lenBytes) rfl (readSrc_bounds h hlt hr).1)

theorem lenBytes_bounds (hst : s.eng.st = .lenBytes) (h : BoundsAt .lenBytes s)
    (hc : ∀ u, InsideField u → BoundsInv (complete u)) : BoundsInv (lenBytes complete s) := by
  obtain ⟨hin, -⟩ := h
  refine lenBytes_rule BoundsInv
    (hEnd := fun _ => boundsInv_endCommand _ _)
    (hBus := fun _ _ => boundsInv_endCommand _ _)
    (hErr := fun _ _ _ _ _ => boundsInv_endCommand _ _)
    (hMore := fun b t hlt hr _ _ => ?_)
    (hLast := fun _ _ hlt hr _ _ => hc _ (readSrc_bounds hin hlt hr).1)
  obtain ⟨hfield, hkeep⟩ := readSrc_bounds hin hlt hr
  exact boundsInv_of_at (hkeep.trans hst) hfield

theorem tokenTagComplete_bounds (u : State) (h : InsideField u) : BoundsInv (tokenTagComplete u) :=
  boundsInv_of_at (st := .lenFirst) rfl h.1

/-- The value starts at the offset reached, which lies within the buffer (41_length_codec.md R153). -/
theorem tokenLenComplete_bounds (u : State) (h : InsideField u) : BoundsInv (tokenLenComplete u) := by
  obtain ⟨hin, hoff⟩ := h
  exact boundsInv_of_at (st := .tokEnd) rfl ⟨hin, rfl, hoff⟩

end fields

/-! ## Writing a field (40_tag_codec.md R125, R127, 41_length_codec.md R155) -/

/-- Where an engine action goes on, the bounds hold. -/
def NextBounded (o : Out) : Prop := ∀ t, o = .next t → BoundsInv t

theorem nextBounded_next {t : State} (h : BoundsInv t) : NextBounded (.next t) := fun _ ht => by
  cases ht
  exact h

theorem nextBounded_fault (r : Fault) : NextBounded (.fault r) := fun _ ht => by cases ht

theorem nextBounded_end (e : Option Err) (s : State) : NextBounded (.next (endCommand e s)) :=
  nextBounded_next (boundsInv_endCommand e s)

section emitter
variable {s : State}

theorem encTag_bounds (h : BoundsAt .encTag s) : BoundsInv (encTag s) :=
  encTag_rule BoundsInv
    (hBad := fun _ => boundsInv_endCommand _ _)
    (hLoad := fun _ _ => boundsInv_of_at (st := .emit) rfl ⟨h, fun _ hf => by cases hf⟩)

theorem encLen_bounds (h : BoundsAt .encLen s) : BoundsInv (encLen s) :=
  encLen_rule BoundsInv
    (hZero := fun _ => boundsInv_endCommand _ _)
    (hLoad := fun h0 => boundsInv_of_at (st := .emit) rfl ⟨h, fun _ _ => h0⟩)

/-- EMIT keeps the bounds when the command's own end of a field does, from a state that still meets EMIT's assertion. -/
theorem emit_bounds {fieldDone : State → State} (hst : s.eng.st = .emit) (h : BoundsAt .emit s)
    (hdone : ∀ u, u.regs.op = s.regs.op → BoundsAt .emit u → BoundsInv (fieldDone u)) :
    NextBounded (emit fieldDone s) := by
  obtain ⟨hin, hlen⟩ := h
  refine emit_rule NextBounded
    (hFull := fun _ => nextBounded_end _ _)
    (hStuck := fun _ _ => nextBounded_fault _)
    (hBus := fun _ _ => nextBounded_end _ _)
    (hMore := fun b t hlt _ hw _ => ?more)
    (hLast := fun b t hlt _ hw _ => ?last)
  case more =>
    obtain ⟨-, n, b', rfl, -⟩ := memWrite_some hw
    exact nextBounded_next (boundsInv_of_at hst ⟨hin.count_byte hlt, hlen⟩)
  case last =>
    obtain ⟨-, n, b', rfl, -⟩ := memWrite_some hw
    exact nextBounded_next (hdone _ rfl ⟨hin.count_byte hlt, hlen⟩)

/-- After SERIALIZE's length field, a first value byte is still to be copied (43_serialize.md R212). -/
theorem serializeFieldDone_bounds {u : State} (hop : u.regs.op = Instr.serialize.op) (h : BoundsAt .emit u) :
    BoundsInv (serializeFieldDone u) := by
  obtain ⟨hin, hlen⟩ := h
  unfold serializeFieldDone
  cases hf : u.eng.fld with
  | tag => exact boundsInv_of_at (st := .encLen) rfl hin
  | len => exact boundsInv_of_at (st := .valCopy) rfl ⟨hin, (BitVec.pos_iff_ne_zero _).2 (hlen hop hf)⟩

end emitter

/-! ## Token by token (42_parse.md R180 to R182, 43_serialize.md R210 to R213, 44_find.md R240, R241) -/

section tokens
variable {s : State}

theorem parseTokStart_bounds (h : BoundsAt .tokStart s) : BoundsInv (parseTokStart s) := by
  obtain ⟨hoff, -, hwcnt⟩ := h
  exact parseTokStart_rule BoundsInv
    (hDone := fun _ => boundsInv_endCommand _ _)
    (hFull := fun _ _ => boundsInv_endCommand _ _)
    (hGo := fun hlt hcnt => boundsInv_of_at (st := .tagFirst) rfl ⟨⟨hoff, fun _ => hcnt, hwcnt⟩, fun _ => hlt⟩)

theorem parseTokEnd_bounds (h : BoundsAt .tokEnd s) : BoundsInv (parseTokEnd s) := by
  obtain ⟨hin, hv, -⟩ := h
  exact parseTokEnd_rule BoundsInv
    (hOver := fun _ => boundsInv_endCommand _ _)
    (hGo := fun hle => boundsInv_of_at (st := .recWrite) rfl ⟨hin, hv, hle⟩)

theorem recWrite_bounds (hst : s.eng.st = .recWrite) (h : BoundsAt .recWrite s) : NextBounded (recWrite s) := by
  obtain ⟨hin, hv, hle⟩ := h
  refine recWrite_rule NextBounded
    (hStuck := fun _ => nextBounded_fault _)
    (hBus := fun _ => nextBounded_end _ _)
    (hMore := fun b t _ hw _ => ?more)
    (hLast := fun b t _ hw _ => ?last)
  case more =>
    obtain ⟨-, n, b', rfl, -⟩ := memWrite_some hw
    exact nextBounded_next (boundsInv_of_at hst ⟨hin, hv, hle⟩)
  case last =>
    obtain ⟨-, n, b', rfl, -⟩ := memWrite_some hw
    exact nextBounded_next (boundsInv_of_at (st := .tokStart) rfl (hin.count_token.skip_value hle))

/-- FIND stores no token, so the token list does not bound it. -/
theorem findTokStart_bounds (hop : s.regs.op = Instr.find.op) (h : BoundsAt .tokStart s) :
    BoundsInv (findTokStart s) := by
  obtain ⟨hoff, -, hwcnt⟩ := h
  have hno : ¬ CountsTokens s.regs := by
    rw [CountsTokens, hop]
    decide
  exact findTokStart_rule BoundsInv
    (hEnd := fun _ => boundsInv_endCommand _ _)
    (hGo := fun hlt =>
      boundsInv_of_at (st := .tagFirst) rfl ⟨⟨hoff, fun hc => absurd hc hno, hwcnt⟩, fun _ => hlt⟩)

theorem findTokEnd_bounds (h : BoundsAt .tokEnd s) : BoundsInv (findTokEnd s) := by
  obtain ⟨hin, -, -⟩ := h
  exact findTokEnd_rule BoundsInv
    (hOver := fun _ => boundsInv_endCommand _ _)
    (hHit := fun _ _ => boundsInv_endCommand _ _)
    (hSkip := fun hle _ => boundsInv_of_at (st := .tokStart) rfl (hin.betweenTokens.skip_value hle))

theorem serializeTokStart_bounds (h : BoundsAt .tokStart s) : BoundsInv (serializeTokStart s) := by
  obtain ⟨hoff, -, hwcnt⟩ := h
  exact serializeTokStart_rule BoundsInv
    (hDone := fun _ => boundsInv_endCommand _ _)
    (hGo := fun hcnt => boundsInv_of_at (st := .recRead) rfl ⟨hoff, fun _ => hcnt, hwcnt⟩)

theorem recRead_bounds (hst : s.eng.st = .recRead) (h : BoundsAt .recRead s) : NextBounded (recRead s) := by
  refine recRead_rule NextBounded
    (hStuck := fun _ => nextBounded_fault _)
    (hBus := fun _ => nextBounded_end _ _)
    (hMore := fun b t _ hr _ => ?more)
    (hLast := fun b t _ hr _ => ?last)
  case more =>
    obtain ⟨-, n, rfl, -⟩ := memRead_some hr
    exact nextBounded_next (boundsInv_of_at hst h)
  case last =>
    obtain ⟨-, n, rfl, -⟩ := memRead_some hr
    exact nextBounded_next (boundsInv_of_at (st := .encTag) rfl h)

theorem valCopy_bounds (hst : s.eng.st = .valCopy) (h : BoundsAt .valCopy s) : BoundsInv (valCopy s) := by
  obtain ⟨hin, hj⟩ := h
  refine valCopy_rule BoundsInv
    (hFull := fun _ => boundsInv_endCommand _ _)
    (hBusR := fun _ _ => boundsInv_endCommand _ _)
    (hBusW := fun _ _ _ _ _ => boundsInv_endCommand _ _)
    (hMore := fun b t u hlt hr hw hne => ?more)
    (hLast := fun b t u hlt hr hw _ => ?last)
  case more =>
    obtain ⟨-, n, rfl, -⟩ := memRead_some hr
    obtain ⟨-, m, b', rfl, -⟩ := memWrite_some hw
    exact boundsInv_of_at hst ⟨hin.count_byte hlt, succ_lt_of_lt_of_ne hj hne⟩
  case last =>
    obtain ⟨-, n, rfl, -⟩ := memRead_some hr
    obtain ⟨-, m, b', rfl, -⟩ := memWrite_some hw
    exact boundsInv_of_at (st := .tokStart) rfl (hin.count_byte hlt).count_token

end tokens

/-! ## One step of each command -/

section commands
variable {s : State}

/-- The commands on one field go through no token and count none. -/
theorem fieldCommand_op {g : Regs} {i : Instr} (hop : g.op = i.op)
    (hi : i ∈ [Instr.decodeTag, .encodeTag, .decodeLength, .encodeLength]) : ¬ ScansTokens g ∧ ¬ CountsTokens g := by
  unfold ScansTokens CountsTokens
  rw [hop]
  revert hi
  cases i <;> decide

/-- The start of a command on one field may set any source offset: none of its bounds is on that (30_encoding.md R93). -/
theorem fieldCommand_dispatch {i : Instr} (hop : s.regs.op = i.op)
    (hi : i ∈ [Instr.decodeTag, .encodeTag, .decodeLength, .encodeLength]) (hst : s.eng.st = .dispatch)
    (h : BoundsInv s) (o : Word) : InsideToken { s with eng := { s.eng with off := o } } := by
  obtain ⟨hscan, htok⟩ := fieldCommand_op hop hi
  obtain ⟨-, -, hwcnt⟩ := boundsAt_of_boundsInv hst h
  exact ⟨fun hs => absurd hs hscan, fun hc => absurd hc htok, hwcnt⟩

/-- The start of a command on tokens goes before its first token (30_encoding.md R93). -/
theorem tokenCommand_dispatch (hst : s.eng.st = .dispatch) (h : BoundsInv s) :
    BoundsInv { s with eng := { s.eng with st := .tokStart } } :=
  have hbetween : BetweenTokens s := boundsAt_of_boundsInv hst h
  boundsInv_of_at (st := .tokStart) rfl hbetween

theorem execDecodeTag_bounds (hop : s.regs.op = Instr.decodeTag.op) (h : BoundsInv s) :
    NextBounded (execDecodeTag s) := by
  unfold execDecodeTag
  split
  next => exact nextBounded_next h
  next hst =>
    obtain ⟨hscan, -⟩ := fieldCommand_op hop (by decide)
    exact nextBounded_next (boundsInv_of_at (st := .tagFirst) rfl
      ⟨fieldCommand_dispatch hop (by decide) hst h s.regs.arg, fun hs => absurd hs hscan⟩)
  next hst =>
    exact nextBounded_next (tagFirst_bounds (boundsAt_of_boundsInv hst h) fun _ _ => boundsInv_endCommand _ _)
  next hst =>
    exact nextBounded_next (tagCont_bounds hst (boundsAt_of_boundsInv hst h) fun _ _ => boundsInv_endCommand _ _)
  next => exact nextBounded_fault _

theorem execDecodeLength_bounds (hop : s.regs.op = Instr.decodeLength.op) (h : BoundsInv s) :
    NextBounded (execDecodeLength s) := by
  unfold execDecodeLength
  split
  next => exact nextBounded_next h
  next hst =>
    exact nextBounded_next (boundsInv_of_at (st := .lenFirst) rfl
      (fieldCommand_dispatch hop (by decide) hst h s.regs.arg))
  next hst =>
    exact nextBounded_next (lenFirst_bounds (boundsAt_of_boundsInv hst h) fun _ _ => boundsInv_endCommand _ _)
  next hst =>
    exact nextBounded_next (lenBytes_bounds hst (boundsAt_of_boundsInv hst h) fun _ _ => boundsInv_endCommand _ _)
  next => exact nextBounded_fault _

theorem execEncodeTag_bounds (hop : s.regs.op = Instr.encodeTag.op) (h : BoundsInv s) :
    NextBounded (execEncodeTag s) := by
  unfold execEncodeTag
  split
  next => exact nextBounded_next h
  next hst =>
    exact nextBounded_next (boundsInv_of_at (st := .encTag) rfl
      (fieldCommand_dispatch hop (by decide) hst h s.eng.off))
  next hst => exact nextBounded_next (encTag_bounds (boundsAt_of_boundsInv hst h))
  next hst => exact emit_bounds hst (boundsAt_of_boundsInv hst h) fun _ _ _ => boundsInv_endCommand _ _
  next => exact nextBounded_fault _

theorem execEncodeLength_bounds (hop : s.regs.op = Instr.encodeLength.op) (h : BoundsInv s) :
    NextBounded (execEncodeLength s) := by
  unfold execEncodeLength
  split
  next => exact nextBounded_next h
  next hst =>
    exact nextBounded_next (boundsInv_of_at (st := .encLen) rfl
      (fieldCommand_dispatch hop (by decide) hst h s.eng.off))
  next hst => exact nextBounded_next (encLen_bounds (boundsAt_of_boundsInv hst h))
  next hst => exact emit_bounds hst (boundsAt_of_boundsInv hst h) fun _ _ _ => boundsInv_endCommand _ _
  next => exact nextBounded_fault _

theorem execParse_bounds (h : BoundsInv s) : NextBounded (execParse s) := by
  unfold execParse
  split
  next => exact nextBounded_next h
  next hst => exact nextBounded_next (tokenCommand_dispatch hst h)
  next hst => exact nextBounded_next (parseTokStart_bounds (boundsAt_of_boundsInv hst h))
  next hst => exact nextBounded_next (tagFirst_bounds (boundsAt_of_boundsInv hst h) tokenTagComplete_bounds)
  next hst => exact nextBounded_next (tagCont_bounds hst (boundsAt_of_boundsInv hst h) tokenTagComplete_bounds)
  next hst => exact nextBounded_next (lenFirst_bounds (boundsAt_of_boundsInv hst h) tokenLenComplete_bounds)
  next hst => exact nextBounded_next (lenBytes_bounds hst (boundsAt_of_boundsInv hst h) tokenLenComplete_bounds)
  next hst => exact nextBounded_next (parseTokEnd_bounds (boundsAt_of_boundsInv hst h))
  next hst => exact recWrite_bounds hst (boundsAt_of_boundsInv hst h)
  next => exact nextBounded_fault _

theorem execFind_bounds (hop : s.regs.op = Instr.find.op) (h : BoundsInv s) : NextBounded (execFind s) := by
  unfold execFind
  split
  next => exact nextBounded_next h
  next hst => exact nextBounded_next (tokenCommand_dispatch hst h)
  next hst => exact nextBounded_next (findTokStart_bounds hop (boundsAt_of_boundsInv hst h))
  next hst => exact nextBounded_next (tagFirst_bounds (boundsAt_of_boundsInv hst h) tokenTagComplete_bounds)
  next hst => exact nextBounded_next (tagCont_bounds hst (boundsAt_of_boundsInv hst h) tokenTagComplete_bounds)
  next hst => exact nextBounded_next (lenFirst_bounds (boundsAt_of_boundsInv hst h) tokenLenComplete_bounds)
  next hst => exact nextBounded_next (lenBytes_bounds hst (boundsAt_of_boundsInv hst h) tokenLenComplete_bounds)
  next hst => exact nextBounded_next (findTokEnd_bounds (boundsAt_of_boundsInv hst h))
  next => exact nextBounded_fault _

theorem execSerialize_bounds (hop : s.regs.op = Instr.serialize.op) (h : BoundsInv s) :
    NextBounded (execSerialize s) := by
  unfold execSerialize
  split
  next => exact nextBounded_next h
  next hst => exact nextBounded_next (tokenCommand_dispatch hst h)
  next hst => exact nextBounded_next (serializeTokStart_bounds (boundsAt_of_boundsInv hst h))
  next hst => exact recRead_bounds hst (boundsAt_of_boundsInv hst h)
  next hst => exact nextBounded_next (encTag_bounds (boundsAt_of_boundsInv hst h))
  next hst => exact nextBounded_next (encLen_bounds (boundsAt_of_boundsInv hst h))
  next hst =>
    exact emit_bounds hst (boundsAt_of_boundsInv hst h) fun _ hu => serializeFieldDone_bounds (hu.trans hop)
  next hst => exact nextBounded_next (valCopy_bounds hst (boundsAt_of_boundsInv hst h))
  next => exact nextBounded_fault _

theorem execReserved_bounds (h : BoundsInv s) : NextBounded (execReserved s) := by
  unfold execReserved
  split
  next => exact nextBounded_next h
  next => exact nextBounded_end _ _
  next => exact nextBounded_fault _

theorem exec_bounds {i : Instr} (hrun : Running i s) (h : BoundsInv s) : NextBounded (exec i s) := by
  obtain ⟨-, hop⟩ := hrun
  cases i with
  | decodeTag => exact execDecodeTag_bounds hop h
  | encodeTag => exact execEncodeTag_bounds hop h
  | decodeLength => exact execDecodeLength_bounds hop h
  | encodeLength => exact execEncodeLength_bounds hop h
  | parse => exact execParse_bounds h
  | serialize => exact execSerialize_bounds hop h
  | find => exact execFind_bounds hop h

theorem engineStep_bounds (h : BoundsInv s) : NextBounded (engineStep s) := by
  rcases engineStep_cases s with ⟨-, he⟩ | ⟨-, -, he⟩ | ⟨i, hrun, he⟩ <;> rw [he]
  · exact nextBounded_next h
  · exact execReserved_bounds h
  · exact exec_bounds hrun h

end commands

/-! ## The host's moves -/

/-- All a register write can do (10_state.md R22, R24): nothing while `BUSY`, else start a command or leave the engine alone. -/
theorem writeReg_cases (r : Reg) (w : Word) (s : State) :
    writeReg r w s = s ∨
      (s.regs.busy = false ∧ (writeReg r w s = startCommand w s ∨ (writeReg r w s).eng = s.eng)) := by
  unfold writeReg
  split
  next => exact .inl rfl
  next hbusy =>
    refine .inr ⟨by simpa using hbusy, ?_⟩
    cases r with
    | cmd => exact .inl rfl
    | _ => exact .inr rfl

/-- All a bus write can do (10_state.md R22, 92_eei_decisions.md D25): nothing, or write one register. -/
theorem portWrite_cases (a : Word) (width : Width) (w : Word) (s : State) :
    portWrite a width w s = s ∨ ∃ r, portWrite a width w s = writeReg r w s := by
  unfold portWrite
  split
  · split
    · exact .inr ⟨_, rfl⟩
    · exact .inl rfl
  · exact .inl rfl

/-- All a move of the host can do to the registers and the engine (00_scope.md R11): leave them, write one register, or reset
the block. -/
theorem hostMove_cases (m : HostMove) (s : State) :
    ((hostMove m s).regs = s.regs ∧ (hostMove m s).eng = s.eng) ∨ (∃ r w, hostMove m s = writeReg r w s)
      ∨ hostMove m s = resetBlock s := by
  cases m with
  | regWrite a width w =>
    rcases portWrite_cases a width w s with h | ⟨r, h⟩
    · exact .inl ⟨congrArg State.regs h, congrArg State.eng h⟩
    · exact .inr (.inl ⟨r, w, h⟩)
  | regRead a width =>
    simp only [hostMove]
    split <;> exact .inl ⟨rfl, rfl⟩
  | memWrite a v => exact .inl ⟨hostMemWrite_regs a v s, hostMemWrite_eng a v s⟩
  | memRead a => exact .inl ⟨rfl, rfl⟩
  | reset => exact .inr (.inr rfl)

/-- A command starts with every offset and count at 0 (10_state.md R24). -/
theorem startCommand_bounds (w : Word) (s : State) : BoundsInv (startCommand w s) :=
  boundsInv_of_at (st := .dispatch) rfl ⟨fun _ => Nat.zero_le _, fun _ => Nat.zero_le _, fun _ => Nat.zero_le _⟩

/-- A register write changes a bound only while the engine is idle. -/
theorem writeReg_bounds {s : State} (hbusy : s.regs.busy = true ↔ s.eng.st ≠ .idle) (h : BoundsInv s) (r : Reg)
    (w : Word) : BoundsInv (writeReg r w s) := by
  rcases writeReg_cases r w s with he | ⟨hb, he | he⟩
  · rwa [he]
  · rw [he]
    exact startCommand_bounds w s
  · have hidle : s.eng.st = .idle := by simpa [hb] using hbusy
    exact boundsInv_of_idle (by rw [he, hidle])

theorem hostMove_bounds {s : State} (hbusy : s.regs.busy = true ↔ s.eng.st ≠ .idle) (h : BoundsInv s) (m : HostMove) :
    BoundsInv (hostMove m s) := by
  rcases hostMove_cases m s with ⟨hr, he⟩ | ⟨r, w, hw⟩ | hw
  · exact boundsInv_congr hr he h
  · rw [hw]
    exact writeReg_bounds hbusy h r w
  · rw [hw]
    exact boundsInv_of_idle rfl

/-! ## Every step -/

/-- Settles O38: whoever moves, the bounds are kept. Of the engine's invariant only `BUSY` is needed: it keeps the host from
moving a bound under a running command. -/
theorem everyStepKeepsBounds : Obligations.EveryStepKeepsBounds := by
  intro s t heng h hstep
  obtain ⟨⟨hbusy, -⟩, -⟩ := heng
  rcases step_cases s with ⟨l, he⟩ | ⟨m, l, he⟩ | ⟨l, he⟩ <;> rw [he] at hstep
  · exact engineStep_bounds (s := s.withSched l) (boundsInv_congr rfl rfl h) t hstep
  · cases hstep
    exact hostMove_bounds (s := s.withSched l) hbusy (boundsInv_congr rfl rfl h) m
  · cases hstep
    exact boundsInv_congr (s := s) rfl rfl h

end Sys2Proof.Bounds
end

section
/-! PROOF. The engine never lacks a rule (10_state.md R25, R32, R33, R36). The invariant is read as an assertion on the FSM state
the engine is in; each state's action answers, and leads to a state of its command that meets the next assertion. -/
namespace Sys2Proof.EngineRules
open Sys2Proof Sys2Proof.Machine Sys2Proof.Laws

/-! ## The invariant, FSM state by FSM state -/

/-- The registers show a running command that uses FSM state `st` (10_state.md R25, R32, R33). -/
def MayBeIn (st : Fsm) (g : Regs) : Prop :=
  g.busy = true ∧ g.done = false ∧ g.err = 0 ∧ usesState g.op st = true

/-- The range of the byte index that an FSM state counts with (10_state.md R30). -/
def IndexAt : Fsm → Engine → Prop
  | .recWrite, e => e.k < 12#4
  | .recRead, e => e.k < 12#4
  | .emit, e => e.ei < e.en ∧ e.en ≤ 5#3
  | .lenBytes, e => 1#3 ≤ e.nrem ∧ e.nrem ≤ 4#3
  | _, _ => True

/-- No command uses IDLE: it is the engine at rest (10_state.md R32, R35). -/
theorem usesState_idle (op : BitVec 3) : usesState op .idle = false := by
  revert op
  decide

theorem MayBeIn.congr {st : Fsm} {g g' : Regs} (h : MayBeIn st g) (he : g' = g) : MayBeIn st g' := he ▸ h

/-- A running command may go on to every FSM state it uses. -/
theorem MayBeIn.move {st st' : Fsm} {g : Regs} {i : Instr} (h : MayBeIn st g) (hop : g.op = i.op)
    (huse : usesState i.op st' = true) : MayBeIn st' g := by
  obtain ⟨hbusy, hdone, herr, -⟩ := h
  exact ⟨hbusy, hdone, herr, hop ▸ huse⟩

theorem not_mayBeIn {st : Fsm} {g : Regs} {i : Instr} (hop : g.op = i.op) (hno : usesState i.op st = false) :
    ¬ MayBeIn st g := by
  rintro ⟨-, -, -, huse⟩
  rw [hop, hno] at huse
  cases huse

/-- A source byte is read with every register left alone (20_memory.md R60, R62). -/
theorem readSrc_regs {o : Word} {s t : State} {b : Byte} (h : readSrc o s = some (b, t)) : t.regs = s.regs := by
  obtain ⟨-, n, rfl, -⟩ := memRead_some h
  rfl

theorem readSrc_eng {o : Word} {s t : State} {b : Byte} (h : readSrc o s = some (b, t)) : t.eng = s.eng := by
  obtain ⟨-, n, rfl, -⟩ := memRead_some h
  rfl

theorem indexInv_iff (s : State) : IndexInv s ↔ IndexAt s.eng.st s.eng := by
  unfold IndexInv
  cases hst : s.eng.st <;> simp [IndexAt]

/-- A running engine meets the invariant when its registers and byte index fit the FSM state it is in. -/
theorem engineInv_of_at {s : State} {st : Fsm} (hst : s.eng.st = st) (hg : MayBeIn st s.regs)
    (hidx : IndexAt st s.eng) : EngineInv s := by
  subst hst
  obtain ⟨hbusy, hdone, herr, huse⟩ := hg
  have hne : s.eng.st ≠ .idle := fun h => by simp [h, usesState_idle] at huse
  exact ⟨⟨by simp [hbusy, hne], fun _ => hdone, fun _ => herr, by simp [herr]⟩, fun _ => huse, (indexInv_iff s).2 hidx⟩

/-- While the engine is not at rest, its registers fit the FSM state it is in. -/
theorem mayBeIn_of_engineInv {s : State} (hne : s.eng.st ≠ .idle) (h : EngineInv s) : MayBeIn s.eng.st s.regs := by
  obtain ⟨⟨hbusy, hdone, herr, -⟩, hlegal, -⟩ := h
  have hb := hbusy.2 hne
  exact ⟨hb, hdone hb, herr hb, hlegal hne⟩

theorem indexAt_of_engineInv {s : State} (h : EngineInv s) : IndexAt s.eng.st s.eng := by
  obtain ⟨-, -, hidx⟩ := h
  exact (indexInv_iff s).1 hidx

/-- An idle engine meets the invariant when `STATUS` shows no running command. -/
theorem engineInv_of_idle {s : State} (hst : s.eng.st = .idle) (hbusy : s.regs.busy = false) (herr : s.regs.err ≤ 8#4) :
    EngineInv s :=
  ⟨⟨by simp [hst, hbusy], by simp [hbusy], by simp [hbusy], herr⟩, fun h => absurd hst h, by
    rw [indexInv_iff, hst]
    trivial⟩

/-- However a command ends, the invariant holds (60_exceptions.md R271, R272, R281). -/
theorem engineInv_endCommand (e : Option Err) (s : State) : EngineInv (endCommand e s) :=
  engineInv_of_idle (by simp) (by simp) (endCommand_err_le e s)

/-- The invariant speaks of the registers and the engine alone. -/
theorem engineInv_congr {s t : State} (hr : t.regs = s.regs) (he : t.eng = s.eng) (h : EngineInv s) : EngineInv t := by
  cases s
  cases t
  cases hr
  cases he
  exact h

/-- An engine action answers a next state that meets the invariant. -/
def AnswersInv (o : Out) : Prop := ∃ t, o = .next t ∧ EngineInv t

theorem answersInv_next {t : State} (h : EngineInv t) : AnswersInv (.next t) := ⟨t, rfl, h⟩

theorem answersInv_end (e : Option Err) (s : State) : AnswersInv (.next (endCommand e s)) :=
  answersInv_next (engineInv_endCommand e s)

/-! ## Each FSM state's action -/

section actions
variable {s : State} {complete : State → State}

theorem tagFirst_inv (hcont : MayBeIn .tagCont s.regs) (hc : ∀ u, u.regs = s.regs → EngineInv (complete u)) :
    EngineInv (tagFirst complete s) :=
  tagFirst_rule EngineInv
    (hEnd := fun _ => engineInv_endCommand _ _)
    (hBus := fun _ _ => engineInv_endCommand _ _)
    (hShort := fun _ _ _ hr _ => hc _ (readSrc_regs hr :))
    (hExt := fun _ _ _ hr _ => engineInv_of_at (st := .tagCont) rfl (hcont.congr (readSrc_regs hr :)) trivial)

theorem tagCont_inv (hst : s.eng.st = .tagCont) (h : MayBeIn .tagCont s.regs)
    (hc : ∀ u, u.regs = s.regs → EngineInv (complete u)) : EngineInv (tagCont complete s) :=
  tagCont_rule EngineInv
    (hEnd := fun _ => engineInv_endCommand _ _)
    (hBus := fun _ _ => engineInv_endCommand _ _)
    (hErr := fun _ _ _ _ _ _ => engineInv_endCommand _ _)
    (hMore := fun _ t _ hr _ _ _ =>
      have he : t.eng.st = .tagCont := by rw [readSrc_eng hr, hst]
      engineInv_of_at (st := .tagCont) he (h.congr (readSrc_regs hr :)) trivial)
    (hLast := fun _ _ _ hr _ _ _ => hc _ (readSrc_regs hr :))

/-- The count of length bytes is 1 to 4 where LEN_BYTES begins (41_length_codec.md R150). -/
theorem nrem_range {n : BitVec 7} (hle : n ≤ 4#7) (hne : n ≠ 0#7) : 1#3 ≤ n.setWidth 3 ∧ n.setWidth 3 ≤ 4#3 := by
  bv_omega

theorem lenFirst_inv (hbytes : MayBeIn .lenBytes s.regs) (hc : ∀ u, u.regs = s.regs → EngineInv (complete u)) :
    EngineInv (lenFirst complete s) :=
  lenFirst_rule EngineInv
    (hEnd := fun _ => engineInv_endCommand _ _)
    (hBus := fun _ _ => engineInv_endCommand _ _)
    (hShort := fun _ _ _ hr _ => hc _ (readSrc_regs hr :))
    (hErr := fun _ _ _ _ _ _ _ => engineInv_endCommand _ _)
    (hLong := fun _ _ _ hr _ hle hne =>
      engineInv_of_at (st := .lenBytes) rfl (hbytes.congr (readSrc_regs hr :)) (nrem_range hle hne))

theorem lenBytes_inv (hst : s.eng.st = .lenBytes) (h : MayBeIn .lenBytes s.regs) (hidx : IndexAt .lenBytes s.eng)
    (hc : ∀ u, u.regs = s.regs → EngineInv (complete u)) : EngineInv (lenBytes complete s) := by
  refine lenBytes_rule EngineInv
    (hEnd := fun _ => engineInv_endCommand _ _)
    (hBus := fun _ _ => engineInv_endCommand _ _)
    (hErr := fun _ _ _ _ _ => engineInv_endCommand _ _)
    (hMore := fun b t _ hr _ hne => ?more)
    (hLast := fun _ _ _ hr _ _ => hc _ (readSrc_regs hr :))
  case more =>
    have hnrem : 1#3 ≤ s.eng.nrem - 1 ∧ s.eng.nrem - 1 ≤ 4#3 := by
      obtain ⟨hlo, hhi⟩ := hidx
      bv_omega
    rw [← readSrc_eng hr] at hst hnrem
    exact engineInv_of_at (st := .lenBytes) hst (h.congr (readSrc_regs hr :)) hnrem

theorem tokenTagComplete_inv {u : State} (h : MayBeIn .lenFirst u.regs) : EngineInv (tokenTagComplete u) :=
  engineInv_of_at (st := .lenFirst) rfl h trivial

theorem tokenLenComplete_inv {u : State} (h : MayBeIn .tokEnd u.regs) : EngineInv (tokenLenComplete u) :=
  engineInv_of_at (st := .tokEnd) rfl h trivial

theorem encTag_inv (hemit : MayBeIn .emit s.regs) : EngineInv (encTag s) :=
  encTag_rule EngineInv
    (hBad := fun _ => engineInv_endCommand _ _)
    (hLoad := fun bs hbs => engineInv_of_at (st := .emit) rfl hemit (by
      have := tagBytes_length hbs
      simp only [IndexAt]
      bv_omega))

theorem encLen_inv (hemit : MayBeIn .emit s.regs) : EngineInv (encLen s) :=
  encLen_rule EngineInv
    (hZero := fun _ => engineInv_endCommand _ _)
    (hLoad := fun _ => engineInv_of_at (st := .emit) rfl hemit (by
      have := lengthBytes_length s.eng.clen
      simp only [IndexAt]
      bv_omega))

/-- A count of bytes changes none of what a running command's registers show. -/
theorem MayBeIn.count {st : Fsm} {g : Regs} (h : MayBeIn st g) (r0 r1 : Word) :
    MayBeIn st { g with res0 := r0, res1 := r1 } := h

/-- The byte at `ei` lies in the buffer, so EMIT never lacks a rule. -/
theorem emit_inv {fieldDone : State → State} (hst : s.eng.st = .emit) (h : MayBeIn .emit s.regs)
    (hidx : IndexAt .emit s.eng)
    (hdone : ∀ u, (∀ st, MayBeIn st s.regs → MayBeIn st u.regs) → EngineInv (fieldDone u)) :
    AnswersInv (emit fieldDone s) := by
  obtain ⟨hlt, h5⟩ := hidx
  refine emit_rule AnswersInv
    (hFull := fun _ => answersInv_end _ _)
    (hStuck := fun _ hnone => ?stuck)
    (hBus := fun _ _ => answersInv_end _ _)
    (hMore := fun b t _ _ hw hne => ?more)
    (hLast := fun b t _ _ hw _ => ?last)
  case stuck =>
    have := Vector.getElem?_eq_none_iff.1 hnone
    bv_omega
  case more =>
    obtain ⟨-, n, b', rfl, -⟩ := memWrite_some hw
    have hei : s.eng.ei + 1 < s.eng.en := by bv_omega
    exact answersInv_next (engineInv_of_at (st := .emit) hst (h.count _ s.regs.res1) ⟨hei, h5⟩)
  case last =>
    obtain ⟨-, n, b', rfl, -⟩ := memWrite_some hw
    exact answersInv_next (hdone _ fun st hu => hu.count _ s.regs.res1)

theorem serializeFieldDone_inv {u : State} (hlen : MayBeIn .encLen u.regs) (hcopy : MayBeIn .valCopy u.regs) :
    EngineInv (serializeFieldDone u) := by
  unfold serializeFieldDone
  cases u.eng.fld with
  | tag => exact engineInv_of_at (st := .encLen) rfl hlen trivial
  | len => exact engineInv_of_at (st := .valCopy) rfl hcopy trivial

theorem parseTokStart_inv (htag : MayBeIn .tagFirst s.regs) : EngineInv (parseTokStart s) :=
  parseTokStart_rule EngineInv
    (hDone := fun _ => engineInv_endCommand _ _)
    (hFull := fun _ _ => engineInv_endCommand _ _)
    (hGo := fun _ _ => engineInv_of_at (st := .tagFirst) rfl htag trivial)

theorem parseTokEnd_inv (hrec : MayBeIn .recWrite s.regs) : EngineInv (parseTokEnd s) :=
  parseTokEnd_rule EngineInv
    (hOver := fun _ => engineInv_endCommand _ _)
    (hGo := fun _ => engineInv_of_at (st := .recWrite) rfl hrec (by simp [IndexAt]))

/-- The byte index of a record moves on within the record until its twelfth byte (42_parse.md R182, 43_serialize.md R211). -/
theorem record_index_succ {k : BitVec 4} (h : k < 12#4) (hne : k + 1 ≠ 12#4) : k + 1 < 12#4 := by bv_omega

theorem recWrite_inv (hst : s.eng.st = .recWrite) (h : MayBeIn .recWrite s.regs) (hidx : IndexAt .recWrite s.eng)
    (hstart : MayBeIn .tokStart s.regs) : AnswersInv (recWrite s) := by
  refine recWrite_rule AnswersInv
    (hStuck := fun hle => absurd hidx (BitVec.not_lt.2 hle))
    (hBus := fun _ => answersInv_end _ _)
    (hMore := fun b t _ hw hne => ?more)
    (hLast := fun b t _ hw _ => ?last)
  case more =>
    obtain ⟨-, n, b', rfl, -⟩ := memWrite_some hw
    exact answersInv_next (engineInv_of_at (st := .recWrite) hst h (record_index_succ hidx hne))
  case last =>
    obtain ⟨-, n, b', rfl, -⟩ := memWrite_some hw
    exact answersInv_next (engineInv_of_at (st := .tokStart) rfl (hstart.count _ _) trivial)

theorem findTokStart_inv (htag : MayBeIn .tagFirst s.regs) : EngineInv (findTokStart s) :=
  findTokStart_rule EngineInv
    (hEnd := fun _ => engineInv_endCommand _ _)
    (hGo := fun _ => engineInv_of_at (st := .tagFirst) rfl htag trivial)

theorem findTokEnd_inv (hstart : MayBeIn .tokStart s.regs) : EngineInv (findTokEnd s) :=
  findTokEnd_rule EngineInv
    (hOver := fun _ => engineInv_endCommand _ _)
    (hHit := fun _ _ => engineInv_endCommand _ _)
    (hSkip := fun _ _ => engineInv_of_at (st := .tokStart) rfl hstart trivial)

theorem serializeTokStart_inv (hrec : MayBeIn .recRead s.regs) : EngineInv (serializeTokStart s) :=
  serializeTokStart_rule EngineInv
    (hDone := fun _ => engineInv_endCommand _ _)
    (hGo := fun _ => engineInv_of_at (st := .recRead) rfl hrec (by simp [IndexAt]))

theorem recRead_inv (hst : s.eng.st = .recRead) (h : MayBeIn .recRead s.regs) (hidx : IndexAt .recRead s.eng)
    (htag : MayBeIn .encTag s.regs) : AnswersInv (recRead s) := by
  refine recRead_rule AnswersInv
    (hStuck := fun hle => absurd hidx (BitVec.not_lt.2 hle))
    (hBus := fun _ => answersInv_end _ _)
    (hMore := fun b t _ hr hne => ?more)
    (hLast := fun b t _ hr _ => ?last)
  case more =>
    obtain ⟨-, n, rfl, -⟩ := memRead_some hr
    exact answersInv_next (engineInv_of_at (st := .recRead) hst h (record_index_succ hidx hne))
  case last =>
    obtain ⟨-, n, rfl, -⟩ := memRead_some hr
    exact answersInv_next (engineInv_of_at (st := .encTag) rfl htag trivial)

theorem valCopy_inv (hst : s.eng.st = .valCopy) (h : MayBeIn .valCopy s.regs) (hstart : MayBeIn .tokStart s.regs) :
    EngineInv (valCopy s) := by
  refine valCopy_rule EngineInv
    (hFull := fun _ => engineInv_endCommand _ _)
    (hBusR := fun _ _ => engineInv_endCommand _ _)
    (hBusW := fun _ _ _ _ _ => engineInv_endCommand _ _)
    (hMore := fun b t u _ hr hw _ => ?more)
    (hLast := fun b t u _ hr hw _ => ?last)
  case more =>
    obtain ⟨-, n, rfl, -⟩ := memRead_some hr
    obtain ⟨-, m, b', rfl, -⟩ := memWrite_some hw
    exact engineInv_of_at (st := .valCopy) hst (h.count _ s.regs.res1) trivial
  case last =>
    obtain ⟨-, n, rfl, -⟩ := memRead_some hr
    obtain ⟨-, m, b', rfl, -⟩ := memWrite_some hw
    exact engineInv_of_at (st := .tokStart) rfl (hstart.count _ _) trivial

end actions

/-! ## One step of each command -/

section commands
variable {s : State}

/-- DISPATCH goes on to a state of its command, with the registers left alone (30_encoding.md R93). -/
theorem dispatch_inv {i : Instr} {e : Engine} {st : Fsm} (hop : s.regs.op = i.op) (h : MayBeIn s.eng.st s.regs)
    (he : e.st = st) (hidx : IndexAt st e) (huse : usesState i.op st = true) : AnswersInv (.next { s with eng := e }) :=
  answersInv_next (engineInv_of_at he (h.move hop huse) hidx)

theorem execDecodeTag_inv (hop : s.regs.op = Instr.decodeTag.op) (h : MayBeIn s.eng.st s.regs) :
    AnswersInv (execDecodeTag s) := by
  unfold execDecodeTag
  cases hst : s.eng.st with
  | dispatch => exact dispatch_inv hop h (st := .tagFirst) rfl trivial rfl
  | tagFirst => exact answersInv_next (tagFirst_inv (h.move hop rfl) fun _ _ => engineInv_endCommand _ _)
  | tagCont => exact answersInv_next (tagCont_inv hst (h.move hop rfl) fun _ _ => engineInv_endCommand _ _)
  | _ => exact absurd (hst ▸ h) (not_mayBeIn hop rfl)

theorem execEncodeTag_inv (hop : s.regs.op = Instr.encodeTag.op) (h : MayBeIn s.eng.st s.regs)
    (hidx : IndexAt s.eng.st s.eng) : AnswersInv (execEncodeTag s) := by
  unfold execEncodeTag
  cases hst : s.eng.st with
  | dispatch => exact dispatch_inv hop h (st := .encTag) rfl trivial rfl
  | encTag => exact answersInv_next (encTag_inv (h.move hop rfl))
  | emit => exact emit_inv hst (h.move hop rfl) (hst ▸ hidx) fun _ _ => engineInv_endCommand _ _
  | _ => exact absurd (hst ▸ h) (not_mayBeIn hop rfl)

theorem execDecodeLength_inv (hop : s.regs.op = Instr.decodeLength.op) (h : MayBeIn s.eng.st s.regs)
    (hidx : IndexAt s.eng.st s.eng) : AnswersInv (execDecodeLength s) := by
  unfold execDecodeLength
  cases hst : s.eng.st with
  | dispatch => exact dispatch_inv hop h (st := .lenFirst) rfl trivial rfl
  | lenFirst => exact answersInv_next (lenFirst_inv (h.move hop rfl) fun _ _ => engineInv_endCommand _ _)
  | lenBytes =>
    exact answersInv_next (lenBytes_inv hst (h.move hop rfl) (hst ▸ hidx) fun _ _ => engineInv_endCommand _ _)
  | _ => exact absurd (hst ▸ h) (not_mayBeIn hop rfl)

theorem execEncodeLength_inv (hop : s.regs.op = Instr.encodeLength.op) (h : MayBeIn s.eng.st s.regs)
    (hidx : IndexAt s.eng.st s.eng) : AnswersInv (execEncodeLength s) := by
  unfold execEncodeLength
  cases hst : s.eng.st with
  | dispatch => exact dispatch_inv hop h (st := .encLen) rfl trivial rfl
  | encLen => exact answersInv_next (encLen_inv (h.move hop rfl))
  | emit => exact emit_inv hst (h.move hop rfl) (hst ▸ hidx) fun _ _ => engineInv_endCommand _ _
  | _ => exact absurd (hst ▸ h) (not_mayBeIn hop rfl)

theorem execParse_inv (hop : s.regs.op = Instr.parse.op) (h : MayBeIn s.eng.st s.regs)
    (hidx : IndexAt s.eng.st s.eng) : AnswersInv (execParse s) := by
  have htag (u : State) (hu : u.regs = s.regs) : EngineInv (tokenTagComplete u) :=
    tokenTagComplete_inv ((h.move hop rfl).congr hu)
  have hlen (u : State) (hu : u.regs = s.regs) : EngineInv (tokenLenComplete u) :=
    tokenLenComplete_inv ((h.move hop rfl).congr hu)
  unfold execParse
  cases hst : s.eng.st with
  | dispatch => exact dispatch_inv hop h (st := .tokStart) rfl trivial rfl
  | tokStart => exact answersInv_next (parseTokStart_inv (h.move hop rfl))
  | tagFirst => exact answersInv_next (tagFirst_inv (h.move hop rfl) htag)
  | tagCont => exact answersInv_next (tagCont_inv hst (h.move hop rfl) htag)
  | lenFirst => exact answersInv_next (lenFirst_inv (h.move hop rfl) hlen)
  | lenBytes => exact answersInv_next (lenBytes_inv hst (h.move hop rfl) (hst ▸ hidx) hlen)
  | tokEnd => exact answersInv_next (parseTokEnd_inv (h.move hop rfl))
  | recWrite => exact recWrite_inv hst (h.move hop rfl) (hst ▸ hidx) (h.move hop rfl)
  | _ => exact absurd (hst ▸ h) (not_mayBeIn hop rfl)

theorem execFind_inv (hop : s.regs.op = Instr.find.op) (h : MayBeIn s.eng.st s.regs)
    (hidx : IndexAt s.eng.st s.eng) : AnswersInv (execFind s) := by
  have htag (u : State) (hu : u.regs = s.regs) : EngineInv (tokenTagComplete u) :=
    tokenTagComplete_inv ((h.move hop rfl).congr hu)
  have hlen (u : State) (hu : u.regs = s.regs) : EngineInv (tokenLenComplete u) :=
    tokenLenComplete_inv ((h.move hop rfl).congr hu)
  unfold execFind
  cases hst : s.eng.st with
  | dispatch => exact dispatch_inv hop h (st := .tokStart) rfl trivial rfl
  | tokStart => exact answersInv_next (findTokStart_inv (h.move hop rfl))
  | tagFirst => exact answersInv_next (tagFirst_inv (h.move hop rfl) htag)
  | tagCont => exact answersInv_next (tagCont_inv hst (h.move hop rfl) htag)
  | lenFirst => exact answersInv_next (lenFirst_inv (h.move hop rfl) hlen)
  | lenBytes => exact answersInv_next (lenBytes_inv hst (h.move hop rfl) (hst ▸ hidx) hlen)
  | tokEnd => exact answersInv_next (findTokEnd_inv (h.move hop rfl))
  | _ => exact absurd (hst ▸ h) (not_mayBeIn hop rfl)

theorem execSerialize_inv (hop : s.regs.op = Instr.serialize.op) (h : MayBeIn s.eng.st s.regs)
    (hidx : IndexAt s.eng.st s.eng) : AnswersInv (execSerialize s) := by
  have hdone (u : State) (hu : ∀ st, MayBeIn st s.regs → MayBeIn st u.regs) : EngineInv (serializeFieldDone u) :=
    serializeFieldDone_inv (hu _ (h.move hop rfl)) (hu _ (h.move hop rfl))
  unfold execSerialize
  cases hst : s.eng.st with
  | dispatch => exact dispatch_inv hop h (st := .tokStart) rfl trivial rfl
  | tokStart => exact answersInv_next (serializeTokStart_inv (h.move hop rfl))
  | recRead => exact recRead_inv hst (h.move hop rfl) (hst ▸ hidx) (h.move hop rfl)
  | encTag => exact answersInv_next (encTag_inv (h.move hop rfl))
  | encLen => exact answersInv_next (encLen_inv (h.move hop rfl))
  | emit => exact emit_inv hst (h.move hop rfl) (hst ▸ hidx) hdone
  | valCopy => exact answersInv_next (valCopy_inv hst (h.move hop rfl) (h.move hop rfl))
  | _ => exact absurd (hst ▸ h) (not_mayBeIn hop rfl)

/-- The reserved opcode uses DISPATCH alone, where it ends with `BadArgument` (30_encoding.md R92, R93). -/
theorem execReserved_inv (hop : decodeOp s.regs.op = .error .reservedOp) (h : MayBeIn s.eng.st s.regs) :
    AnswersInv (execReserved s) := by
  obtain ⟨-, -, -, huse⟩ := h
  have hst : s.eng.st = .dispatch := by simpa [usesState, hop] using huse
  unfold execReserved
  rw [hst]
  exact answersInv_end _ _

theorem exec_inv {i : Instr} (hrun : Running i s) (h : EngineInv s) : AnswersInv (exec i s) := by
  obtain ⟨hne, hop⟩ := hrun
  have hg := mayBeIn_of_engineInv hne h
  have hidx := indexAt_of_engineInv h
  cases i with
  | decodeTag => exact execDecodeTag_inv hop hg
  | encodeTag => exact execEncodeTag_inv hop hg hidx
  | decodeLength => exact execDecodeLength_inv hop hg hidx
  | encodeLength => exact execEncodeLength_inv hop hg hidx
  | parse => exact execParse_inv hop hg hidx
  | serialize => exact execSerialize_inv hop hg hidx
  | find => exact execFind_inv hop hg hidx

/-- Where the invariant holds, the engine has a step, and keeps the invariant. -/
theorem engineStep_inv (h : EngineInv s) : AnswersInv (engineStep s) := by
  rcases engineStep_cases s with ⟨-, he⟩ | ⟨hne, hop, he⟩ | ⟨i, hrun, he⟩ <;> rw [he]
  · exact answersInv_next h
  · exact execReserved_inv hop (mayBeIn_of_engineInv hne h)
  · exact exec_inv hrun h

end commands

/-! ## The host's moves -/

/-- Every opcode, the reserved one too, starts in DISPATCH (10_state.md R24, 30_encoding.md R92). -/
theorem usesState_dispatch (op : BitVec 3) : usesState op .dispatch = true := by
  revert op
  decide

theorem startCommand_inv (w : Word) (s : State) : EngineInv (startCommand w s) :=
  engineInv_of_at (st := .dispatch) rfl ⟨rfl, rfl, rfl, usesState_dispatch _⟩ trivial

/-- A write to any register but `CMD` leaves the engine and `STATUS` as they were (10_state.md R22). -/
theorem writeReg_status {r : Reg} (hr : r ≠ .cmd) (w : Word) (s : State) :
    (writeReg r w s).eng = s.eng ∧ (writeReg r w s).regs.busy = s.regs.busy
      ∧ (writeReg r w s).regs.err = s.regs.err := by
  unfold writeReg
  split
  · exact ⟨rfl, rfl, rfl⟩
  · cases r with
    | cmd => exact absurd rfl hr
    | _ => exact ⟨rfl, rfl, rfl⟩

/-- While `BUSY`, a register write is ignored (10_state.md R22). -/
theorem writeReg_busy {s : State} (h : s.regs.busy = true) (r : Reg) (w : Word) : writeReg r w s = s := if_pos h

theorem writeReg_inv {s : State} (h : EngineInv s) (r : Reg) (w : Word) : EngineInv (writeReg r w s) := by
  cases hbusy : s.regs.busy with
  | true => rwa [writeReg_busy hbusy]
  | false =>
    by_cases hr : r = .cmd
    · subst hr
      rw [writeReg, if_neg (by simp [hbusy])]
      exact startCommand_inv w s
    · obtain ⟨⟨hiff, -, -, herr⟩, -⟩ := h
      obtain ⟨he, hb, hcode⟩ := writeReg_status hr w s
      have hidle : s.eng.st = .idle := by simpa [hbusy] using hiff
      exact engineInv_of_idle (by rw [he, hidle]) (hb.trans hbusy) (hcode ▸ herr)

theorem hostMove_inv {s : State} (h : EngineInv s) (m : HostMove) : EngineInv (hostMove m s) := by
  rcases Bounds.hostMove_cases m s with ⟨hr, he⟩ | ⟨r, w, hw⟩ | hw
  · exact engineInv_congr hr he h
  · rw [hw]
    exact writeReg_inv h r w
  · rw [hw]
    exact engineInv_of_idle rfl rfl (by simp [Regs.zero])

/-! ## Every step -/

/-- Whoever moves, the machine answers, and keeps the invariant. -/
theorem step_inv {s : State} (h : EngineInv s) : AnswersInv (step s) := by
  rcases step_cases s with ⟨l, he⟩ | ⟨m, l, he⟩ | ⟨l, he⟩ <;> rw [he]
  · exact engineStep_inv (s := s.withSched l) (engineInv_congr rfl rfl h)
  · exact answersInv_next (hostMove_inv (s := s.withSched l) (engineInv_congr rfl rfl h) m)
  · exact answersInv_next (engineInv_congr (s := s) rfl rfl h)

/-- Settles O35: the step is the one that `step_inv` gives. -/
theorem everyStepKeepsEngineInv : Obligations.EveryStepKeepsEngineInv := by
  intro s t h hstep
  obtain ⟨u, hu, hinv⟩ := step_inv h
  cases hu.symm.trans hstep
  exact hinv

/-- Settles O36: no FSM state of a command lacks a rule, and no byte index leaves its buffer. -/
theorem machineNeverStops : Obligations.MachineNeverStops := by
  intro s h
  obtain ⟨t, ht, -⟩ := step_inv h
  exact ⟨t, ht⟩

end Sys2Proof.EngineRules
end

section
/-! PROOF. What one engine step leaves unchanged (10_state.md R22, R27, R30), and what the result registers hold (R27). Each FSM
state's action is read once as its effect; the frames of the commands and the results invariant follow from the effects. -/
namespace Sys2Proof.Effects
open Sys2Proof Sys2Proof.Machine Sys2Proof.Laws

/-! ## The parts of the state that an engine step leaves alone -/

/-- What no engine step changes: the platform, `CMD`, the argument registers, the schedule, what the host has read, and the marks
of races. -/
structure Setting where
  plat : Platform
  op : BitVec 3
  srcAddr : Word
  srcLen : Word
  dstAddr : Word
  dstCap : Word
  tokAddr : Word
  tokN : Word
  arg : Word
  sched : List Turn
  seen : List Word
  raced : Bool
  contested : List Nat
  before : Memory

def setting (s : State) : Setting :=
  { plat := s.plat, op := s.regs.op, srcAddr := s.regs.srcAddr, srcLen := s.regs.srcLen, dstAddr := s.regs.dstAddr,
    dstCap := s.regs.dstCap, tokAddr := s.regs.tokAddr, tokN := s.regs.tokN, arg := s.regs.arg, sched := s.env.sched,
    seen := s.env.seen, raced := s.env.raced, contested := s.env.contested, before := s.env.before }

theorem setting_eq_iff (s t : State) :
    setting t = setting s ↔
      t.plat = s.plat ∧ t.regs.op = s.regs.op ∧ SameArguments t.regs s.regs ∧ t.env.sched = s.env.sched
        ∧ t.env.seen = s.env.seen ∧ t.env.raced = s.env.raced ∧ t.env.contested = s.env.contested
        ∧ t.env.before = s.env.before := by
  simp [setting, and_assoc]

@[simp] theorem setting_endCommand (e : Option Err) (s : State) : setting (endCommand e s) = setting s := by
  simp [setting]

/-- The engine registers of the emitter and of VAL_COPY (10_state.md R30). -/
def outputPart (e : Engine) : Word × Vector Byte 5 × BitVec 3 × BitVec 3 × Fld × Word × Word :=
  (e.wcnt, e.ebuf, e.en, e.ei, e.fld, e.j, e.vaddr)

/-- The engine registers that count and hold a token record (10_state.md R30). -/
def recordPart (e : Engine) : Word × BitVec 4 × Vector Byte 12 := (e.cnt, e.k, e.recBuf)

/-- The engine registers that read fields of the source buffer (10_state.md R30). -/
def sourcePart (e : Engine) : Word × Word × Bool × BitVec 3 × Word × Word :=
  (e.off, e.acc, e.first, e.nrem, e.tstart, e.vstart)

/-- An engine action has the effect `P` wherever it answers a next state. -/
def OnNext (P : State → Prop) (o : Out) : Prop := ∀ t, o = .next t → P t

theorem onNext_next {P : State → Prop} {t : State} (h : P t) : OnNext P (.next t) := fun _ ht => by
  cases ht
  exact h

theorem onNext_fault {P : State → Prop} (r : Fault) : OnNext P (.fault r) := fun _ ht => by cases ht

/-! ## Reading: DECODE_TAG, DECODE_LENGTH, FIND, and PARSE away from REC_WRITE -/

/-- A step that stores nothing: memory and the registers for output and records stay, and the host-visible registers too while
the command goes on. -/
structure ReadEffect (s t : State) : Prop where
  setting_eq : setting t = setting s
  mem_eq : t.mem = s.mem
  output_eq : outputPart t.eng = outputPart s.eng
  record_eq : recordPart t.eng = recordPart s.eng
  regs_eq : t.eng.st ≠ .idle → t.regs = s.regs

theorem ReadEffect.refl (s : State) : ReadEffect s s := ⟨rfl, rfl, rfl, rfl, fun _ => rfl⟩

/-- The FSM states inside a token or a field, where `tstart` stays (42_parse.md R180). -/
def Inside (st : Fsm) : Prop := st ≠ .dispatch ∧ st ≠ .tokStart

/-- A step on a field of the source buffer, which stays inside its token. -/
structure FieldEffect (s t : State) : Prop extends ReadEffect s t where
  inside : t.eng.st ≠ .idle → Inside t.eng.st ∧ t.eng.tstart = s.eng.tstart

/-- A command that ends, with some result registers set in the same step, leaves all else (60_exceptions.md R271, R272). -/
theorem fieldEffect_end {s u : State} (e : Option Err) (hset : setting u = setting s := by rfl)
    (hmem : u.mem = s.mem := by rfl) (hout : outputPart u.eng = outputPart s.eng := by rfl)
    (hrec : recordPart u.eng = recordPart s.eng := by rfl) : FieldEffect s (endCommand e u) where
  setting_eq := (setting_endCommand e u).trans hset
  mem_eq := (endCommand_mem u e).trans hmem
  output_eq := by rw [endCommand_eng]; exact hout
  record_eq := by rw [endCommand_eng]; exact hrec
  regs_eq := fun h => absurd (by simp) h
  inside := fun h => absurd (by simp) h

/-- What follows a source byte in the same step has the effect of the whole step: the byte's own effect is on the field's
registers alone. -/
theorem FieldEffect.after_readSrc {o : Word} {b : Byte} {s t u : State} {e : Engine} (hr : readSrc o s = some (b, t))
    (h : FieldEffect { t with eng := e } u) (hout : outputPart e = outputPart t.eng := by rfl)
    (hrec : recordPart e = recordPart t.eng := by rfl) (hstart : e.tstart = t.eng.tstart := by rfl) : FieldEffect s u := by
  obtain ⟨-, n, rfl, -⟩ := memRead_some hr
  exact {
    setting_eq := h.setting_eq
    mem_eq := h.mem_eq
    output_eq := h.output_eq.trans hout
    record_eq := h.record_eq.trans hrec
    regs_eq := h.regs_eq
    inside := fun hne => ⟨(h.inside hne).1, (h.inside hne).2.trans hstart⟩ }

/-- Inside a token, nothing done is such a step. -/
theorem FieldEffect.refl {s : State} (h : Inside s.eng.st) : FieldEffect s s :=
  ⟨⟨rfl, rfl, rfl, rfl, fun _ => rfl⟩, fun _ => ⟨h, rfl⟩⟩

section fields
variable {s : State} {complete : State → State}

theorem tagFirst_effect (hc : ∀ u, FieldEffect u (complete u)) : FieldEffect s (tagFirst complete s) :=
  tagFirst_rule (FieldEffect s)
    (hEnd := fun _ => fieldEffect_end _)
    (hBus := fun _ _ => fieldEffect_end _)
    (hShort := fun _ _ _ hr _ => .after_readSrc hr (hc _))
    (hExt := fun _ _ _ hr _ => .after_readSrc hr (.refl (by simp [Inside])))

theorem fieldEffect_read_end {o : Word} {b : Byte} {t : State} (hr : readSrc o s = some (b, t)) (e : Option Err) :
    FieldEffect s (endCommand e t) := .after_readSrc (e := t.eng) hr (fieldEffect_end e)

theorem tagCont_effect (hst : s.eng.st = .tagCont) (hc : ∀ u, FieldEffect u (complete u)) :
    FieldEffect s (tagCont complete s) :=
  tagCont_rule (FieldEffect s)
    (hEnd := fun _ => fieldEffect_end _)
    (hBus := fun _ _ => fieldEffect_end _)
    (hErr := fun _ _ _ _ hr _ => fieldEffect_read_end hr _)
    (hMore := fun _ _ _ hr _ _ _ =>
      .after_readSrc hr (.refl (by simp [Inside, EngineRules.readSrc_eng hr, hst])))
    (hLast := fun _ _ _ hr _ _ _ => .after_readSrc hr (hc _))

theorem lenFirst_effect (hc : ∀ u, FieldEffect u (complete u)) : FieldEffect s (lenFirst complete s) :=
  lenFirst_rule (FieldEffect s)
    (hEnd := fun _ => fieldEffect_end _)
    (hBus := fun _ _ => fieldEffect_end _)
    (hShort := fun _ _ _ hr _ => .after_readSrc hr (hc _))
    (hErr := fun _ _ _ _ hr _ _ => fieldEffect_read_end hr _)
    (hLong := fun _ _ _ hr _ _ _ => .after_readSrc hr (.refl (by simp [Inside])))

theorem lenBytes_effect (hst : s.eng.st = .lenBytes) (hc : ∀ u, FieldEffect u (complete u)) :
    FieldEffect s (lenBytes complete s) :=
  lenBytes_rule (FieldEffect s)
    (hEnd := fun _ => fieldEffect_end _)
    (hBus := fun _ _ => fieldEffect_end _)
    (hErr := fun _ _ _ hr _ => fieldEffect_read_end hr _)
    (hMore := fun _ _ _ hr _ _ =>
      .after_readSrc hr (.refl (by simp [Inside, EngineRules.readSrc_eng hr, hst])))
    (hLast := fun _ _ _ hr _ _ => .after_readSrc hr (hc _))

theorem decodeTagComplete_effect (u : State) : FieldEffect u (decodeTagComplete u) := fieldEffect_end none

theorem decodeLengthComplete_effect (u : State) : FieldEffect u (decodeLengthComplete u) := fieldEffect_end none

theorem tokenTagComplete_effect (u : State) : FieldEffect u (tokenTagComplete u) :=
  ⟨⟨rfl, rfl, rfl, rfl, fun _ => rfl⟩, fun _ => ⟨by simp [Inside, tokenTagComplete], rfl⟩⟩

theorem tokenLenComplete_effect (u : State) : FieldEffect u (tokenLenComplete u) :=
  ⟨⟨rfl, rfl, rfl, rfl, fun _ => rfl⟩, fun _ => ⟨by simp [Inside, tokenLenComplete], rfl⟩⟩

theorem findTokStart_effect : ReadEffect s (findTokStart s) :=
  findTokStart_rule (ReadEffect s)
    (hEnd := fun _ => (fieldEffect_end _).toReadEffect)
    (hGo := fun _ => ⟨rfl, rfl, rfl, rfl, fun _ => rfl⟩)

theorem findTokEnd_effect : ReadEffect s (findTokEnd s) :=
  findTokEnd_rule (ReadEffect s)
    (hOver := fun _ => (fieldEffect_end _).toReadEffect)
    (hHit := fun _ _ => (fieldEffect_end none).toReadEffect)
    (hSkip := fun _ _ => ⟨rfl, rfl, rfl, rfl, fun _ => rfl⟩)

theorem execDecodeTag_effect : OnNext (ReadEffect s) (execDecodeTag s) := by
  unfold execDecodeTag
  split
  next => exact onNext_next (.refl s)
  next => exact onNext_next ⟨rfl, rfl, rfl, rfl, fun _ => rfl⟩
  next => exact onNext_next (tagFirst_effect decodeTagComplete_effect).toReadEffect
  next hst => exact onNext_next (tagCont_effect hst decodeTagComplete_effect).toReadEffect
  next => exact onNext_fault _

theorem execDecodeLength_effect : OnNext (ReadEffect s) (execDecodeLength s) := by
  unfold execDecodeLength
  split
  next => exact onNext_next (.refl s)
  next => exact onNext_next ⟨rfl, rfl, rfl, rfl, fun _ => rfl⟩
  next => exact onNext_next (lenFirst_effect decodeLengthComplete_effect).toReadEffect
  next hst => exact onNext_next (lenBytes_effect hst decodeLengthComplete_effect).toReadEffect
  next => exact onNext_fault _

theorem execFind_effect : OnNext (ReadEffect s) (execFind s) := by
  unfold execFind
  split
  next => exact onNext_next (.refl s)
  next => exact onNext_next ⟨rfl, rfl, rfl, rfl, fun _ => rfl⟩
  next => exact onNext_next findTokStart_effect
  next => exact onNext_next (tagFirst_effect tokenTagComplete_effect).toReadEffect
  next hst => exact onNext_next (tagCont_effect hst tokenTagComplete_effect).toReadEffect
  next => exact onNext_next (lenFirst_effect tokenLenComplete_effect).toReadEffect
  next hst => exact onNext_next (lenBytes_effect hst tokenLenComplete_effect).toReadEffect
  next => exact onNext_next findTokEnd_effect
  next => exact onNext_fault _

end fields

theorem exec_readEffect {i : Instr} (hi : i ∈ [Instr.decodeTag, .decodeLength, .find]) (s : State) :
    OnNext (ReadEffect s) (exec i s) := by
  cases i with
  | decodeTag => exact execDecodeTag_effect
  | decodeLength => exact execDecodeLength_effect
  | find => exact execFind_effect
  | _ => simp at hi

/-- Settles O28: the frame is the read effect, part by part. -/
theorem decodersAndFindFrame : Obligations.DecodersAndFindFrame := by
  intro i hi s t ht
  obtain ⟨hset, hmem, hout, hrec, hregs⟩ := exec_readEffect hi s t ht
  obtain ⟨hplat, hop, hargs, henv⟩ := (setting_eq_iff s t).1 hset
  simp only [outputPart, Prod.mk.injEq] at hout
  simp only [recordPart, Prod.mk.injEq] at hrec
  obtain ⟨hwcnt, hebuf, hen, hei, hfld, hj, hvaddr⟩ := hout
  obtain ⟨hcnt, hk, hrecBuf⟩ := hrec
  exact ⟨fun a => by rw [hmem], hmem, hplat, hop, hargs, hregs, hcnt, hwcnt, hk, hrecBuf, hebuf, hen, hei, hfld, hj,
    hvaddr, henv⟩

/-! ## PARSE -/

/-- PARSE's results in step with its counts: `RES0` the stored tokens, `RES1` where the last of them ends (10_state.md R27). -/
def ParseCounts (s : State) : Prop :=
  s.regs.res0 = s.eng.cnt
    ∧ (s.eng.st = .dispatch ∨ s.eng.st = .tokStart → s.regs.res1 = s.eng.off)
    ∧ (Inside s.eng.st → s.regs.res1 = s.eng.tstart)

/-- The address of the record byte that REC_WRITE writes next (42_parse.md R182). -/
def recordByteAddr (s : State) : Word := tokByteAddr s.regs.tokAddr s.eng.cnt (s.eng.k.setWidth 32)

/-- All a step of PARSE can do: only REC_WRITE stores a byte and counts a token, and the counts stay in step with the results. -/
structure ParseEffect (s t : State) : Prop where
  setting_eq : setting t = setting s
  output_eq : outputPart t.eng = outputPart s.eng
  mem_other : ∀ a, a ≠ (recordByteAddr s).toNat → t.mem.read a = s.mem.read a
  away : s.eng.st ≠ .recWrite → t.mem = s.mem ∧ t.eng.cnt = s.eng.cnt ∧ (t.eng.st ≠ .idle → t.regs = s.regs)
  res23_eq : t.eng.st ≠ .idle → t.regs.res2 = s.regs.res2 ∧ t.regs.res3 = s.regs.res3
  counts : t.eng.st ≠ .idle → ParseCounts s → ParseCounts t

theorem ReadEffect.cnt_eq {s t : State} (h : ReadEffect s t) : t.eng.cnt = s.eng.cnt :=
  congrArg Prod.fst h.record_eq

theorem ReadEffect.parseEffect {s t : State} (h : ReadEffect s t)
    (hcounts : t.eng.st ≠ .idle → ParseCounts s → ParseCounts t) : ParseEffect s t where
  setting_eq := h.setting_eq
  output_eq := h.output_eq
  mem_other := fun a _ => by rw [h.mem_eq]
  away := fun _ => ⟨h.mem_eq, h.cnt_eq, h.regs_eq⟩
  res23_eq := fun hne => by rw [h.regs_eq hne]; exact ⟨rfl, rfl⟩
  counts := hcounts

/-- Inside a token, a step on a field keeps the count and the start of the token. -/
theorem FieldEffect.parseEffect {s t : State} (h : FieldEffect s t) (hin : Inside s.eng.st) : ParseEffect s t :=
  h.toReadEffect.parseEffect fun hne ⟨hcnt, _, hstart⟩ => by
    obtain ⟨⟨hd, ht⟩, hkeep⟩ := h.inside hne
    exact ⟨by rw [h.regs_eq hne, hcnt, h.cnt_eq], fun hb => absurd hb (not_or.2 ⟨hd, ht⟩),
      fun _ => by rw [h.regs_eq hne, hstart hin, hkeep]⟩

theorem parseEffect_end (e : Option Err) (s : State) : ParseEffect s (endCommand e s) :=
  (fieldEffect_end e).toReadEffect.parseEffect fun hne => absurd (by simp) hne

section parse
variable {s : State}

theorem parseTokStart_effect (hst : s.eng.st = .tokStart) : ParseEffect s (parseTokStart s) :=
  parseTokStart_rule (ParseEffect s)
    (hDone := fun _ => parseEffect_end _ _)
    (hFull := fun _ _ => parseEffect_end _ _)
    (hGo := fun _ _ => ReadEffect.parseEffect ⟨rfl, rfl, rfl, rfl, fun _ => rfl⟩ fun _ ⟨hcnt, hoff, _⟩ =>
      ⟨hcnt, fun h => by simp at h, fun _ => hoff (.inr hst)⟩)

theorem parseTokEnd_effect (hst : s.eng.st = .tokEnd) : ParseEffect s (parseTokEnd s) :=
  parseTokEnd_rule (ParseEffect s)
    (hOver := fun _ => parseEffect_end _ _)
    (hGo := fun _ => {
      setting_eq := rfl
      output_eq := rfl
      mem_other := fun _ _ => rfl
      away := fun _ => ⟨rfl, rfl, fun _ => rfl⟩
      res23_eq := fun _ => ⟨rfl, rfl⟩
      counts := fun _ ⟨hcnt, _, hstart⟩ => ⟨hcnt, fun h => by simp at h, fun _ => hstart (by simp [Inside, hst])⟩ })

theorem recWrite_effect (hst : s.eng.st = .recWrite) : OnNext (ParseEffect s) (recWrite s) := by
  have hin : Inside s.eng.st := by simp [Inside, hst]
  refine recWrite_rule (OnNext (ParseEffect s))
    (hStuck := fun _ => onNext_fault _)
    (hBus := fun _ => onNext_next (parseEffect_end _ _))
    (hMore := fun b t _ hw _ => ?more)
    (hLast := fun b t _ hw _ => ?last)
  case more =>
    obtain ⟨-, n, b', rfl, -⟩ := memWrite_some hw
    exact onNext_next {
      setting_eq := rfl
      output_eq := rfl
      mem_other := fun a ha => read_write_other _ ha _
      away := fun h => absurd hst h
      res23_eq := fun _ => ⟨rfl, rfl⟩
      counts := fun _ h => h }
  case last =>
    obtain ⟨-, n, b', rfl, -⟩ := memWrite_some hw
    exact onNext_next {
      setting_eq := rfl
      output_eq := rfl
      mem_other := fun a ha => read_write_other _ ha _
      away := fun h => absurd hst h
      res23_eq := fun _ => ⟨rfl, rfl⟩
      counts := fun _ _ => ⟨rfl, fun _ => rfl, fun h => by simp [Inside] at h⟩ }

theorem execParse_effect : OnNext (ParseEffect s) (execParse s) := by
  unfold execParse
  split
  next => exact onNext_next ((ReadEffect.refl s).parseEffect fun _ h => h)
  next hst =>
    exact onNext_next (ReadEffect.parseEffect ⟨rfl, rfl, rfl, rfl, fun _ => rfl⟩ fun _ ⟨hcnt, hoff, _⟩ =>
      ⟨hcnt, fun _ => hoff (.inl hst), fun h => by simp [Inside] at h⟩)
  next hst => exact onNext_next (parseTokStart_effect hst)
  next hst => exact onNext_next ((tagFirst_effect tokenTagComplete_effect).parseEffect (by simp [Inside, hst]))
  next hst => exact onNext_next ((tagCont_effect hst tokenTagComplete_effect).parseEffect (by simp [Inside, hst]))
  next hst => exact onNext_next ((lenFirst_effect tokenLenComplete_effect).parseEffect (by simp [Inside, hst]))
  next hst => exact onNext_next ((lenBytes_effect hst tokenLenComplete_effect).parseEffect (by simp [Inside, hst]))
  next hst => exact onNext_next (parseTokEnd_effect hst)
  next hst => exact recWrite_effect hst
  next => exact onNext_fault _

end parse

/-- Settles O30: the frame is PARSE's effect, part by part. -/
theorem parseFrame : Obligations.ParseFrame := by
  intro s t ht
  obtain ⟨hset, hout, hmem, haway, hres, -⟩ := execParse_effect t ht
  obtain ⟨hplat, hop, hargs, henv⟩ := (setting_eq_iff s t).1 hset
  simp only [outputPart, Prod.mk.injEq] at hout
  obtain ⟨hwcnt, hebuf, hen, hei, hfld, hj, hvaddr⟩ := hout
  refine ⟨hmem, fun hst => ?_, fun hst => ?_, hplat, hop, hargs, hres, hwcnt, hebuf, hen, hei, hfld, hj, hvaddr, henv⟩
  · obtain ⟨hm, hcnt, -⟩ := haway hst
    exact ⟨fun a => by rw [hm], hcnt⟩
  · obtain ⟨-, -, hregs⟩ := haway hst
    exact hregs

/-! ## Writing: ENCODE_TAG, ENCODE_LENGTH and SERIALIZE -/

/-- A step that stores nothing and counts nothing: only the registers of the record and of the emitter change, and the
host-visible registers where the command ends. -/
structure LoadEffect (s t : State) : Prop where
  setting_eq : setting t = setting s
  mem_eq : t.mem = s.mem
  source_eq : sourcePart t.eng = sourcePart s.eng
  counts_eq : t.eng.wcnt = s.eng.wcnt ∧ t.eng.cnt = s.eng.cnt
  regs_eq : t.eng.st ≠ .idle → t.regs = s.regs

/-- The result registers follow the counts of bytes and tokens: both stay, a byte is counted, or in VAL_COPY a token too
(43_serialize.md R213). -/
def Counted (s t : State) : Prop :=
  (t.regs = s.regs ∧ t.eng.wcnt = s.eng.wcnt ∧ t.eng.cnt = s.eng.cnt)
    ∨ (t.regs = { s.regs with res0 := t.eng.wcnt } ∧ t.eng.cnt = s.eng.cnt)
    ∨ (s.eng.st = .valCopy ∧ t.regs = { s.regs with res0 := t.eng.wcnt, res1 := t.eng.cnt })

/-- All a step of the encoders and SERIALIZE can do: only EMIT and VAL_COPY store a byte and count. -/
structure WriteEffect (s t : State) : Prop where
  setting_eq : setting t = setting s
  source_eq : sourcePart t.eng = sourcePart s.eng
  mem_other : ∀ a, a ≠ (s.regs.dstAddr + s.eng.wcnt).toNat → t.mem.read a = s.mem.read a
  away : s.eng.st ≠ .emit → s.eng.st ≠ .valCopy →
    t.mem = s.mem ∧ t.eng.wcnt = s.eng.wcnt ∧ (t.eng.st ≠ .idle → t.regs = s.regs)
  counted : t.eng.st ≠ .idle → Counted s t

theorem LoadEffect.refl (s : State) : LoadEffect s s := ⟨rfl, rfl, rfl, ⟨rfl, rfl⟩, fun _ => rfl⟩

theorem loadEffect_end {s u : State} (e : Option Err) (hset : setting u = setting s := by rfl)
    (hmem : u.mem = s.mem := by rfl) (heng : u.eng = s.eng := by rfl) : LoadEffect s (endCommand e u) where
  setting_eq := (setting_endCommand e u).trans hset
  mem_eq := (endCommand_mem u e).trans hmem
  source_eq := by rw [endCommand_eng, heng]; rfl
  counts_eq := by rw [endCommand_eng, heng]; exact ⟨rfl, rfl⟩
  regs_eq := fun h => absurd (by simp) h

theorem LoadEffect.writeEffect {s t : State} (h : LoadEffect s t) : WriteEffect s t where
  setting_eq := h.setting_eq
  source_eq := h.source_eq
  mem_other := fun a _ => by rw [h.mem_eq]
  away := fun _ _ => ⟨h.mem_eq, h.counts_eq.1, h.regs_eq⟩
  counted := fun hne => .inl ⟨h.regs_eq hne, h.counts_eq⟩

theorem writeEffect_end (e : Option Err) (s : State) : WriteEffect s (endCommand e s) :=
  (loadEffect_end e).writeEffect

section writers
variable {s : State}

theorem encTag_effect : WriteEffect s (encTag s) :=
  encTag_rule (WriteEffect s)
    (hBad := fun _ => writeEffect_end _ _)
    (hLoad := fun _ _ => LoadEffect.writeEffect ⟨rfl, rfl, rfl, ⟨rfl, rfl⟩, fun _ => rfl⟩)

theorem encLen_effect : WriteEffect s (encLen s) :=
  encLen_rule (WriteEffect s)
    (hZero := fun _ => writeEffect_end _ _)
    (hLoad := fun _ => LoadEffect.writeEffect ⟨rfl, rfl, rfl, ⟨rfl, rfl⟩, fun _ => rfl⟩)

/-- The byte that EMIT has stored and counted, and what the command does in the same step after the field's last byte. -/
theorem LoadEffect.after_byte {u t : State} (h : LoadEffect u t) (hst : s.eng.st = .emit)
    (hmem : ∀ a, a ≠ (s.regs.dstAddr + s.eng.wcnt).toNat → u.mem.read a = s.mem.read a)
    (hset : setting u = setting s := by rfl) (hsource : sourcePart u.eng = sourcePart s.eng := by rfl)
    (hregs : u.regs = { s.regs with res0 := u.eng.wcnt } := by rfl) (hcnt : u.eng.cnt = s.eng.cnt := by rfl) :
    WriteEffect s t where
  setting_eq := h.setting_eq.trans hset
  source_eq := h.source_eq.trans hsource
  mem_other := fun a ha => by rw [h.mem_eq, hmem a ha]
  away := fun he => absurd hst he
  counted := fun hne => by
    obtain ⟨hw, hc⟩ := h.counts_eq
    exact .inr (.inl ⟨by rw [h.regs_eq hne, hregs, hw], hc.trans hcnt⟩)

theorem emit_effect {fieldDone : State → State} (hst : s.eng.st = .emit) (hdone : ∀ u, LoadEffect u (fieldDone u)) :
    OnNext (WriteEffect s) (emit fieldDone s) := by
  refine emit_rule (OnNext (WriteEffect s))
    (hFull := fun _ => onNext_next (writeEffect_end _ _))
    (hStuck := fun _ _ => onNext_fault _)
    (hBus := fun _ _ => onNext_next (writeEffect_end _ _))
    (hMore := fun b t _ _ hw _ => ?more)
    (hLast := fun b t _ _ hw _ => ?last)
  case more =>
    obtain ⟨-, n, b', rfl, -⟩ := memWrite_some hw
    exact onNext_next ((LoadEffect.refl _).after_byte hst fun a ha => read_write_other _ ha _)
  case last =>
    obtain ⟨-, n, b', rfl, -⟩ := memWrite_some hw
    exact onNext_next ((hdone _).after_byte hst fun a ha => read_write_other _ ha _)

theorem serializeFieldDone_effect (u : State) : LoadEffect u (serializeFieldDone u) := by
  unfold serializeFieldDone
  cases u.eng.fld <;> exact ⟨rfl, rfl, rfl, ⟨rfl, rfl⟩, fun _ => rfl⟩

theorem serializeTokStart_effect : WriteEffect s (serializeTokStart s) :=
  serializeTokStart_rule (WriteEffect s)
    (hDone := fun _ => writeEffect_end _ _)
    (hGo := fun _ => LoadEffect.writeEffect ⟨rfl, rfl, rfl, ⟨rfl, rfl⟩, fun _ => rfl⟩)

theorem recRead_effect : OnNext (WriteEffect s) (recRead s) := by
  refine recRead_rule (OnNext (WriteEffect s))
    (hStuck := fun _ => onNext_fault _)
    (hBus := fun _ => onNext_next (writeEffect_end _ _))
    (hMore := fun b t _ hr _ => ?more)
    (hLast := fun b t _ hr _ => ?last)
  all_goals
    obtain ⟨-, n, rfl, -⟩ := memRead_some hr
    exact onNext_next (LoadEffect.writeEffect ⟨rfl, rfl, rfl, ⟨rfl, rfl⟩, fun _ => rfl⟩)

theorem valCopy_effect (hst : s.eng.st = .valCopy) : WriteEffect s (valCopy s) := by
  refine valCopy_rule (WriteEffect s)
    (hFull := fun _ => writeEffect_end _ _)
    (hBusR := fun _ _ => writeEffect_end _ _)
    (hBusW := fun b t _ hr _ => ?busW)
    (hMore := fun b t u _ hr hw _ => ?more)
    (hLast := fun b t u _ hr hw _ => ?last)
  case busW =>
    obtain ⟨-, n, rfl, -⟩ := memRead_some hr
    exact (loadEffect_end (some .busError)).writeEffect
  case more =>
    obtain ⟨-, n, rfl, -⟩ := memRead_some hr
    obtain ⟨-, m, b', rfl, -⟩ := memWrite_some hw
    exact {
      setting_eq := rfl
      source_eq := rfl
      mem_other := fun a ha => read_write_other _ ha _
      away := fun _ h => absurd hst h
      counted := fun _ => .inr (.inl ⟨rfl, rfl⟩) }
  case last =>
    obtain ⟨-, n, rfl, -⟩ := memRead_some hr
    obtain ⟨-, m, b', rfl, -⟩ := memWrite_some hw
    exact {
      setting_eq := rfl
      source_eq := rfl
      mem_other := fun a ha => read_write_other _ ha _
      away := fun _ h => absurd hst h
      counted := fun _ => .inr (.inr ⟨hst, rfl⟩) }

theorem execEncodeTag_effect : OnNext (WriteEffect s) (execEncodeTag s) := by
  unfold execEncodeTag
  split
  next => exact onNext_next (LoadEffect.refl s).writeEffect
  next => exact onNext_next (LoadEffect.writeEffect ⟨rfl, rfl, rfl, ⟨rfl, rfl⟩, fun _ => rfl⟩)
  next => exact onNext_next encTag_effect
  next hst => exact emit_effect hst fun _ => loadEffect_end none
  next => exact onNext_fault _

theorem execEncodeLength_effect : OnNext (WriteEffect s) (execEncodeLength s) := by
  unfold execEncodeLength
  split
  next => exact onNext_next (LoadEffect.refl s).writeEffect
  next => exact onNext_next (LoadEffect.writeEffect ⟨rfl, rfl, rfl, ⟨rfl, rfl⟩, fun _ => rfl⟩)
  next => exact onNext_next encLen_effect
  next hst => exact emit_effect hst fun _ => loadEffect_end none
  next => exact onNext_fault _

theorem execSerialize_effect : OnNext (WriteEffect s) (execSerialize s) := by
  unfold execSerialize
  split
  next => exact onNext_next (LoadEffect.refl s).writeEffect
  next => exact onNext_next (LoadEffect.writeEffect ⟨rfl, rfl, rfl, ⟨rfl, rfl⟩, fun _ => rfl⟩)
  next => exact onNext_next serializeTokStart_effect
  next => exact recRead_effect
  next => exact onNext_next encTag_effect
  next => exact onNext_next encLen_effect
  next hst => exact emit_effect hst serializeFieldDone_effect
  next hst => exact onNext_next (valCopy_effect hst)
  next => exact onNext_fault _

end writers

theorem exec_writeEffect {i : Instr} (hi : i ∈ [Instr.encodeTag, .encodeLength, .serialize]) (s : State) :
    OnNext (WriteEffect s) (exec i s) := by
  cases i with
  | encodeTag => exact execEncodeTag_effect
  | encodeLength => exact execEncodeLength_effect
  | serialize => exact execSerialize_effect
  | _ => simp at hi

/-- No count of bytes or tokens reaches `RES2` or `RES3` (10_state.md R27). -/
theorem Counted.res23_eq {s t : State} (h : Counted s t) :
    t.regs.res2 = s.regs.res2 ∧ t.regs.res3 = s.regs.res3 := by
  rcases h with ⟨h, -⟩ | ⟨h, -⟩ | ⟨-, h⟩ <;> rw [h] <;> exact ⟨rfl, rfl⟩

/-- Settles O29: the frame is the write effect, part by part. -/
theorem encodersAndSerializeFrame : Obligations.EncodersAndSerializeFrame := by
  intro i hi s t ht
  obtain ⟨hset, hsource, hmem, haway, hcounted⟩ := exec_writeEffect hi s t ht
  obtain ⟨hplat, hop, hargs, henv⟩ := (setting_eq_iff s t).1 hset
  simp only [sourcePart, Prod.mk.injEq] at hsource
  obtain ⟨hoff, hacc, hfirst, hnrem, htstart, hvstart⟩ := hsource
  refine ⟨hmem, fun he hv => ?_, fun he hv => ?_, hplat, hop, hargs, fun hne => (hcounted hne).res23_eq, hoff, hacc,
    hfirst, hnrem, htstart, hvstart, henv⟩
  · obtain ⟨hm, hwcnt, -⟩ := haway he hv
    exact ⟨fun a => by rw [hm], hwcnt⟩
  · obtain ⟨-, -, hregs⟩ := haway he hv
    exact hregs

/-! ## Every engine step -/

theorem exec_setting (i : Instr) (s : State) : OnNext (fun t => setting t = setting s) (exec i s) := by
  intro t ht
  cases i with
  | decodeTag => exact (execDecodeTag_effect t ht).setting_eq
  | encodeTag => exact (execEncodeTag_effect t ht).setting_eq
  | decodeLength => exact (execDecodeLength_effect t ht).setting_eq
  | encodeLength => exact (execEncodeLength_effect t ht).setting_eq
  | parse => exact (execParse_effect t ht).setting_eq
  | serialize => exact (execSerialize_effect t ht).setting_eq
  | find => exact (execFind_effect t ht).setting_eq

/-- The reserved opcode only ends (30_encoding.md R93). -/
theorem execReserved_effect (s : State) : OnNext (LoadEffect s) (execReserved s) := by
  unfold execReserved
  split
  next => exact onNext_next (.refl s)
  next => exact onNext_next (loadEffect_end _)
  next => exact onNext_fault _

/-- No engine step changes the platform, the command, its arguments or the schedule (10_state.md R22, R24). -/
theorem engineStep_setting (s : State) : OnNext (fun t => setting t = setting s) (engineStep s) := by
  rcases engineStep_cases s with ⟨-, he⟩ | ⟨-, -, he⟩ | ⟨i, -, he⟩ <;> rw [he]
  · exact onNext_next rfl
  · exact fun t ht => (execReserved_effect s t ht).setting_eq
  · exact exec_setting i s

/-! ## Every turn -/

/-- While `BUSY`, only a reset among the host's moves reaches the registers or the engine (10_state.md R22,
70_reset_and_hazards.md R300). -/
theorem hostMove_busy {s : State} {m : HostMove} (hbusy : s.regs.busy = true) (hm : m ≠ .reset) :
    (hostMove m s).regs = s.regs ∧ (hostMove m s).eng = s.eng := by
  cases m with
  | reset => exact absurd rfl hm
  | regWrite a width w =>
    have hsame : portWrite a width w s = s := by
      rcases Bounds.portWrite_cases a width w s with h | ⟨r, h⟩
      · exact h
      · rw [h, EngineRules.writeReg_busy hbusy]
    exact ⟨congrArg State.regs hsame, congrArg State.eng hsame⟩
  | regRead a width =>
    simp only [hostMove]
    split <;> exact ⟨rfl, rfl⟩
  | memWrite a v => exact ⟨hostMemWrite_regs a v s, hostMemWrite_eng a v s⟩
  | memRead a => exact ⟨rfl, rfl⟩

/-- A move of the host leaves the turns still to come (log 3). -/
theorem hostMove_sched (m : HostMove) (s : State) : (hostMove m s).env.sched = s.env.sched := by
  cases m with
  | regWrite a width w =>
    simp only [hostMove]
    rcases Bounds.portWrite_cases a width w s with h | ⟨r, h⟩ <;> rw [h]
    unfold writeReg
    split
    · rfl
    · cases r <;> rfl
  | regRead a width =>
    simp only [hostMove]
    split <;> rfl
  | memWrite a v => exact hostMemWrite_sched a v s
  | memRead a => rfl
  | reset => rfl

/-- A turn of the engine is its step, and is taken off the schedule (log 3). -/
theorem step_engine {s : State} {l : List Turn} (h : s.env.sched = .engine :: l) :
    step s = engineStep (s.withSched l) := by
  unfold step takeTurn
  rw [h]

/-- A turn of the host is its move, and is taken off the schedule (log 3). -/
theorem step_host {s : State} {m : HostMove} {l : List Turn} (h : s.env.sched = .host m :: l) :
    step s = .next (hostMove m (s.withSched l)) := by
  unfold step takeTurn
  rw [h]

/-- While `BUSY`, a poll is a step of the engine, and stays on the schedule (log 13). -/
theorem step_poll_busy {s : State} {l : List Turn} (h : s.env.sched = .poll :: l) (hbusy : s.regs.busy = true) :
    step s = engineStep s := by
  unfold step takeTurn
  rw [h]
  exact if_pos hbusy

/-- An engine step keeps the arguments and the opcode, whatever the schedule holds. -/
theorem engineStep_arguments {s t : State} (h : engineStep s = .next t) :
    SameArguments t.regs s.regs ∧ t.regs.op = s.regs.op := by
  obtain ⟨-, hop, hargs, -⟩ := (setting_eq_iff s t).1 (engineStep_setting s t h)
  exact ⟨hargs, hop⟩

/-- Settles O31: the engine never changes them, and while `BUSY` only a reset lets the host do so. -/
theorem argumentsAreFrozenWhileBusy : Obligations.ArgumentsAreFrozenWhileBusy := by
  intro s t hbusy hreset ht
  cases hs : s.env.sched with
  | nil => exact engineStep_arguments (step_empty hs ▸ ht)
  | cons turn l =>
    cases turn with
    | engine => exact engineStep_arguments (s := s.withSched l) (step_engine hs ▸ ht)
    | poll => exact engineStep_arguments (step_poll_busy hs hbusy ▸ ht)
    | host m =>
      rw [step_host hs] at ht
      cases ht
      have hm : m ≠ .reset := fun h => hreset l (h ▸ hs)
      obtain ⟨hregs, -⟩ := hostMove_busy (s := s.withSched l) hbusy hm
      rw [hregs]
      exact ⟨⟨rfl, rfl, rfl, rfl, rfl, rfl, rfl⟩, rfl⟩

/-! ## The result registers while a command runs (10_state.md R27) -/

/-- No result has been written. -/
def NoResults (s : State) : Prop :=
  s.regs.res0 = 0 ∧ s.regs.res1 = 0 ∧ s.regs.res2 = 0 ∧ s.regs.res3 = 0

/-- An encoder's results: the count of bytes. -/
def ByteResults (s : State) : Prop :=
  s.regs.res0 = s.eng.wcnt ∧ s.regs.res1 = 0 ∧ s.regs.res2 = 0 ∧ s.regs.res3 = 0

/-- SERIALIZE's results: the counts of bytes and of tokens. -/
def SerializeResults (s : State) : Prop :=
  s.regs.res0 = s.eng.wcnt ∧ s.regs.res1 = s.eng.cnt ∧ s.regs.res2 = 0 ∧ s.regs.res3 = 0

/-- What the result registers hold while a command runs, command by command. -/
def ResultsOf : Instr → State → Prop
  | .decodeTag => NoResults
  | .encodeTag => ByteResults
  | .decodeLength => NoResults
  | .encodeLength => ByteResults
  | .parse => fun s => ParseCounts s ∧ s.regs.res2 = 0 ∧ s.regs.res3 = 0
  | .serialize => SerializeResults
  | .find => NoResults

/-- The frozen invariant is the assertion of the command that runs: the clauses of the other commands fall away. -/
theorem resultsInv_iff {i : Instr} {s : State} (hrun : Running i s) : ResultsInv s ↔ ResultsOf i s := by
  obtain ⟨hne, hop⟩ := hrun
  cases i with
  | parse => simp [ResultsInv, Running, ResultsOf, ParseCounts, Inside, hop, hne, Instr.op]; tauto
  | _ => simp [ResultsInv, Running, ResultsOf, NoResults, ByteResults, SerializeResults, hop, hne, Instr.op]

/-- Where no command runs, no result register is spoken of. -/
theorem resultsInv_of_not_running {s : State} (h : ∀ i, ¬ Running i s) : ResultsInv s := by
  simp only [ResultsInv, h, false_or, false_implies, and_self]

theorem resultsInv_of_idle {s : State} (h : s.eng.st = .idle) : ResultsInv s :=
  resultsInv_of_not_running fun _ ⟨hne, _⟩ => hne h

/-- The invariant speaks of the registers and the engine alone. -/
theorem resultsInv_congr {s t : State} (hr : t.regs = s.regs) (he : t.eng = s.eng) (h : ResultsInv s) :
    ResultsInv t := by
  cases s
  cases t
  cases hr
  cases he
  exact h

section results
variable {s t : State}

theorem ReadEffect.noResults (h : ReadEffect s t) (hne : t.eng.st ≠ .idle) (hres : NoResults s) : NoResults t := by
  rw [NoResults, h.regs_eq hne]
  exact hres

/-- Only VAL_COPY counts a token, and no encoder goes there. -/
theorem Counted.byteResults (h : Counted s t) (hst : s.eng.st ≠ .valCopy) (hres : ByteResults s) : ByteResults t := by
  obtain ⟨hwcnt, hrest⟩ := hres
  rcases h with ⟨hr, hw, -⟩ | ⟨hr, -⟩ | ⟨hv, -⟩
  · rw [ByteResults, hr, hw]
    exact ⟨hwcnt, hrest⟩
  · rw [ByteResults, hr]
    exact ⟨rfl, hrest⟩
  · exact absurd hv hst

theorem Counted.serializeResults (h : Counted s t) (hres : SerializeResults s) : SerializeResults t := by
  obtain ⟨hwcnt, hcnt, hrest⟩ := hres
  rcases h with ⟨hr, hw, hc⟩ | ⟨hr, hc⟩ | ⟨-, hr⟩
  · rw [SerializeResults, hr, hw, hc]
    exact ⟨hwcnt, hcnt, hrest⟩
  · rw [SerializeResults, hr, hc]
    exact ⟨rfl, hcnt, hrest⟩
  · rw [SerializeResults, hr]
    exact ⟨rfl, rfl, hrest⟩

theorem exec_results {i : Instr} (huse : usesState i.op s.eng.st = true) (hres : ResultsOf i s)
    (ht : exec i s = .next t) (hne : t.eng.st ≠ .idle) : ResultsOf i t := by
  cases i with
  | decodeTag => exact (execDecodeTag_effect t ht).noResults hne hres
  | decodeLength => exact (execDecodeLength_effect t ht).noResults hne hres
  | find => exact (execFind_effect t ht).noResults hne hres
  | encodeTag =>
    have hst : s.eng.st ≠ .valCopy := fun h => by rw [h] at huse; cases huse
    exact ((execEncodeTag_effect t ht).counted hne).byteResults hst hres
  | encodeLength =>
    have hst : s.eng.st ≠ .valCopy := fun h => by rw [h] at huse; cases huse
    exact ((execEncodeLength_effect t ht).counted hne).byteResults hst hres
  | serialize => exact ((execSerialize_effect t ht).counted hne).serializeResults hres
  | parse =>
    obtain ⟨hcounts, h2, h3⟩ := hres
    have h := execParse_effect t ht
    obtain ⟨he2, he3⟩ := h.res23_eq hne
    exact ⟨h.counts hne hcounts, he2.trans h2, he3.trans h3⟩

theorem engineStep_results (heng : EngineInv s) (h : ResultsInv s) (ht : engineStep s = .next t) : ResultsInv t := by
  by_cases hidle : t.eng.st = .idle
  · exact resultsInv_of_idle hidle
  obtain ⟨-, hop⟩ := engineStep_arguments ht
  rcases engineStep_cases s with ⟨-, he⟩ | ⟨-, herr, -⟩ | ⟨i, hrun, he⟩
  · cases he.symm.trans ht
    exact h
  · refine resultsInv_of_not_running fun i ⟨_, hi⟩ => ?_
    rw [← hop, hi, decodeOp_op] at herr
    cases herr
  · obtain ⟨hne, hi⟩ := hrun
    obtain ⟨-, -, -, huse⟩ := EngineRules.mayBeIn_of_engineInv hne heng
    rw [hi] at huse
    exact (resultsInv_iff ⟨hidle, hop.trans hi⟩).2
      (exec_results huse ((resultsInv_iff ⟨hne, hi⟩).1 h) (he ▸ ht) hidle)

/-- A command starts with every result and every count at 0 (10_state.md R24). -/
theorem startCommand_results (w : Word) (s : State) : ResultsInv (startCommand w s) := by
  simp [ResultsInv, Regs.started, Engine.started, Engine.zero]

/-- A register write reaches the results only by starting a command. -/
theorem writeReg_results (hbusy : s.regs.busy = true ↔ s.eng.st ≠ .idle) (h : ResultsInv s) (r : Reg) (w : Word) :
    ResultsInv (writeReg r w s) := by
  rcases Bounds.writeReg_cases r w s with he | ⟨hb, he | he⟩
  · rwa [he]
  · rw [he]
    exact startCommand_results w s
  · have hidle : s.eng.st = .idle := by simpa [hb] using hbusy
    exact resultsInv_of_idle (by rw [he, hidle])

theorem hostMove_results (hbusy : s.regs.busy = true ↔ s.eng.st ≠ .idle) (h : ResultsInv s) (m : HostMove) :
    ResultsInv (hostMove m s) := by
  rcases Bounds.hostMove_cases m s with ⟨hr, he⟩ | ⟨r, w, hw⟩ | hw
  · exact resultsInv_congr hr he h
  · rw [hw]
    exact writeReg_results hbusy h r w
  · rw [hw]
    exact resultsInv_of_idle rfl

end results

/-- Settles O39: whoever moves, the results stay in step with the counts. Of the engine's invariant it needs that the FSM is in a
state of its command, and that `BUSY` keeps the host out. -/
theorem everyStepKeepsResults : Obligations.EveryStepKeepsResults := by
  intro s t heng h ht
  rcases step_cases s with ⟨l, he⟩ | ⟨m, l, he⟩ | ⟨l, he⟩ <;> rw [he] at ht
  · exact engineStep_results (s := s.withSched l) (EngineRules.engineInv_congr rfl rfl heng)
      (resultsInv_congr rfl rfl h) ht
  · cases ht
    obtain ⟨⟨hbusy, -⟩, -⟩ := heng
    exact hostMove_results (s := s.withSched l) hbusy (resultsInv_congr rfl rfl h) m
  · cases ht
    exact resultsInv_congr (s := s) rfl rfl h

end Sys2Proof.Effects
end

section
/-! PROOF. Every command comes to IDLE (10_state.md R35, 70_reset_and_hazards.md R307). Each FSM state is given a rank, the number of
engine steps that may still follow the next one; every step that goes on lowers it, and a command starts below its step bound. -/
namespace Sys2Proof.Termination
open Sys2Proof Sys2Proof.Machine Sys2Proof.Laws Sys2Proof.Effects

/-! ## The rank -/

/-- The continuation bytes that may follow the next one in TAG_CONT: the field ends where the accumulator's top byte is no longer 0
(40_tag_codec.md R121), which a leading 0 byte, possible in no run, puts off by one. -/
def contRank (acc : Word) : Nat :=
  if acc.toNat = 0 then 4
  else if acc.toNat < 2 ^ 8 then 3
  else if acc.toNat < 2 ^ 16 then 2
  else if acc.toNat < 2 ^ 24 then 1
  else 0

def decodeTagRank (e : Engine) : Nat :=
  match e.st with
  | .dispatch => 5
  | .tagFirst => 4
  | .tagCont => contRank e.acc
  | _ => 0

def decodeLengthRank (e : Engine) : Nat :=
  match e.st with
  | .dispatch => 5
  | .lenFirst => 4
  | .lenBytes => e.nrem.toNat - 1
  | _ => 0

/-- The field bytes that may follow the next one in EMIT (40_tag_codec.md R127). -/
def emitRank (e : Engine) : Nat := e.en.toNat - e.ei.toNat - 1

def encodeTagRank (e : Engine) : Nat :=
  match e.st with
  | .dispatch => 5
  | .encTag => 4
  | .emit => emitRank e
  | _ => 0

def encodeLengthRank (e : Engine) : Nat :=
  match e.st with
  | .dispatch => 6
  | .encLen => 5
  | .emit => emitRank e
  | _ => 0

/-- PARSE and FIND: `w` steps for each source byte left pay for what a token costs besides its bytes, since a token has at least two
(42_parse.md R184). PARSE's record of twelve bytes makes that 8, FIND's comparison 2 (70_reset_and_hazards.md R307). -/
def scanRank (w : Nat) (g : Regs) (e : Engine) : Nat :=
  match e.st with
  | .dispatch => w * (g.srcLen.toNat - e.off.toNat) + 1
  | .tokStart => w * (g.srcLen.toNat - e.off.toNat)
  | .tagFirst => w * (g.srcLen.toNat - e.off.toNat) - 1
  | .tagCont => w * (g.srcLen.toNat - e.off.toNat) + (w - 2)
  | .lenFirst => w * (g.srcLen.toNat - e.off.toNat) + (w - 2)
  | .lenBytes => w * (g.srcLen.toNat - e.off.toNat) + (2 * w - 3)
  | .tokEnd => w * (g.srcLen.toNat - e.off.toNat) + (2 * w - 3)
  | .recWrite => w * (g.srcLen.toNat - (e.vstart + e.clen).toNat) + (12 - e.k.toNat)
  | _ => 0

/-- After its tag field a token has its length field still to load (43_serialize.md R212). -/
def fieldsAfter : Fld → Nat
  | .tag => 1
  | .len => 0

/-- SERIALIZE: fifteen steps for each token left and one for each destination byte left (70_reset_and_hazards.md R307). -/
def serializeRank (g : Regs) (e : Engine) : Nat :=
  let tokens := g.tokN.toNat - e.cnt.toNat
  let bytes := g.dstCap.toNat - e.wcnt.toNat
  match e.st with
  | .dispatch => 15 * tokens + bytes + 1
  | .tokStart => 15 * tokens + bytes
  | .recRead => 15 * (tokens - 1) + bytes + (14 - e.k.toNat)
  | .encTag => 15 * (tokens - 1) + bytes + 2
  | .encLen => 15 * (tokens - 1) + bytes + 1
  | .emit => 15 * (tokens - 1) + bytes + fieldsAfter e.fld
  | .valCopy => 15 * (tokens - 1) + bytes
  | _ => 0

/-- The engine steps that may still follow the next one. -/
def rankOf (i : Instr) (g : Regs) (e : Engine) : Nat :=
  match i with
  | .decodeTag => decodeTagRank e
  | .encodeTag => encodeTagRank e
  | .decodeLength => decodeLengthRank e
  | .encodeLength => encodeLengthRank e
  | .parse => scanRank 8 g e
  | .serialize => serializeRank g e
  | .find => scanRank 2 g e

def rank (s : State) : Nat :=
  match decodeOp s.regs.op with
  | .ok i => rankOf i s.regs s.eng
  | .error _ => 0

/-- An engine step ends the command or leaves a lower rank, as its registers and engine give it. -/
def Lowers (r : Regs → Engine → Nat) (s t : State) : Prop := t.eng.st = .idle ∨ r t.regs t.eng < r s.regs s.eng

theorem lowers_end {r : Regs → Engine → Nat} {s u : State} (e : Option Err) : Lowers r s (endCommand e u) :=
  .inl (by simp)

/-! ## Reading and writing one field -/

section fields
variable {s : State}

/-- A word whose top byte is 0 is below 2^24. -/
theorem lt_of_topByte_zero {acc : Word} (h : byteOf acc 3 = 0x00#8) : acc.toNat < 2 ^ 24 := by
  have hnat := congrArg BitVec.toNat h
  simp only [byteOf, BitVec.extractLsb'_toNat, Nat.shiftRight_eq_div_pow, BitVec.toNat_ofNat] at hnat
  omega

/-- The accumulator law on numbers: while its top byte is 0, the accumulator is 256 times the old one plus the byte (10_state.md
R31). -/
theorem shiftIn_toNat {acc : Word} {b : Byte} (h : acc.toNat < 2 ^ 24) :
    (shiftIn acc b).toNat = acc.toNat * 256 + b.toNat := by
  have hmod : acc.toNat <<< 8 % 2 ^ 32 = acc.toNat <<< 8 := Nat.mod_eq_of_lt (by rw [Nat.shiftLeft_eq]; omega)
  have hb : b.toNat % 2 ^ 32 = b.toNat := Nat.mod_eq_of_lt (by omega)
  rw [shiftIn, zext32, BitVec.toNat_or, BitVec.toNat_shiftLeft, BitVec.toNat_setWidth, hmod, hb,
    ← Nat.shiftLeft_add_eq_or_of_lt b.isLt, Nat.shiftLeft_eq]

/-- A continuation byte lowers the rank: with its bit 7 set it cannot leave the accumulator at 0. -/
theorem contRank_shiftIn {acc : Word} {b : Byte} (htop : byteOf acc 3 = 0x00#8) (hbit : bit7 b = true) :
    contRank (shiftIn acc b) < contRank acc := by
  have hacc := lt_of_topByte_zero htop
  have hb : 2 ^ 7 ≤ b.toNat := Nat.ge_two_pow_of_testBit hbit
  unfold contRank
  rw [shiftIn_toNat hacc]
  split_ifs <;> omega

/-- The marker of a long tag is not 0 (30_encoding.md R95). -/
theorem contRank_marker {b : Byte} (h : low5 b = 31#5) : contRank (zext32 b) < 4 := by
  have hne : (zext32 b).toNat ≠ 0 := by
    intro h0
    have hb : b = 0 := by
      simp only [zext32, BitVec.toNat_setWidth] at h0
      bv_omega
    subst hb
    exact absurd h (by decide)
  unfold contRank
  rw [if_neg hne]
  split_ifs <;> omega

theorem tagFirst_lowers (hst : s.eng.st = .tagFirst) :
    Lowers (fun _ => decodeTagRank) s (tagFirst decodeTagComplete s) := by
  refine tagFirst_rule (Lowers (fun _ => decodeTagRank) s)
    (hEnd := fun _ => lowers_end _)
    (hBus := fun _ _ => lowers_end _)
    (hShort := fun _ _ _ _ _ => lowers_end _)
    (hExt := fun b t _ hr hmark => .inr ?_)
  simp only [decodeTagRank, hst]
  exact contRank_marker hmark

theorem tagCont_lowers (hst : s.eng.st = .tagCont) :
    Lowers (fun _ => decodeTagRank) s (tagCont decodeTagComplete s) := by
  refine tagCont_rule (Lowers (fun _ => decodeTagRank) s)
    (hEnd := fun _ => lowers_end _)
    (hBus := fun _ _ => lowers_end _)
    (hErr := fun _ _ _ _ _ _ => lowers_end _)
    (hMore := fun b t _ hr _ htop hbit => .inr ?_)
    (hLast := fun _ _ _ _ _ _ _ => lowers_end _)
  simp only [decodeTagRank, EngineRules.readSrc_eng hr, hst]
  exact contRank_shiftIn htop hbit

theorem lenFirst_lowers (hst : s.eng.st = .lenFirst) :
    Lowers (fun _ => decodeLengthRank) s (lenFirst decodeLengthComplete s) := by
  refine lenFirst_rule (Lowers (fun _ => decodeLengthRank) s)
    (hEnd := fun _ => lowers_end _)
    (hBus := fun _ _ => lowers_end _)
    (hShort := fun _ _ _ _ _ => lowers_end _)
    (hErr := fun _ _ _ _ _ _ _ => lowers_end _)
    (hLong := fun b t _ hr _ hle hne => .inr ?_)
  obtain ⟨-, hhi⟩ := EngineRules.nrem_range hle hne
  simp only [decodeLengthRank, hst]
  bv_omega

theorem lenBytes_lowers (hst : s.eng.st = .lenBytes) (hidx : EngineRules.IndexAt .lenBytes s.eng) :
    Lowers (fun _ => decodeLengthRank) s (lenBytes decodeLengthComplete s) := by
  obtain ⟨hlo, -⟩ := hidx
  refine lenBytes_rule (Lowers (fun _ => decodeLengthRank) s)
    (hEnd := fun _ => lowers_end _)
    (hBus := fun _ _ => lowers_end _)
    (hErr := fun _ _ _ _ _ => lowers_end _)
    (hMore := fun b t _ hr _ hne => .inr ?_)
    (hLast := fun _ _ _ _ _ _ => lowers_end _)
  simp only [decodeLengthRank, EngineRules.readSrc_eng hr, hst]
  bv_omega

theorem encTag_lowers (hst : s.eng.st = .encTag) : Lowers (fun _ => encodeTagRank) s (encTag s) := by
  refine encTag_rule (Lowers (fun _ => encodeTagRank) s)
    (hBad := fun _ => lowers_end _)
    (hLoad := fun bs hbs => .inr ?_)
  have hlen := tagBytes_length hbs
  simp only [encodeTagRank, emitRank, hst]
  bv_omega

theorem encLen_lowers (hst : s.eng.st = .encLen) : Lowers (fun _ => encodeLengthRank) s (encLen s) := by
  refine encLen_rule (Lowers (fun _ => encodeLengthRank) s)
    (hZero := fun _ => lowers_end _)
    (hLoad := fun _ => .inr ?_)
  have hlen := lengthBytes_length s.eng.clen
  simp only [encodeLengthRank, emitRank, hst]
  bv_omega

/-- The field's last byte ends an encoder; any other leaves one byte fewer to write. -/
theorem emit_lowers {r : Regs → Engine → Nat} (hst : s.eng.st = .emit) (hidx : EngineRules.IndexAt .emit s.eng)
    (hr : ∀ g e, e.st = .emit → r g e = emitRank e) : OnNext (Lowers r s) (emit finish s) := by
  obtain ⟨hlt, h5⟩ := hidx
  refine emit_rule (OnNext (Lowers r s))
    (hFull := fun _ => onNext_next (lowers_end _))
    (hStuck := fun _ _ => onNext_fault _)
    (hBus := fun _ _ => onNext_next (lowers_end _))
    (hMore := fun b t _ _ hw hne => ?more)
    (hLast := fun _ _ _ _ _ _ => onNext_next (lowers_end _))
  case more =>
    obtain ⟨-, n, b', rfl, -⟩ := memWrite_some hw
    have hless : emitRank { s.eng with wcnt := s.eng.wcnt + 1, ei := s.eng.ei + 1 } < emitRank s.eng := by
      simp only [emitRank]
      bv_omega
    exact onNext_next (.inr (lt_of_eq_of_lt (hr _ _ (by exact hst)) (hless.trans_eq (hr _ _ hst).symm)))

end fields

/-! ## Token by token through a source buffer -/

section scan
variable {s : State} {w : Nat}

/-- A source byte below `SRC_LEN` is one of those left. -/
theorem source_left {o n : Word} (h : o < n) : n.toNat - o.toNat = n.toNat - (o + 1).toNat + 1 := by bv_omega

theorem tagFirst_scan (hw : 2 ≤ w) (hst : s.eng.st = .tagFirst) :
    Lowers (scanRank w) s (tagFirst tokenTagComplete s) := by
  refine tagFirst_rule (Lowers (scanRank w) s)
    (hEnd := fun _ => lowers_end _)
    (hBus := fun _ _ => lowers_end _)
    (hShort := fun b t hlt hr _ => .inr ?_)
    (hExt := fun b t hlt hr _ => .inr ?_)
  all_goals
    simp only [tokenTagComplete, scanRank, EngineRules.readSrc_eng hr, EngineRules.readSrc_regs hr, hst,
      source_left hlt, Nat.mul_succ]
    omega

theorem tagCont_scan (hw : 2 ≤ w) (hst : s.eng.st = .tagCont) :
    Lowers (scanRank w) s (tagCont tokenTagComplete s) := by
  refine tagCont_rule (Lowers (scanRank w) s)
    (hEnd := fun _ => lowers_end _)
    (hBus := fun _ _ => lowers_end _)
    (hErr := fun _ _ _ _ _ _ => lowers_end _)
    (hMore := fun b t hlt hr _ _ _ => .inr ?_)
    (hLast := fun b t hlt hr _ _ _ => .inr ?_)
  all_goals
    simp only [tokenTagComplete, scanRank, EngineRules.readSrc_eng hr, EngineRules.readSrc_regs hr, hst,
      source_left hlt, Nat.mul_succ]
    omega

theorem lenFirst_scan (hw : 2 ≤ w) (hst : s.eng.st = .lenFirst) :
    Lowers (scanRank w) s (lenFirst tokenLenComplete s) := by
  refine lenFirst_rule (Lowers (scanRank w) s)
    (hEnd := fun _ => lowers_end _)
    (hBus := fun _ _ => lowers_end _)
    (hShort := fun b t hlt hr _ => .inr ?_)
    (hErr := fun _ _ _ _ _ _ _ => lowers_end _)
    (hLong := fun b t hlt hr _ _ _ => .inr ?_)
  all_goals
    simp only [tokenLenComplete, scanRank, EngineRules.readSrc_eng hr, EngineRules.readSrc_regs hr, hst,
      source_left hlt, Nat.mul_succ]
    omega

theorem lenBytes_scan (hw : 2 ≤ w) (hst : s.eng.st = .lenBytes) :
    Lowers (scanRank w) s (lenBytes tokenLenComplete s) := by
  refine lenBytes_rule (Lowers (scanRank w) s)
    (hEnd := fun _ => lowers_end _)
    (hBus := fun _ _ => lowers_end _)
    (hErr := fun _ _ _ _ _ => lowers_end _)
    (hMore := fun b t hlt hr _ _ => .inr ?_)
    (hLast := fun b t hlt hr _ _ => .inr ?_)
  all_goals
    simp only [tokenLenComplete, scanRank, EngineRules.readSrc_eng hr, EngineRules.readSrc_regs hr, hst,
      source_left hlt, Nat.mul_succ]
    omega

theorem parseTokStart_lowers (hst : s.eng.st = .tokStart) : Lowers (scanRank 8) s (parseTokStart s) := by
  refine parseTokStart_rule (Lowers (scanRank 8) s)
    (hDone := fun _ => lowers_end _)
    (hFull := fun _ _ => lowers_end _)
    (hGo := fun hlt _ => .inr ?_)
  simp only [scanRank, hst, source_left hlt]
  omega

theorem findTokStart_lowers (hst : s.eng.st = .tokStart) : Lowers (scanRank 2) s (findTokStart s) := by
  refine findTokStart_rule (Lowers (scanRank 2) s)
    (hEnd := fun _ => lowers_end _)
    (hGo := fun hlt => .inr ?_)
  simp only [scanRank, hst, source_left hlt]
  omega

/-- Past a value no more source bytes are left than before it. -/
theorem source_left_after {v l n : Word} (hle : v.toNat + l.toNat ≤ n.toNat) :
    n.toNat - (v + l).toNat ≤ n.toNat - v.toNat := by bv_omega

theorem parseTokEnd_lowers (hst : s.eng.st = .tokEnd) (hv : s.eng.vstart = s.eng.off) :
    Lowers (scanRank 8) s (parseTokEnd s) := by
  refine parseTokEnd_rule (Lowers (scanRank 8) s)
    (hOver := fun _ => lowers_end _)
    (hGo := fun hle => .inr ?_)
  have hleft := source_left_after hle
  rw [hv] at hleft
  simp only [scanRank, hst, hv]
  omega

theorem findTokEnd_lowers (hst : s.eng.st = .tokEnd) (hv : s.eng.vstart = s.eng.off) :
    Lowers (scanRank 2) s (findTokEnd s) := by
  refine findTokEnd_rule (Lowers (scanRank 2) s)
    (hOver := fun _ => lowers_end _)
    (hHit := fun _ _ => lowers_end _)
    (hSkip := fun hle _ => .inr ?_)
  have hleft := source_left_after hle
  rw [hv] at hleft
  simp only [scanRank, hst, hv]
  omega

theorem recWrite_lowers (hst : s.eng.st = .recWrite) (hidx : EngineRules.IndexAt .recWrite s.eng) :
    OnNext (Lowers (scanRank 8) s) (recWrite s) := by
  have hk : s.eng.k < 12#4 := hidx
  refine recWrite_rule (OnNext (Lowers (scanRank 8) s))
    (hStuck := fun _ => onNext_fault _)
    (hBus := fun _ => onNext_next (lowers_end _))
    (hMore := fun b t _ hw hne => ?more)
    (hLast := fun b t _ hw hlast => ?last)
  all_goals
    obtain ⟨-, n, b', rfl, -⟩ := memWrite_some hw
    refine onNext_next (.inr ?_)
    simp only [scanRank, skipFree_eng, skipFree_regs, hst]
    bv_omega

end scan

/-! ## SERIALIZE -/

section serialize
variable {s : State}

/-- A token below `TOK_N` is one of those left; so is a byte below `DST_CAP`. -/
theorem count_left {c n : Word} (h : c < n) : n.toNat - c.toNat = n.toNat - (c + 1).toNat + 1 := source_left h

theorem serializeTokStart_lowers (hst : s.eng.st = .tokStart) : Lowers serializeRank s (serializeTokStart s) := by
  refine serializeTokStart_rule (Lowers serializeRank s)
    (hDone := fun _ => lowers_end _)
    (hGo := fun hlt => .inr ?_)
  simp only [serializeRank, hst, count_left hlt]
  omega

theorem recRead_lowers (hst : s.eng.st = .recRead) (hidx : EngineRules.IndexAt .recRead s.eng) :
    OnNext (Lowers serializeRank s) (recRead s) := by
  have hk : s.eng.k < 12#4 := hidx
  refine recRead_rule (OnNext (Lowers serializeRank s))
    (hStuck := fun _ => onNext_fault _)
    (hBus := fun _ => onNext_next (lowers_end _))
    (hMore := fun b t _ hr hne => ?more)
    (hLast := fun b t _ hr hlast => ?last)
  all_goals
    obtain ⟨-, n, rfl, -⟩ := memRead_some hr
    refine onNext_next (.inr ?_)
    simp only [serializeRank, skipFree_eng, skipFree_regs, hst]
    bv_omega

theorem encTag_serialize (hst : s.eng.st = .encTag) : Lowers serializeRank s (encTag s) := by
  refine encTag_rule (Lowers serializeRank s)
    (hBad := fun _ => lowers_end _)
    (hLoad := fun bs _ => .inr ?_)
  simp [serializeRank, fieldsAfter, hst]

theorem encLen_serialize (hst : s.eng.st = .encLen) : Lowers serializeRank s (encLen s) := by
  refine encLen_rule (Lowers serializeRank s)
    (hZero := fun _ => lowers_end _)
    (hLoad := fun _ => .inr ?_)
  simp [serializeRank, fieldsAfter, hst]

theorem emit_serialize (hst : s.eng.st = .emit) : OnNext (Lowers serializeRank s) (emit serializeFieldDone s) := by
  refine emit_rule (OnNext (Lowers serializeRank s))
    (hFull := fun _ => onNext_next (lowers_end _))
    (hStuck := fun _ _ => onNext_fault _)
    (hBus := fun _ _ => onNext_next (lowers_end _))
    (hMore := fun b t hlt _ hw _ => ?more)
    (hLast := fun b t hlt _ hw _ => ?last)
  case more =>
    obtain ⟨-, n, b', rfl, -⟩ := memWrite_some hw
    refine onNext_next (.inr ?_)
    simp only [serializeRank, skipFree_eng, skipFree_regs, hst, count_left hlt]
    omega
  case last =>
    obtain ⟨-, n, b', rfl, -⟩ := memWrite_some hw
    refine onNext_next (.inr ?_)
    cases hf : s.eng.fld <;>
      simp [serializeRank, fieldsAfter, serializeFieldDone, hst, hf, count_left hlt]

theorem valCopy_lowers (hst : s.eng.st = .valCopy) (hcnt : s.eng.cnt < s.regs.tokN) :
    Lowers serializeRank s (valCopy s) := by
  refine valCopy_rule (Lowers serializeRank s)
    (hFull := fun _ => lowers_end _)
    (hBusR := fun _ _ => lowers_end _)
    (hBusW := fun _ _ _ _ _ => lowers_end _)
    (hMore := fun b t u hlt hr hw _ => .inr ?more)
    (hLast := fun b t u hlt hr hw _ => .inr ?last)
  all_goals
    obtain ⟨-, n, rfl, -⟩ := memRead_some hr
    obtain ⟨-, m, b', rfl, -⟩ := memWrite_some hw
    simp only [serializeRank, skipFree_eng, skipFree_regs, hst, count_left hlt, count_left hcnt]
    omega

end serialize

/-! ## Every engine step -/

section commands
variable {s : State}

/-- DISPATCH goes on to a state of lower rank (30_encoding.md R93). -/
theorem dispatch_lowers {r : Regs → Engine → Nat} {e : Engine} (h : r s.regs e < r s.regs s.eng) :
    OnNext (Lowers r s) (.next { s with eng := e }) := onNext_next (.inr h)

theorem execDecodeTag_lowers (hne : s.eng.st ≠ .idle) :
    OnNext (Lowers (rankOf .decodeTag) s) (execDecodeTag s) := by
  unfold execDecodeTag
  cases hst : s.eng.st with
  | idle => exact absurd hst hne
  | dispatch => exact dispatch_lowers (by simp [rankOf, decodeTagRank, hst])
  | tagFirst => exact onNext_next (tagFirst_lowers hst)
  | tagCont => exact onNext_next (tagCont_lowers hst)
  | _ => exact onNext_fault _

theorem execEncodeTag_lowers (hne : s.eng.st ≠ .idle) (hidx : EngineRules.IndexAt s.eng.st s.eng) :
    OnNext (Lowers (rankOf .encodeTag) s) (execEncodeTag s) := by
  unfold execEncodeTag
  cases hst : s.eng.st with
  | idle => exact absurd hst hne
  | dispatch => exact dispatch_lowers (by simp [rankOf, encodeTagRank, hst])
  | encTag => exact onNext_next (encTag_lowers hst)
  | emit => exact emit_lowers hst (hst ▸ hidx) fun g e he => by simp [rankOf, encodeTagRank, he]
  | _ => exact onNext_fault _

theorem execDecodeLength_lowers (hne : s.eng.st ≠ .idle) (hidx : EngineRules.IndexAt s.eng.st s.eng) :
    OnNext (Lowers (rankOf .decodeLength) s) (execDecodeLength s) := by
  unfold execDecodeLength
  cases hst : s.eng.st with
  | idle => exact absurd hst hne
  | dispatch => exact dispatch_lowers (by simp [rankOf, decodeLengthRank, hst])
  | lenFirst => exact onNext_next (lenFirst_lowers hst)
  | lenBytes => exact onNext_next (lenBytes_lowers hst (hst ▸ hidx))
  | _ => exact onNext_fault _

theorem execEncodeLength_lowers (hne : s.eng.st ≠ .idle) (hidx : EngineRules.IndexAt s.eng.st s.eng) :
    OnNext (Lowers (rankOf .encodeLength) s) (execEncodeLength s) := by
  unfold execEncodeLength
  cases hst : s.eng.st with
  | idle => exact absurd hst hne
  | dispatch => exact dispatch_lowers (by simp [rankOf, encodeLengthRank, hst])
  | encLen => exact onNext_next (encLen_lowers hst)
  | emit => exact emit_lowers hst (hst ▸ hidx) fun g e he => by simp [rankOf, encodeLengthRank, he]
  | _ => exact onNext_fault _

/-- A token's value starts at the offset reached, which the bounds say of TOK_END. -/
theorem vstart_eq_off (hst : s.eng.st = .tokEnd) (h : BoundsInv s) : s.eng.vstart = s.eng.off := by
  obtain ⟨-, hv, -⟩ := Bounds.boundsAt_of_boundsInv hst h
  exact hv

theorem execParse_lowers (hne : s.eng.st ≠ .idle) (hidx : EngineRules.IndexAt s.eng.st s.eng) (hb : BoundsInv s) :
    OnNext (Lowers (rankOf .parse) s) (execParse s) := by
  unfold execParse
  cases hst : s.eng.st with
  | idle => exact absurd hst hne
  | dispatch => exact dispatch_lowers (by simp [rankOf, scanRank, hst])
  | tokStart => exact onNext_next (parseTokStart_lowers hst)
  | tagFirst => exact onNext_next (tagFirst_scan (by decide) hst)
  | tagCont => exact onNext_next (tagCont_scan (by decide) hst)
  | lenFirst => exact onNext_next (lenFirst_scan (by decide) hst)
  | lenBytes => exact onNext_next (lenBytes_scan (by decide) hst)
  | tokEnd => exact onNext_next (parseTokEnd_lowers hst (vstart_eq_off hst hb))
  | recWrite => exact recWrite_lowers hst (hst ▸ hidx)
  | _ => exact onNext_fault _

theorem execFind_lowers (hne : s.eng.st ≠ .idle) (hb : BoundsInv s) :
    OnNext (Lowers (rankOf .find) s) (execFind s) := by
  unfold execFind
  cases hst : s.eng.st with
  | idle => exact absurd hst hne
  | dispatch => exact dispatch_lowers (by simp [rankOf, scanRank, hst])
  | tokStart => exact onNext_next (findTokStart_lowers hst)
  | tagFirst => exact onNext_next (tagFirst_scan (by decide) hst)
  | tagCont => exact onNext_next (tagCont_scan (by decide) hst)
  | lenFirst => exact onNext_next (lenFirst_scan (by decide) hst)
  | lenBytes => exact onNext_next (lenBytes_scan (by decide) hst)
  | tokEnd => exact onNext_next (findTokEnd_lowers hst (vstart_eq_off hst hb))
  | _ => exact onNext_fault _

theorem execSerialize_lowers (hop : s.regs.op = Instr.serialize.op) (hne : s.eng.st ≠ .idle)
    (hidx : EngineRules.IndexAt s.eng.st s.eng) (hb : BoundsInv s) :
    OnNext (Lowers (rankOf .serialize) s) (execSerialize s) := by
  unfold execSerialize
  cases hst : s.eng.st with
  | idle => exact absurd hst hne
  | dispatch => exact dispatch_lowers (by simp [rankOf, serializeRank, hst])
  | tokStart => exact onNext_next (serializeTokStart_lowers hst)
  | recRead => exact recRead_lowers hst (hst ▸ hidx)
  | encTag => exact onNext_next (encTag_serialize hst)
  | encLen => exact onNext_next (encLen_serialize hst)
  | emit => exact emit_serialize hst
  | valCopy =>
    obtain ⟨⟨-, hcnt, -⟩, -⟩ := Bounds.boundsAt_of_boundsInv hst hb
    exact onNext_next (valCopy_lowers hst (hcnt (.inr hop)))
  | _ => exact onNext_fault _

theorem exec_lowers {i : Instr} (hrun : Running i s) (heng : EngineInv s) (hb : BoundsInv s) :
    OnNext (Lowers (rankOf i) s) (exec i s) := by
  obtain ⟨hne, hop⟩ := hrun
  have hidx := EngineRules.indexAt_of_engineInv heng
  cases i with
  | decodeTag => exact execDecodeTag_lowers hne
  | encodeTag => exact execEncodeTag_lowers hne hidx
  | decodeLength => exact execDecodeLength_lowers hne hidx
  | encodeLength => exact execEncodeLength_lowers hne hidx
  | parse => exact execParse_lowers hne hidx hb
  | serialize => exact execSerialize_lowers hop hne hidx hb
  | find => exact execFind_lowers hne hb

theorem rank_of_op {i : Instr} (h : s.regs.op = i.op) : rank s = rankOf i s.regs s.eng := by
  rw [rank, h, decodeOp_op]

/-- An engine step ends the command or lowers its rank. -/
theorem engineStep_lowers {t : State} (hne : s.eng.st ≠ .idle) (heng : EngineInv s) (hb : BoundsInv s)
    (ht : engineStep s = .next t) : t.eng.st = .idle ∨ rank t < rank s := by
  rcases engineStep_cases s with ⟨hidle, -⟩ | ⟨-, hop, he⟩ | ⟨i, hrun, he⟩
  · exact absurd hidle hne
  · obtain ⟨-, -, -, huse⟩ := EngineRules.mayBeIn_of_engineInv hne heng
    have hst : s.eng.st = .dispatch := by simpa [usesState, hop] using huse
    rw [he, execReserved, hst] at ht
    cases ht
    exact .inl (by simp [raiseErr])
  · obtain ⟨-, hop⟩ := engineStep_arguments ht
    rw [rank_of_op hrun.2, rank_of_op (hop.trans hrun.2)]
    exact exec_lowers hrun heng hb t (he ▸ ht)

end commands

/-! ## Coming to IDLE -/

/-- What every run of a command keeps: the invariants of the engine and its bounds. -/
def Sound (s : State) : Prop := EngineInv s ∧ BoundsInv s

theorem Sound.congr {s t : State} (h : Sound s) (hr : t.regs = s.regs) (he : t.eng = s.eng) : Sound t :=
  ⟨EngineRules.engineInv_congr hr he h.1, Bounds.boundsInv_congr hr he h.2⟩

/-- From wherever the invariants hold, the engine has a next step; it keeps them and the schedule, and ends the command or lowers its
rank. -/
theorem Sound.engineStep {s : State} (h : Sound s) (hne : s.eng.st ≠ .idle) :
    ∃ t, engineStep s = .next t ∧ Sound t ∧ t.env.sched = s.env.sched ∧ (t.eng.st = .idle ∨ rank t < rank s) := by
  obtain ⟨heng, hb⟩ := h
  obtain ⟨t, ht, heng'⟩ := EngineRules.engineStep_inv heng
  obtain ⟨-, -, -, hsched, -⟩ := (setting_eq_iff s t).1 (engineStep_setting s t ht)
  exact ⟨t, ht, ⟨heng', Bounds.engineStep_bounds hb t ht⟩, hsched, engineStep_lowers hne heng hb ht⟩

/-- With nothing scheduled, the engine comes to IDLE within one step more than its rank. -/
theorem reaches_idle_alone {s : State} (h : Sound s) (hsched : s.env.sched = []) :
    ∃ n t, n ≤ rank s + 1 ∧ run n s = .next t ∧ t.eng.st = .idle := by
  induction hr : rank s using Nat.strong_induction_on generalizing s with
  | _ r ih =>
    by_cases hidle : s.eng.st = .idle
    · exact ⟨0, s, Nat.zero_le _, rfl, hidle⟩
    obtain ⟨t, ht, hsound, hsched', hend⟩ := h.engineStep hidle
    rw [← step_empty hsched] at ht
    rcases hend with hend | hless
    · exact ⟨1, t, by omega, run_succ_next ht 0, hend⟩
    · obtain ⟨n, u, hn, hu, hend⟩ := ih _ (hr ▸ hless) hsound (hsched'.trans hsched) rfl
      exact ⟨n + 1, u, by omega, (run_succ_next ht n).trans hu, hend⟩

/-- No move of the host reaches a running command's registers or engine, but a reset, which ends it. -/
theorem Sound.hostMove {s : State} (h : Sound s) (hne : s.eng.st ≠ .idle) (m : HostMove) :
    (hostMove m s).eng.st = .idle ∨
      (Sound (hostMove m s) ∧ rank (hostMove m s) = rank s ∧ (hostMove m s).env.sched = s.env.sched) := by
  by_cases hm : m = .reset
  · exact .inl (by rw [hm]; rfl)
  · obtain ⟨⟨hbusy, -⟩, -⟩ := h.1
    obtain ⟨hr, he⟩ := hostMove_busy (hbusy.2 hne) hm
    exact .inr ⟨h.congr hr he, by rw [rank, hr, he, rank], hostMove_sched m s⟩

/-- Under a schedule without polls that gives the engine more turns than its rank, it comes to IDLE within the schedule. -/
theorem reaches_idle_scheduled {l : List Turn} (hpoll : .poll ∉ l) {s : State} (h : Sound s) (hsched : s.env.sched = l)
    (hrank : rank s < l.count .engine) : ∃ n t, n ≤ l.length ∧ run n s = .next t ∧ t.eng.st = .idle := by
  induction l generalizing s with
  | nil => simp at hrank
  | cons turn l ih =>
    obtain ⟨hturn, hrest⟩ := not_or.1 (List.mem_cons.not.1 hpoll)
    by_cases hidle : s.eng.st = .idle
    · exact ⟨0, s, Nat.zero_le _, rfl, hidle⟩
    have go {t : State} (ht : step s = .next t)
        (hnext : t.eng.st = .idle ∨ (Sound t ∧ t.env.sched = l ∧ rank t < l.count .engine)) :
        ∃ n u, n ≤ (turn :: l).length ∧ run n s = .next u ∧ u.eng.st = .idle := by
      rcases hnext with hend | ⟨hsound, hl, hless⟩
      · exact ⟨1, t, by simp, run_succ_next ht 0, hend⟩
      · obtain ⟨n, u, hn, hu, hend⟩ := ih hrest hsound hl hless
        exact ⟨n + 1, u, by simpa using hn, (run_succ_next ht n).trans hu, hend⟩
    have hs : Sound (s.withSched l) := h.congr rfl rfl
    cases turn with
    | poll => exact absurd rfl hturn
    | engine =>
      obtain ⟨t, ht, hsound, hl, hend⟩ := hs.engineStep hidle
      refine go ((step_engine hsched).trans ht) (hend.imp_right fun hless => ⟨hsound, hl, ?_⟩)
      have : rank (s.withSched l) = rank s := rfl
      simp only [List.count_cons_self] at hrank
      omega
    | host m =>
      refine go (step_host hsched) ((hs.hostMove hidle m).imp_right fun ⟨hsound, hkeep, hl⟩ => ⟨hsound, hl, ?_⟩)
      rw [List.count_cons_of_ne (by simp)] at hrank
      exact hkeep.trans_lt hrank

theorem startCommand_sound (w : Word) (s : State) : Sound (startCommand w s) :=
  ⟨EngineRules.startCommand_inv w s, Bounds.startCommand_bounds w s⟩

/-- A command starts with its rank below its step bound (70_reset_and_hazards.md R307). -/
theorem startCommand_rank (w : Word) (s : State) : rank (startCommand w s) < commandBound (startCommand w s).regs := by
  unfold rank commandBound
  rw [startCommand_eng]
  cases decodeOp (startCommand w s).regs.op with
  | error e => exact Nat.zero_lt_one
  | ok i =>
    cases i <;> simp [rankOf, stepBound, decodeTagRank, encodeTagRank, decodeLengthRank, encodeLengthRank, scanRank,
      serializeRank, Engine.started, Engine.zero]

theorem contRank_le (acc : Word) : contRank acc ≤ 4 := by
  unfold contRank
  split_ifs <;> omega

theorem decodeTagRank_le (e : Engine) : decodeTagRank e ≤ 5 := by
  have := contRank_le e.acc
  unfold decodeTagRank
  split <;> omega

theorem decodeLengthRank_le (e : Engine) : decodeLengthRank e ≤ 6 := by
  unfold decodeLengthRank
  split <;> omega

theorem encodeTagRank_le (e : Engine) : encodeTagRank e ≤ 6 := by
  unfold encodeTagRank emitRank
  split <;> omega

theorem encodeLengthRank_le (e : Engine) : encodeLengthRank e ≤ 6 := by
  unfold encodeLengthRank emitRank
  split <;> omega

/-- The bound is met in TOK_END of PARSE at offset 0, which no run reaches. -/
theorem scanRank_le {w : Nat} (hw : w ≤ 8) (g : Regs) (e : Engine) : scanRank w g e ≤ w * g.srcLen.toNat + 13 := by
  have hoff : w * (g.srcLen.toNat - e.off.toNat) ≤ w * g.srcLen.toNat := Nat.mul_le_mul_left w (Nat.sub_le _ _)
  have hend : w * (g.srcLen.toNat - (e.vstart + e.clen).toNat) ≤ w * g.srcLen.toNat :=
    Nat.mul_le_mul_left w (Nat.sub_le _ _)
  unfold scanRank
  split <;> omega

theorem serializeRank_le {g : Regs} {e : Engine} (hcnt : e.st = .recRead → e.cnt < g.tokN) :
    serializeRank g e ≤ 15 * g.tokN.toNat + g.dstCap.toNat + 2 := by
  unfold serializeRank
  cases hst : e.st with
  | recRead =>
    have hless : e.cnt.toNat < g.tokN.toNat := hcnt hst
    dsimp only
    omega
  | emit => cases e.fld <;> simp only [fieldsAfter] <;> omega
  | _ => dsimp only; omega

/-- Within the bounds, the rank is at most 8 above the step bound. -/
theorem rank_le {s : State} (h : BoundsInv s) : rank s ≤ commandBound s.regs + 8 := by
  unfold rank commandBound
  cases hop : decodeOp s.regs.op with
  | error e => exact Nat.zero_le _
  | ok i =>
    cases i with
    | decodeTag => exact (decodeTagRank_le _).trans (by simp [stepBound])
    | encodeTag => exact (encodeTagRank_le _).trans (by simp [stepBound])
    | decodeLength => exact (decodeLengthRank_le _).trans (by simp [stepBound])
    | encodeLength => exact (encodeLengthRank_le _).trans (by simp [stepBound])
    | parse => exact scanRank_le (by decide) _ _
    | find => exact scanRank_le (by decide) _ _
    | serialize =>
      refine (serializeRank_le fun hst => ?_).trans (by simp only [stepBound]; omega)
      obtain ⟨-, hcnt, -⟩ := Bounds.boundsAt_of_boundsInv hst h
      exact hcnt (.inr (op_of_decodeOp hop))

/-- Settles O40: by the rank, along a schedule that leaves the engine turns enough, and with the engine left alone. -/
theorem everyCommandReachesIdle : Obligations.EveryCommandReachesIdle := by
  refine ⟨fun s w l hpoll hcount => ?_, fun s heng hb hsched => ?_⟩
  · have hs : Sound ((s.withCommand w).withSched l) := (startCommand_sound w (s.withSched [])).congr rfl rfl
    exact reaches_idle_scheduled hpoll hs rfl ((startCommand_rank w s).trans_le hcount)
  · obtain ⟨n, t, hn, ht, hend⟩ := reaches_idle_alone ⟨heng, hb⟩ hsched
    have := rank_le hb
    exact ⟨n, t, by omega, ht, hend⟩

end Sys2Proof.Termination
end

section
/-! PROOF. No command sees what happened before it (10_state.md R24). While no race is open, the engine's step reads nothing of the
model's bookkeeping: it commutes with any change of it. Two machines that differ in no more run alike. -/
namespace Sys2Proof.Noninterference
open Sys2Proof Sys2Proof.Machine Sys2Proof.Laws

/-- The machine with other bookkeeping. -/
def putEnv (v : Env) (s : State) : State := { s with env := v }

@[simp] theorem putEnv_regs (v : Env) (s : State) : (putEnv v s).regs = s.regs := rfl
@[simp] theorem putEnv_eng (v : Env) (s : State) : (putEnv v s).eng = s.eng := rfl
@[simp] theorem putEnv_mem (v : Env) (s : State) : (putEnv v s).mem = s.mem := rfl
@[simp] theorem putEnv_plat (v : Env) (s : State) : (putEnv v s).plat = s.plat := rfl

/-- Bookkeeping in which no race is open. -/
def Calm (v : Env) : Prop := v.raced = false ∧ v.contested = []

/-- The outcome with other bookkeeping in its next state. -/
def putEnvOut (v : Env) : Out → Out
  | .next t => .next (putEnv v t)
  | .fault r => .fault r
  | .refused r => .refused r

/-- While no race is open, the action reads and writes nothing of the bookkeeping. -/
def Commutes (v : Env) (f : State → State) : Prop := ∀ s, Calm s.env → f (putEnv v s) = putEnv v (f s)

/-- The same of an action that may lack a rule. -/
def CommutesOut (v : Env) (f : State → Out) : Prop := ∀ s, Calm s.env → f (putEnv v s) = putEnvOut v (f s)

/-- A test that no bookkeeping enters is carried out by the two branches. -/
theorem ite_commutes {α : Type} {F : α → α} {c : Prop} [Decidable c] {a b a' b' : α} (ha : a' = F a) (hb : b' = F b) :
    (if c then a' else b') = F (if c then a else b) := by
  rw [ha, hb, apply_ite F]

/-! ## The shared operations -/

section operations
variable {s t : State} {v : Env}

theorem memRead_putEnv (hs : Calm s.env) (hv : Calm v) (a : Word) :
    memRead a (putEnv v s) = (memRead a s).map fun p => (p.1, putEnv v p.2) := by
  rw [memRead_quiet (s := putEnv v s) hv.1, memRead_quiet hs.1, putEnv_plat, putEnv_mem]
  split <;> rfl

theorem memWrite_putEnv (hs : Calm s.env) (hv : Calm v) (a : Word) (b : Byte) :
    memWrite a b (putEnv v s) = (memWrite a b s).map (putEnv v) := by
  rw [memWrite_quiet (s := putEnv v s) hv.1 hv.2, memWrite_quiet hs.1 hs.2, putEnv_plat, putEnv_mem]
  split <;> rfl

/-- Without a race, a read leaves the whole state alone. -/
theorem memRead_state {a : Word} {b : Byte} (hs : Calm s.env) (h : memRead a s = some (b, t)) : t = s := by
  obtain ⟨-, n, rfl, hn⟩ := memRead_some h
  rw [(hn hs.1).1, skipFree_zero]

/-- Without a race, a write leaves the bookkeeping alone. -/
theorem memWrite_env {a : Word} {b : Byte} (hs : Calm s.env) (h : memWrite a b s = some t) : t.env = s.env := by
  obtain ⟨-, n, b', rfl, -, hn⟩ := memWrite_some h
  rw [(hn hs.1 hs.2).1]
  rfl

theorem endCommand_commutes (hv : Calm v) (e : Option Err) : Commutes v (endCommand e) := fun s hs => by
  rw [endCommand_quiet (s := putEnv v s) hv.1, endCommand_quiet hs.1]
  rfl

end operations

/-! ## Each FSM state's action -/

section actions
variable {v : Env} {complete : State → State}

theorem tagFirst_commutes (hv : Calm v) (hc : Commutes v complete) : Commutes v (tagFirst complete) := fun s hs => by
  unfold tagFirst readSrc
  simp only [memRead_putEnv hs hv, putEnv_regs, putEnv_eng]
  refine ite_commutes (endCommand_commutes hv _ s hs) ?_
  cases hr : memRead (s.regs.srcAddr + s.eng.off) s with
  | none => exact endCommand_commutes hv _ s hs
  | some p =>
    obtain ⟨b, t⟩ := p
    obtain rfl := memRead_state hs hr
    exact ite_commutes (hc { t with eng := { t.eng with off := t.eng.off + 1, acc := zext32 b } } hs) rfl

theorem tagCont_commutes (hv : Calm v) (hc : Commutes v complete) : Commutes v (tagCont complete) := fun s hs => by
  unfold tagCont readSrc
  simp only [memRead_putEnv hs hv, putEnv_regs, putEnv_eng]
  refine ite_commutes (endCommand_commutes hv _ s hs) ?_
  cases hr : memRead (s.regs.srcAddr + s.eng.off) s with
  | none => exact endCommand_commutes hv _ s hs
  | some p =>
    obtain ⟨b, t⟩ := p
    obtain rfl := memRead_state hs hr
    exact ite_commutes (endCommand_commutes hv _ t hs) (ite_commutes (endCommand_commutes hv _ t hs) (ite_commutes rfl
      (hc { t with eng := { t.eng with acc := shiftIn t.eng.acc b, off := t.eng.off + 1, first := false } } hs)))

theorem lenFirst_commutes (hv : Calm v) (hc : Commutes v complete) : Commutes v (lenFirst complete) := fun s hs => by
  unfold lenFirst readSrc
  simp only [memRead_putEnv hs hv, putEnv_regs, putEnv_eng]
  refine ite_commutes (endCommand_commutes hv _ s hs) ?_
  cases hr : memRead (s.regs.srcAddr + s.eng.off) s with
  | none => exact endCommand_commutes hv _ s hs
  | some p =>
    obtain ⟨b, t⟩ := p
    obtain rfl := memRead_state hs hr
    exact ite_commutes (hc { t with eng := { t.eng with acc := zext32 b, off := t.eng.off + 1 } } hs)
      (ite_commutes (endCommand_commutes hv _ t hs) (ite_commutes (endCommand_commutes hv _ t hs)
        (ite_commutes (endCommand_commutes hv _ t hs) rfl)))

theorem lenBytes_commutes (hv : Calm v) (hc : Commutes v complete) : Commutes v (lenBytes complete) := fun s hs => by
  unfold lenBytes readSrc
  simp only [memRead_putEnv hs hv, putEnv_regs, putEnv_eng]
  refine ite_commutes (endCommand_commutes hv _ s hs) ?_
  cases hr : memRead (s.regs.srcAddr + s.eng.off) s with
  | none => exact endCommand_commutes hv _ s hs
  | some p =>
    obtain ⟨b, t⟩ := p
    obtain rfl := memRead_state hs hr
    exact ite_commutes (endCommand_commutes hv _ t hs) (ite_commutes (hc { t with eng := { t.eng with
      acc := shiftIn t.eng.acc b, off := t.eng.off + 1, first := false, nrem := t.eng.nrem - 1 } } hs) rfl)

theorem decodeTagComplete_commutes (hv : Calm v) : Commutes v decodeTagComplete := fun s hs =>
  endCommand_commutes hv none { s with
    eng := { s.eng with ctag := s.eng.acc }
    regs := { s.regs with res0 := s.eng.acc, res1 := s.eng.off - s.regs.arg } } hs

theorem decodeLengthComplete_commutes (hv : Calm v) : Commutes v decodeLengthComplete := fun s hs =>
  endCommand_commutes hv none { s with
    eng := { s.eng with clen := s.eng.acc }
    regs := { s.regs with res0 := s.eng.acc, res1 := s.eng.off - s.regs.arg } } hs

theorem tokenTagComplete_commutes : Commutes v tokenTagComplete := fun _ _ => rfl

theorem tokenLenComplete_commutes : Commutes v tokenLenComplete := fun _ _ => rfl

theorem encTag_commutes (hv : Calm v) : Commutes v encTag := fun s hs => by
  unfold encTag
  rw [putEnv_eng]
  cases tagBytes s.eng.ctag with
  | none => exact endCommand_commutes hv _ s hs
  | some bs => rfl

theorem encLen_commutes (hv : Calm v) : Commutes v encLen := fun s hs =>
  ite_commutes (endCommand_commutes hv _ s hs) (ite_commutes (endCommand_commutes hv _ s hs) rfl)

/-- A command's end, as the outcome of an action that may lack a rule. -/
theorem endCommand_commutesOut (hv : Calm v) (e : Option Err) : CommutesOut v fun s => .next (endCommand e s) :=
  fun s hs => congrArg Host.Outcome.next (endCommand_commutes hv e s hs)

theorem emit_commutes {fieldDone : State → State} (hv : Calm v) (hc : Commutes v fieldDone) :
    CommutesOut v (emit fieldDone) := fun s hs => by
  unfold emit
  simp only [memWrite_putEnv hs hv, putEnv_regs, putEnv_eng]
  refine ite_commutes (endCommand_commutesOut hv _ s hs) (ite_commutes (endCommand_commutesOut hv _ s hs) ?_)
  cases s.eng.ebuf[s.eng.ei.toNat]? with
  | none => rfl
  | some b =>
    dsimp only
    cases hw : memWrite (s.regs.dstAddr + s.eng.wcnt) b s with
    | none => exact endCommand_commutesOut hv _ s hs
    | some t =>
      have ht : Calm t.env := memWrite_env hs hw ▸ hs
      exact congrArg Host.Outcome.next (ite_commutes (hc { t with
        eng := { t.eng with wcnt := t.eng.wcnt + 1, ei := t.eng.ei + 1 }
        regs := { t.regs with res0 := t.eng.wcnt + 1 } } ht) rfl)

theorem serializeFieldDone_commutes : Commutes v serializeFieldDone := fun s _ => by
  unfold serializeFieldDone
  rw [putEnv_eng]
  cases s.eng.fld <;> rfl

theorem parseTokStart_commutes (hv : Calm v) : Commutes v parseTokStart := fun s hs =>
  ite_commutes (endCommand_commutes hv _ s hs) (ite_commutes (endCommand_commutes hv _ s hs) rfl)

theorem parseTokEnd_commutes (hv : Calm v) : Commutes v parseTokEnd := fun s hs =>
  ite_commutes (endCommand_commutes hv _ s hs) rfl

theorem recWrite_commutes (hv : Calm v) : CommutesOut v recWrite := fun s hs => by
  unfold recWrite
  simp only [memWrite_putEnv hs hv, putEnv_regs, putEnv_eng]
  cases s.eng.recBuf[s.eng.k.toNat]? with
  | none => rfl
  | some b =>
    dsimp only
    cases memWrite (tokByteAddr s.regs.tokAddr s.eng.cnt (s.eng.k.setWidth 32)) b s with
    | none => exact endCommand_commutesOut hv _ s hs
    | some t => exact congrArg Host.Outcome.next (ite_commutes rfl rfl)

theorem findTokStart_commutes (hv : Calm v) : Commutes v findTokStart := fun s hs =>
  ite_commutes (endCommand_commutes hv _ s hs) rfl

theorem findTokEnd_commutes (hv : Calm v) : Commutes v findTokEnd := fun s hs =>
  ite_commutes (endCommand_commutes hv _ s hs) (ite_commutes
    (endCommand_commutes hv none { s with regs := { s.regs with
      res0 := s.eng.tstart, res1 := s.eng.ctag, res2 := s.eng.clen, res3 := s.regs.srcAddr + s.eng.vstart } } hs) rfl)

theorem serializeTokStart_commutes (hv : Calm v) : Commutes v serializeTokStart := fun s hs =>
  ite_commutes (endCommand_commutes hv _ s hs) rfl

theorem recRead_commutes (hv : Calm v) : CommutesOut v recRead := fun s hs => by
  unfold recRead
  simp only [memRead_putEnv hs hv, putEnv_regs, putEnv_eng]
  split
  · cases memRead (tokByteAddr s.regs.tokAddr s.eng.cnt (s.eng.k.setWidth 32)) s with
    | none => exact endCommand_commutesOut hv _ s hs
    | some p => exact congrArg Host.Outcome.next (ite_commutes rfl rfl)
  · rfl

theorem valCopy_commutes (hv : Calm v) : Commutes v valCopy := fun s hs => by
  unfold valCopy
  simp only [memRead_putEnv hs hv, putEnv_regs, putEnv_eng]
  refine ite_commutes (endCommand_commutes hv _ s hs) (ite_commutes (endCommand_commutes hv _ s hs) ?_)
  cases hr : memRead (s.eng.vaddr + s.eng.j) s with
  | none => exact endCommand_commutes hv _ s hs
  | some p =>
    obtain ⟨b, t⟩ := p
    obtain rfl := memRead_state hs hr
    simp only [Option.map_some, memWrite_putEnv hs hv, putEnv_regs, putEnv_eng]
    cases memWrite (t.regs.dstAddr + t.eng.wcnt) b t with
    | none => exact endCommand_commutes hv _ t hs
    | some u => exact ite_commutes rfl rfl

end actions

/-! ## Every engine step -/

section commands
variable {v : Env}

/-- An action that always answers. -/
theorem Commutes.next {f : State → State} {s : State} (h : Commutes v f) (hs : Calm s.env) :
    Host.Outcome.next (f (putEnv v s)) = putEnvOut v (.next (f s)) := congrArg _ (h s hs)

theorem execDecodeTag_commutes (hv : Calm v) : CommutesOut v execDecodeTag := fun s hs => by
  unfold execDecodeTag
  rw [putEnv_eng]
  cases s.eng.st with
  | tagFirst => exact (tagFirst_commutes hv (decodeTagComplete_commutes hv)).next hs
  | tagCont => exact (tagCont_commutes hv (decodeTagComplete_commutes hv)).next hs
  | _ => rfl

theorem execEncodeTag_commutes (hv : Calm v) : CommutesOut v execEncodeTag := fun s hs => by
  unfold execEncodeTag
  rw [putEnv_eng]
  cases s.eng.st with
  | encTag => exact (encTag_commutes hv).next hs
  | emit => exact emit_commutes hv (endCommand_commutes hv none) s hs
  | _ => rfl

theorem execDecodeLength_commutes (hv : Calm v) : CommutesOut v execDecodeLength := fun s hs => by
  unfold execDecodeLength
  rw [putEnv_eng]
  cases s.eng.st with
  | lenFirst => exact (lenFirst_commutes hv (decodeLengthComplete_commutes hv)).next hs
  | lenBytes => exact (lenBytes_commutes hv (decodeLengthComplete_commutes hv)).next hs
  | _ => rfl

theorem execEncodeLength_commutes (hv : Calm v) : CommutesOut v execEncodeLength := fun s hs => by
  unfold execEncodeLength
  rw [putEnv_eng]
  cases s.eng.st with
  | encLen => exact (encLen_commutes hv).next hs
  | emit => exact emit_commutes hv (endCommand_commutes hv none) s hs
  | _ => rfl

theorem execParse_commutes (hv : Calm v) : CommutesOut v execParse := fun s hs => by
  unfold execParse
  rw [putEnv_eng]
  cases s.eng.st with
  | tokStart => exact (parseTokStart_commutes hv).next hs
  | tagFirst => exact (tagFirst_commutes hv tokenTagComplete_commutes).next hs
  | tagCont => exact (tagCont_commutes hv tokenTagComplete_commutes).next hs
  | lenFirst => exact (lenFirst_commutes hv tokenLenComplete_commutes).next hs
  | lenBytes => exact (lenBytes_commutes hv tokenLenComplete_commutes).next hs
  | tokEnd => exact (parseTokEnd_commutes hv).next hs
  | recWrite => exact recWrite_commutes hv s hs
  | _ => rfl

theorem execFind_commutes (hv : Calm v) : CommutesOut v execFind := fun s hs => by
  unfold execFind
  rw [putEnv_eng]
  cases s.eng.st with
  | tokStart => exact (findTokStart_commutes hv).next hs
  | tagFirst => exact (tagFirst_commutes hv tokenTagComplete_commutes).next hs
  | tagCont => exact (tagCont_commutes hv tokenTagComplete_commutes).next hs
  | lenFirst => exact (lenFirst_commutes hv tokenLenComplete_commutes).next hs
  | lenBytes => exact (lenBytes_commutes hv tokenLenComplete_commutes).next hs
  | tokEnd => exact (findTokEnd_commutes hv).next hs
  | _ => rfl

theorem execSerialize_commutes (hv : Calm v) : CommutesOut v execSerialize := fun s hs => by
  unfold execSerialize
  rw [putEnv_eng]
  cases s.eng.st with
  | tokStart => exact (serializeTokStart_commutes hv).next hs
  | recRead => exact recRead_commutes hv s hs
  | encTag => exact (encTag_commutes hv).next hs
  | encLen => exact (encLen_commutes hv).next hs
  | emit => exact emit_commutes hv serializeFieldDone_commutes s hs
  | valCopy => exact (valCopy_commutes hv).next hs
  | _ => rfl

theorem execReserved_commutes (hv : Calm v) : CommutesOut v execReserved := fun s hs => by
  unfold execReserved
  rw [putEnv_eng]
  cases s.eng.st with
  | dispatch => exact (endCommand_commutes hv (some .badArgument)).next hs
  | _ => rfl

theorem exec_commutes (hv : Calm v) (i : Instr) : CommutesOut v (exec i) := by
  cases i with
  | decodeTag => exact execDecodeTag_commutes hv
  | encodeTag => exact execEncodeTag_commutes hv
  | decodeLength => exact execDecodeLength_commutes hv
  | encodeLength => exact execEncodeLength_commutes hv
  | parse => exact execParse_commutes hv
  | serialize => exact execSerialize_commutes hv
  | find => exact execFind_commutes hv

/-- While no race is open, the engine's step depends on no bookkeeping. -/
theorem engineStep_commutes (hv : Calm v) : CommutesOut v engineStep := fun s hs => by
  unfold engineStep
  refine ite_commutes rfl ?_
  rw [putEnv_regs]
  cases decode (cmdWord s.regs) with
  | ok i => exact exec_commutes hv i s hs
  | error e =>
    cases e
    exact execReserved_commutes hv s hs

end commands

/-! ## Runs -/

/-- An engine step opens no race. -/
theorem calm_of_engineStep {s t : State} (hs : Calm s.env) (ht : engineStep s = .next t) : Calm t.env := by
  obtain ⟨-, -, -, -, -, hraced, hcontested, -⟩ := (Effects.setting_eq_iff s t).1 (Effects.engineStep_setting s t ht)
  exact ⟨hraced.trans hs.1, hcontested.trans hs.2⟩

/-- With nothing scheduled and no race open, two machines that differ in their bookkeeping alone run alike, and go on. -/
theorem run_putEnv {v : Env} (hv : Calm v) (hvsched : v.sched = []) (n : Nat) {s : State} (heng : EngineInv s)
    (hs : Calm s.env) (hsched : s.env.sched = []) :
    ∃ t, run n s = .next t ∧ run n (putEnv v s) = .next (putEnv v t) := by
  induction n generalizing s with
  | zero => exact ⟨s, rfl, rfl⟩
  | succ n ih =>
    obtain ⟨u, hu, hinv⟩ := EngineRules.engineStep_inv heng
    obtain ⟨-, -, -, hkeep, -⟩ := (Effects.setting_eq_iff s u).1 (Effects.engineStep_setting s u hu)
    obtain ⟨t, ht, ht'⟩ := ih hinv (calm_of_engineStep hs hu) (hkeep.trans hsched)
    have hu' : step (putEnv v s) = .next (putEnv v u) := by
      rw [step_empty (s := putEnv v s) hvsched, engineStep_commutes hv s hs, hu]
      rfl
    exact ⟨t, (run_succ_next ((step_empty hsched).trans hu) n).trans ht, (run_succ_next hu' n).trans ht'⟩

/-- Machines with the same arguments, memory and platform start a command in states that differ in bookkeeping alone. -/
theorem withCommand_eq_putEnv {s s' : State} (hargs : SameArguments s.regs s'.regs) (hmem : s.mem = s'.mem)
    (hplat : s.plat = s'.plat) (w : Word) :
    s'.withCommand w = putEnv (s'.withCommand w).env (s.withCommand w) := by
  obtain ⟨h1, h2, h3, h4, h5, h6, h7⟩ := hargs
  simp [State.withCommand, startCommand, putEnv, Regs.started, hmem, hplat, h1, h2, h3, h4, h5, h6, h7]

/-- Settles O56: the second machine's start is the first's with other bookkeeping, which no step reads. -/
theorem commandsDoNotSeeEarlierOnes : Obligations.CommandsDoNotSeeEarlierOnes := by
  intro i s s' n hargs hmem hplat
  rw [withCommand_eq_putEnv hargs hmem hplat]
  obtain ⟨t, ht, ht'⟩ := run_putEnv (v := (s'.withCommand (encode i)).env) ⟨rfl, rfl⟩ rfl n
    (EngineRules.startCommand_inv (encode i) (s.withSched [])) ⟨rfl, rfl⟩ rfl
  exact ⟨t, _, ht, ht', rfl, rfl⟩

end Sys2Proof.Noninterference
end

section
/-! PROOF. The register port (10_state.md R20 to R25, 92_eei_decisions.md D25), reset (70_reset_and_hazards.md R300), and which
command a step runs (10_state.md R34 to R36). -/
namespace Sys2Proof.RegisterPort
open Sys2Proof Sys2Proof.Machine Sys2Proof.Laws

/-! ## The register map (10_state.md R21) -/

/-- The block's window begins at `BLOCK_BASE` (10_state.md R20). -/
theorem windowOffset_base_add (p : Platform) {n : Nat} (h : n < 2 ^ 32) :
    windowOffset p (p.blockBase + BitVec.ofNat 32 n) = n := by
  rw [windowOffset, BitVec.add_comm, BitVec.add_sub_cancel, BitVec.toNat_ofNat, Nat.mod_eq_of_lt h]

theorem windowOffset_base (p : Platform) : windowOffset p p.blockBase = 0 := by
  rw [windowOffset, BitVec.sub_self]
  rfl

theorem regAt_offset (r : Reg) : regAt r.offset = some r := by
  cases r <;> rfl

/-- Every register stands at a multiple of 4. -/
theorem offset_mod_four (r : Reg) : r.offset % 4 = 0 := by
  cases r <;> rfl

/-- Only its own offset leads to a register. -/
theorem offset_of_regAt {n : Nat} {r : Reg} (h : regAt n = some r) : r.offset = n := by
  have := List.find?_some h
  simpa using this

/-- No register stands at a misaligned offset (92_eei_decisions.md D25). -/
theorem regAt_misaligned {n : Nat} (h : n % 4 ≠ 0) : regAt n = none := by
  cases hr : regAt n with
  | none => rfl
  | some r => exact absurd (offset_of_regAt hr ▸ offset_mod_four r) h

/-! ## Writes (10_state.md R22) -/

/-- An aligned 32-bit write at a register's offset writes that register. -/
theorem portWrite_at {a : Word} {r : Reg} {s : State} (h : windowOffset s.plat a = r.offset) (w : Word) :
    portWrite a .word w s = writeReg r w s := by
  rw [portWrite, if_pos rfl, h, regAt_offset]

/-- Nothing happens at an offset without a register. -/
theorem portWrite_none {a : Word} {s : State} (h : regAt (windowOffset s.plat a) = none) (width : Width) (w : Word) :
    portWrite a width w s = s := by
  unfold portWrite
  rw [h]
  exact ite_self s

/-- The registers that the host may only read, and `STATUS` (10_state.md R21). -/
def ReadOnly (r : Reg) : Prop := r ∈ [Reg.status, .res0, .res1, .res2, .res3]

theorem writeReg_readOnly {r : Reg} (h : ReadOnly r) (w : Word) (s : State) : writeReg r w s = s := by
  unfold writeReg
  split
  · rfl
  · cases r <;> simp [ReadOnly] at h ⊢

/-- At the read-only registers and the reserved slots a write is ignored. -/
theorem portWrite_readOnly {a w : Word} {width : Width} {s : State}
    (h : windowOffset s.plat a ∈ [0x04, 0x24, 0x28, 0x2C, 0x30, 0x34, 0x38, 0x3C]) : portWrite a width w s = s := by
  cases hr : regAt (windowOffset s.plat a) with
  | none => exact portWrite_none hr width w
  | some r =>
    have hro : ReadOnly r := by
      rw [← offset_of_regAt hr] at h
      revert h
      cases r <;> simp [Reg.offset, ReadOnly]
    unfold portWrite
    split
    · rw [hr]
      exact writeReg_readOnly hro w s
    · rfl

theorem portWrite_busy {s : State} (h : s.regs.busy = true) (a : Word) (width : Width) (w : Word) :
    portWrite a width w s = s := by
  rcases Bounds.portWrite_cases a width w s with he | ⟨r, he⟩
  · exact he
  · rw [he, EngineRules.writeReg_busy h]

/-- Settles O7: the write reaches `CMD`, at the base of the window. -/
theorem acceptedCmdWriteStartsTheCommand : Obligations.AcceptedCmdWriteStartsTheCommand := by
  intro s w hbusy
  have hmove : hostMove (.regWrite s.plat.blockBase .word w) s = startCommand w s := by
    rw [hostMove, portWrite_at (r := .cmd) (windowOffset_base s.plat), writeReg, if_neg (by simp [hbusy])]
  rw [hmove]
  exact ⟨rfl, rfl, rfl, rfl⟩

/-- Settles O8: one lemma on ignored writes for each clause. -/
theorem registerWritesThatAreIgnored : Obligations.RegisterWritesThatAreIgnored := by
  intro s a w width
  exact ⟨fun hbusy => portWrite_busy hbusy a width w, fun hwidth => if_neg hwidth,
    fun halign => portWrite_none (regAt_misaligned halign) width w, fun hro => portWrite_readOnly hro⟩

/-- The argument registers (10_state.md R26). -/
def IsArgument (r : Reg) : Prop := r ∈ [Reg.srcAddr, .srcLen, .dstAddr, .dstCap, .tokAddr, .tokN, .arg]

/-- While `BUSY` is 0, a written argument register reads back, and no other register changes: register by register of the map. -/
theorem readReg_writeReg {r : Reg} (hr : IsArgument r) {s : State} (hbusy : s.regs.busy = false) (w : Word) (r' : Reg) :
    readReg r' (writeReg r w s).regs = if r' = r then w else readReg r' s.regs := by
  unfold writeReg
  rw [if_neg (by simp [hbusy])]
  unfold IsArgument at hr
  fin_cases hr <;> cases r' <;> rfl

/-- A write to an argument register stays within the registers. -/
theorem writeReg_argument_frame {r : Reg} (hr : IsArgument r) (w : Word) (s : State) :
    (writeReg r w s).eng = s.eng ∧ (writeReg r w s).mem = s.mem ∧ (writeReg r w s).plat = s.plat
      ∧ (writeReg r w s).env = s.env := by
  unfold writeReg
  split
  · exact ⟨rfl, rfl, rfl, rfl⟩
  · unfold IsArgument at hr
    fin_cases hr <;> exact ⟨rfl, rfl, rfl, rfl⟩

/-! ## Reads (10_state.md R22) -/

/-- The bus address of a register (10_state.md R20, R21). -/
def regAddr (p : Platform) (r : Reg) : Word := p.blockBase + BitVec.ofNat 32 r.offset

theorem windowOffset_regAddr (p : Platform) (r : Reg) : windowOffset p (regAddr p r) = r.offset :=
  windowOffset_base_add p (by cases r <;> decide)

/-- An aligned 32-bit read at a register's offset reads that register. -/
theorem portRead_at {a : Word} {r : Reg} {s : State} (h : windowOffset s.plat a = r.offset) :
    portRead a .word s = readReg r s.regs := by
  rw [portRead, if_pos rfl, h, regAt_offset]

theorem portRead_regAddr (r : Reg) (s : State) : portRead (regAddr s.plat r) .word s = readReg r s.regs :=
  portRead_at (windowOffset_regAddr s.plat r)

/-- A read returns 0 at an offset without a register. -/
theorem portRead_none {a : Word} {s : State} (h : regAt (windowOffset s.plat a) = none) (width : Width) :
    portRead a width s = 0 := by
  unfold portRead
  rw [h]
  exact ite_self 0

/-- The last three slots of the window are reserved (10_state.md R21). -/
theorem portRead_reserved (s : State) {n : Nat} (h : n ∈ [0x34, 0x38, 0x3C]) :
    portRead (s.plat.blockBase + BitVec.ofNat 32 n) .word s = 0 := by
  apply portRead_none
  fin_cases h <;> rw [windowOffset_base_add _ (by decide)] <;> rfl

/-- The bits of `CMD` (10_state.md R23). -/
theorem cmdWord_bit (g : Regs) {i : Nat} (h : i < 32) : (cmdWord g).getLsbD i = (decide (i < 3) && g.op.getLsbD i) := by
  by_cases h3 : i < 3
  · simp [cmdWord, h, h3]
  · simp [cmdWord, h3, BitVec.getLsbD_of_ge g.op i (by omega)]

/-- The bits of `STATUS` (10_state.md R25). -/
theorem statusWord_bit (g : Regs) {i : Nat} (h : i < 32) :
    (statusWord g).getLsbD i =
      if i = 0 then g.busy else if i = 1 then g.done
      else if 8 ≤ i ∧ i ≤ 11 then g.err.getLsbD (i - 8) else false := by
  simp only [statusWord, BitVec.getLsbD_or, BitVec.getLsbD_shiftLeft, BitVec.getLsbD_setWidth, BitVec.getLsbD_ofBool, h]
  by_cases h0 : i = 0
  · simp [h0]
  · by_cases h1 : i = 1
    · simp [h1]
    · have hpred : i - 1 ≠ 0 := by omega
      have hlt : i - 8 < 32 := by omega
      by_cases h8 : 8 ≤ i
      · have hhigh : ¬ i ≤ 11 → g.err.getLsbD (i - 8) = false := fun h11 => BitVec.getLsbD_of_ge _ _ (by omega)
        by_cases h11 : i ≤ 11
        · simp [h0, h1, h8, h11, hpred, hlt, Nat.not_lt.2 h8]
        · simp [h0, h1, h11, hpred, hhigh h11]
      · simp [h0, h1, h8, hpred, Nat.not_le.1 h8]

/-- A register read has no side effect (10_state.md R22). -/
theorem regRead_frame (a : Word) (width : Width) (s : State) :
    (hostMove (.regRead a width) s).regs = s.regs ∧ (hostMove (.regRead a width) s).eng = s.eng
      ∧ (hostMove (.regRead a width) s).mem = s.mem ∧ (hostMove (.regRead a width) s).plat = s.plat := by
  rw [hostMove]
  split <;> exact ⟨rfl, rfl, rfl, rfl⟩

/-- Settles O9: the write reaches the register at its offset. -/
theorem argumentRegistersReadBack : Obligations.ArgumentRegistersReadBack := by
  intro s w r hbusy hr a t
  have ht : t = writeReg r w s := portWrite_at (windowOffset_regAddr s.plat r) w
  obtain ⟨heng, hmem, hplat, henv⟩ := writeReg_argument_frame hr w s
  have hread : portRead (regAddr s.plat r) .word (writeReg r w s) = w := by
    rw [← hplat, portRead_regAddr, readReg_writeReg hr hbusy, if_pos rfl]
  rw [ht]
  exact ⟨hread, heng, hmem, hplat, henv, fun r' hne => by rw [readReg_writeReg hr hbusy, if_neg hne]⟩

/-- Settles O10: each offset leads to its register, and `CMD` and `STATUS` are read bit by bit. -/
theorem registerReadsFollowTheMap : Obligations.RegisterReadsFollowTheMap := by
  intro s
  have rd := fun r => portRead_regAddr r s
  refine ⟨fun i hi => ?_, fun i hi => ?_, rd .srcAddr, rd .srcLen, rd .dstAddr, rd .dstCap, rd .tokAddr, rd .tokN, rd .arg,
    rd .res0, rd .res1, rd .res2, rd .res3, portRead_reserved s (by decide), portRead_reserved s (by decide),
    portRead_reserved s (by decide), fun a width h => ?_, fun a width => ?_⟩
  · exact (congrArg (BitVec.getLsbD · i) (rd .cmd)).trans (cmdWord_bit s.regs hi)
  · exact (congrArg (BitVec.getLsbD · i) (rd .status)).trans (statusWord_bit s.regs hi)
  · rcases h with hwidth | halign
    · exact if_neg hwidth
    · exact portRead_none (regAt_misaligned halign) width
  · obtain ⟨hregs, heng, hmem, hplat⟩ := regRead_frame a width s
    refine ⟨hregs, heng, hmem, hplat, fun hwin => ?_, fun hwin => ?_⟩
    · have hin : inWindow s.plat a = true := decide_eq_true hwin
      rw [hostMove, if_pos hin]
      rfl
    · have hout : inWindow s.plat a = false := decide_eq_false (Nat.not_lt.2 hwin)
      rw [hostMove, if_neg (by simp [hout])]

/-! ## Reset (70_reset_and_hazards.md R300) -/

/-- Settles O13: every register of the reset state is 0, and its memory lists no byte. -/
theorem resetStateIsAllZero : Obligations.ResetStateIsAllZero := by
  refine ⟨fun r => ?_, rfl, rfl, fun a => read_nil a⟩
  cases r <;> rfl

/-! ## Which command a step runs (10_state.md R34 to R36) -/

/-- Settles O3: each of the three turns is a step of the engine, which runs the command in `CMD`. -/
theorem stepRunsTheCommandInCmd : Obligations.StepRunsTheCommandInCmd := by
  intro s i hdec hne
  have hrun : Running i s := ⟨hne, op_of_decodeOp (decode_cmdWord s.regs ▸ hdec)⟩
  have hengine := engineStep_running hrun
  refine ⟨fun hsched => (step_empty hsched).trans hengine, fun l hsched => ?_, fun l hsched hbusy => ?_⟩
  · have hrun' : Running i (s.withSched l) := hrun
    exact (Effects.step_engine hsched).trans (engineStep_running hrun')
  · exact (Effects.step_poll_busy hsched hbusy).trans hengine

/-- Settles O5: the engine moves, and in IDLE it has no step. -/
theorem idleEngineHoldsItsState : Obligations.IdleEngineHoldsItsState := by
  intro s hidle hsched
  rw [step_empty hsched, engineStep, if_pos hidle]

theorem usesState_ne {op : BitVec 3} {st st' : Fsm} (hst : st = st') (huse : usesState op st' = true) :
    usesState op st ≠ false := by
  rw [hst, huse]
  exact Bool.noConfusion

/-- In an FSM state that it does not use, a command stops with the fault of that state (10_state.md R32, R36, log 10). -/
theorem exec_noRule {i : Instr} {s : State} (hne : s.eng.st ≠ .idle) (hno : usesState i.op s.eng.st = false) :
    exec i s = .fault (noRuleFault s.eng.st) := by
  cases i with
  | decodeTag =>
    rw [exec, execDecodeTag]
    cases hst : s.eng.st with
    | idle => exact absurd hst hne
    | dispatch | tagFirst | tagCont => exact absurd hno (usesState_ne hst rfl)
    | _ => rfl
  | encodeTag =>
    rw [exec, execEncodeTag]
    cases hst : s.eng.st with
    | idle => exact absurd hst hne
    | dispatch | encTag | emit => exact absurd hno (usesState_ne hst rfl)
    | _ => rfl
  | decodeLength =>
    rw [exec, execDecodeLength]
    cases hst : s.eng.st with
    | idle => exact absurd hst hne
    | dispatch | lenFirst | lenBytes => exact absurd hno (usesState_ne hst rfl)
    | _ => rfl
  | encodeLength =>
    rw [exec, execEncodeLength]
    cases hst : s.eng.st with
    | idle => exact absurd hst hne
    | dispatch | encLen | emit => exact absurd hno (usesState_ne hst rfl)
    | _ => rfl
  | parse =>
    rw [exec, execParse]
    cases hst : s.eng.st with
    | idle => exact absurd hst hne
    | dispatch | tokStart | tagFirst | tagCont | lenFirst | lenBytes | tokEnd | recWrite => exact absurd hno (usesState_ne hst rfl)
    | _ => rfl
  | serialize =>
    rw [exec, execSerialize]
    cases hst : s.eng.st with
    | idle => exact absurd hst hne
    | dispatch | tokStart | recRead | encTag | encLen | emit | valCopy => exact absurd hno (usesState_ne hst rfl)
    | _ => rfl
  | find =>
    rw [exec, execFind]
    cases hst : s.eng.st with
    | idle => exact absurd hst hne
    | dispatch | tokStart | tagFirst | tagCont | lenFirst | lenBytes | tokEnd => exact absurd hno (usesState_ne hst rfl)
    | _ => rfl

/-- Only the unused codes have a fault of their own (10_state.md R36). -/
theorem noRuleFault_of_used {st : Fsm} (hE : st ≠ .unusedE) (hF : st ≠ .unusedF) : noRuleFault st = .noRule := by
  cases st with
  | unusedE => exact absurd rfl hE
  | unusedF => exact absurd rfl hF
  | _ => rfl

/-- Settles O6: the fault is the one of the FSM state. -/
theorem statesWithoutARuleStop : Obligations.StatesWithoutARuleStop := by
  intro i s hne hno
  rw [exec_noRule hne hno]
  refine ⟨fun hunused => ?_, fun hE hF => by rw [noRuleFault_of_used hE hF]⟩
  rcases hunused with h | h <;> rw [h] <;> rfl

end Sys2Proof.RegisterPort
end

section
/-! PROOF. Memory (20_memory.md R60 to R64): the bytes an engine step may store to, the bytes the decoders and FIND may read, the
canonical form of memory, and the token record. -/
namespace Sys2Proof.MemoryAccess
open Sys2Proof Sys2Proof.Machine Sys2Proof.Laws Sys2Proof.Effects

/-! ## The byte an engine step stores -/

/-- The next destination byte, while there is room for it (40_tag_codec.md R127, 43_serialize.md R213). -/
def NextDestination (s : State) (a : Word) : Prop :=
  a = s.regs.dstAddr + s.eng.wcnt ∧ s.eng.wcnt < s.regs.dstCap

/-- The next byte of the record being written (42_parse.md R182). -/
def NextRecordByte (s : State) (a : Word) : Prop :=
  a = recordByteAddr s ∧ s.eng.st = .recWrite ∧ s.eng.k.toNat < 12

/-- The byte that a step of the command may store to (20_memory.md R61). -/
def StoreTarget : Instr → State → Word → Prop
  | .encodeTag => NextDestination
  | .encodeLength => NextDestination
  | .serialize => NextDestination
  | .parse => NextRecordByte
  | .decodeTag => fun _ _ => False
  | .decodeLength => fun _ _ => False
  | .find => fun _ _ => False

/-- From `s` to `t` memory stays, or one byte is stored, at an address that `P` allows. -/
def Stores (P : Word → Prop) (s t : State) : Prop :=
  t.mem = s.mem ∨ ∃ a b, P a ∧ t.mem = s.mem.write a.toNat b

/-- A byte that reads otherwise than before is the one stored. -/
theorem Stores.target_of_read_ne {P : Word → Prop} {s t : State} (h : Stores P s t) {a : Word}
    (hne : t.mem.read a.toNat ≠ s.mem.read a.toNat) : P a := by
  rcases h with h | ⟨a', b, hP, h⟩ <;> rw [h] at hne
  · exact absurd rfl hne
  · by_cases ha : a.toNat = a'.toNat
    · rwa [BitVec.eq_of_toNat_eq ha]
    · exact absurd (read_write_other _ ha b) hne

theorem Stores.wf {P : Word → Prop} {s t : State} (h : Stores P s t) (hs : s.mem.wf = true) : t.mem.wf = true := by
  rcases h with h | ⟨a, b, -, h⟩ <;> rw [h]
  · exact hs
  · exact wf_write hs a b

section targets
variable {s : State}

/-- EMIT stores a byte only after its capacity test (40_tag_codec.md R127). -/
theorem emit_stores {fieldDone : State → State} (hdone : ∀ u, (fieldDone u).mem = u.mem) :
    OnNext (Stores (NextDestination s) s) (emit fieldDone s) := by
  refine emit_rule (OnNext (Stores (NextDestination s) s))
    (hFull := fun _ => onNext_next (.inl (endCommand_mem _ _)))
    (hStuck := fun _ _ => onNext_fault _)
    (hBus := fun _ _ => onNext_next (.inl (endCommand_mem _ _)))
    (hMore := fun b t hlt _ hw _ => ?more)
    (hLast := fun b t hlt _ hw _ => ?last)
  case more =>
    obtain ⟨-, n, b', rfl, -⟩ := memWrite_some hw
    exact onNext_next (.inr ⟨_, b', ⟨rfl, hlt⟩, rfl⟩)
  case last =>
    obtain ⟨-, n, b', rfl, -⟩ := memWrite_some hw
    exact onNext_next (.inr ⟨_, b', ⟨rfl, hlt⟩, hdone _⟩)

/-- VAL_COPY stores a byte only after its capacity test (43_serialize.md R213). -/
theorem valCopy_stores : Stores (NextDestination s) s (valCopy s) := by
  refine valCopy_rule (Stores (NextDestination s) s)
    (hFull := fun _ => .inl (endCommand_mem _ _))
    (hBusR := fun _ _ => .inl (endCommand_mem _ _))
    (hBusW := fun b t _ hr _ => ?busW)
    (hMore := fun b t u hlt hr hw _ => ?more)
    (hLast := fun b t u hlt hr hw _ => ?last)
  case busW =>
    obtain ⟨-, n, rfl, -⟩ := memRead_some hr
    exact .inl (endCommand_mem _ _)
  all_goals
    obtain ⟨-, n, rfl, -⟩ := memRead_some hr
    obtain ⟨-, m, b', rfl, -⟩ := memWrite_some hw
    exact .inr ⟨_, b', ⟨rfl, hlt⟩, rfl⟩

/-- REC_WRITE stores a byte of the record buffer, which has twelve (42_parse.md R182). -/
theorem recWrite_stores (hst : s.eng.st = .recWrite) : OnNext (Stores (NextRecordByte s) s) (recWrite s) := by
  refine recWrite_rule (OnNext (Stores (NextRecordByte s) s))
    (hStuck := fun _ => onNext_fault _)
    (hBus := fun _ => onNext_next (.inl (endCommand_mem _ _)))
    (hMore := fun b t hb hw _ => ?more)
    (hLast := fun b t hb hw _ => ?last)
  all_goals
    obtain ⟨hk, -⟩ := Vector.getElem?_eq_some_iff.1 hb
    obtain ⟨-, n, b', rfl, -⟩ := memWrite_some hw
    exact onNext_next (.inr ⟨_, b', ⟨rfl, hst, hk⟩, rfl⟩)

end targets

/-- The state that PARSE stores in is REC_WRITE; elsewhere its effect keeps memory. -/
theorem execParse_stores (s : State) : OnNext (Stores (NextRecordByte s) s) (execParse s) := by
  by_cases hst : s.eng.st = .recWrite
  · have he : execParse s = recWrite s := by unfold execParse; rw [hst]
    rw [he]
    exact recWrite_stores hst
  · exact fun t ht => .inl ((execParse_effect t ht).away hst).1

/-- The states that an encoder or SERIALIZE stores in are EMIT and VAL_COPY; elsewhere its effect keeps memory. -/
theorem exec_writer_stores {i : Instr} (hi : i ∈ [Instr.encodeTag, .encodeLength, .serialize]) (s : State) :
    OnNext (Stores (NextDestination s) s) (exec i s) := by
  by_cases hemit : s.eng.st = .emit
  · cases i with
    | encodeTag => rw [exec, execEncodeTag, hemit]; exact emit_stores fun u => endCommand_mem u none
    | encodeLength => rw [exec, execEncodeLength, hemit]; exact emit_stores fun u => endCommand_mem u none
    | serialize => rw [exec, execSerialize, hemit]; exact emit_stores fun u => (serializeFieldDone_effect u).mem_eq
    | _ => simp at hi
  · by_cases hcopy : s.eng.st = .valCopy
    · cases i with
      | encodeTag => rw [exec, execEncodeTag, hcopy]; exact onNext_fault _
      | encodeLength => rw [exec, execEncodeLength, hcopy]; exact onNext_fault _
      | serialize => rw [exec, execSerialize, hcopy]; exact onNext_next valCopy_stores
      | _ => simp at hi
    · exact fun t ht => .inl ((exec_writeEffect hi s t ht).away hemit hcopy).1

theorem exec_reader_stores {i : Instr} (hi : i ∈ [Instr.decodeTag, .decodeLength, .find]) (P : Word → Prop) (s : State) :
    OnNext (Stores P s) (exec i s) :=
  fun t ht => .inl (exec_readEffect hi s t ht).mem_eq

/-- A step of a command stores at most one byte, at the command's own place (20_memory.md R61). -/
theorem exec_stores (i : Instr) (s : State) : OnNext (Stores (StoreTarget i s) s) (exec i s) := by
  cases i with
  | encodeTag => exact exec_writer_stores (by decide) s
  | encodeLength => exact exec_writer_stores (by decide) s
  | serialize => exact exec_writer_stores (by decide) s
  | parse => exact execParse_stores s
  | decodeTag => exact exec_reader_stores (by decide) _ s
  | decodeLength => exact exec_reader_stores (by decide) _ s
  | find => exact exec_reader_stores (by decide) _ s

/-- A step of the engine stores at most one byte, at the place of the command that runs. -/
theorem engineStep_stores (s : State) :
    OnNext (Stores (fun a => ∃ i, Running i s ∧ StoreTarget i s a) s) (engineStep s) := by
  rcases engineStep_cases s with ⟨-, he⟩ | ⟨-, -, he⟩ | ⟨i, hrun, he⟩ <;> rw [he]
  · exact onNext_next (.inl rfl)
  · exact fun t ht => .inl (execReserved_effect s t ht).mem_eq
  · intro t ht
    rcases exec_stores i s t ht with h | ⟨a, b, hP, h⟩
    · exact .inl h
    · exact .inr ⟨a, b, ⟨i, hrun, hP⟩, h⟩

/-! ## Every step keeps memory in canonical form -/

/-- A host write keeps the canonical form of memory, whatever the note of memory without the running command holds (log 8). -/
theorem wf_hostStore {s : State} (hm : s.mem.wf = true) (a : Word) (v : Byte) : (hostStore a v s).mem.wf = true := by
  rcases hostStore_cases a v s with ⟨-, h⟩ | ⟨-, h⟩ | ⟨_, _, -, h⟩ <;> rw [h]
  · exact wf_freeBytes (wf_write hm _ _) _ _ _
  · exact wf_write hm _ _
  · exact wf_write hm _ _

/-- The register port does not reach memory (10_state.md R22). -/
theorem writeReg_mem (r : Reg) (w : Word) (s : State) : (writeReg r w s).mem = s.mem := by
  unfold writeReg
  split
  · rfl
  · cases r <;> rfl

theorem hostMove_wf {s : State} (hs : s.mem.wf = true) (m : HostMove) : (hostMove m s).mem.wf = true := by
  cases m with
  | regWrite a width w =>
    rw [hostMove]
    rcases Bounds.portWrite_cases a width w s with h | ⟨r, h⟩ <;> rw [h]
    · exact hs
    · rwa [writeReg_mem]
  | regRead a width =>
    rw [hostMove]
    split <;> exact hs
  | memWrite a v => exact wf_hostStore hs a v
  | memRead a => exact hs
  | reset => exact hs

/-- Settles O37: the engine stores at most one byte, and each move of the host keeps the form. -/
theorem everyStepKeepsMemoryCanonical : Obligations.EveryStepKeepsMemoryCanonical := by
  intro s t hs ht
  rcases step_cases s with ⟨l, he⟩ | ⟨m, l, he⟩ | ⟨l, he⟩ <;> rw [he] at ht
  · exact (engineStep_stores (s.withSched l) t ht).wf hs
  · cases ht
    exact hostMove_wf (s := s.withSched l) hs m
  · cases ht
    exact hs

/-! ## The engine stores in the write region only -/

/-- A place `n` bytes on from a base is `n` away from it (20_memory.md R62). -/
theorem dist_base_add (base n : Word) : Machine.dist base (base + n) = n.toNat := by
  unfold Machine.dist
  rw [add_sub_cancel_left]

/-- The record bytes of the first `n` tokens fill the first `12 n` bytes of the token list (20_memory.md R64). -/
theorem dist_tokByteAddr_lt {base i b n : Word} (hi : i < n) (hb : b.toNat < 12) :
    Machine.dist base (tokByteAddr base i b) < 12 * n.toNat := by
  have hadd : tokByteAddr base i b = base + (12#32 * i + b) := BitVec.add_assoc base (12#32 * i) b
  rw [hadd, dist_base_add]
  bv_omega

theorem inWriteRegion_destination {i : Instr} {s : State} (hop : s.regs.op = i.op)
    (hi : i ∈ [Instr.encodeTag, .encodeLength, .serialize]) (a : Word) :
    inWriteRegion s a = decide (Machine.dist s.regs.dstAddr a < s.regs.dstCap.toNat) := by
  unfold inWriteRegion
  rw [hop, decodeOp_op]
  cases i with
  | encodeTag | encodeLength | serialize => rfl
  | _ => simp at hi

theorem NextDestination.inWriteRegion {i : Instr} {s : State} {a : Word} (h : NextDestination s a)
    (hop : s.regs.op = i.op) (hi : i ∈ [Instr.encodeTag, .encodeLength, .serialize]) : inWriteRegion s a = true := by
  obtain ⟨rfl, hlt⟩ := h
  rw [inWriteRegion_destination hop hi, dist_base_add]
  exact decide_eq_true hlt

theorem NextRecordByte.inWriteRegion {s : State} {a : Word} (h : NextRecordByte s a)
    (hop : s.regs.op = Instr.parse.op) (hb : BoundsInv s) : inWriteRegion s a = true := by
  obtain ⟨rfl, hst, hk⟩ := h
  obtain ⟨⟨-, hcnt, -⟩, -⟩ := Bounds.boundsAt_of_boundsInv hst hb
  have hlt : s.eng.cnt < s.regs.tokN := hcnt (.inl hop)
  unfold Machine.inWriteRegion
  rw [hop, decodeOp_op]
  exact decide_eq_true (dist_tokByteAddr_lt hlt (by rw [BitVec.toNat_setWidth]; omega))

/-- The place a command stores to lies in its write region (20_memory.md R61). -/
theorem StoreTarget.inWriteRegion {i : Instr} {s : State} {a : Word} (h : StoreTarget i s a) (hop : s.regs.op = i.op)
    (hb : BoundsInv s) : inWriteRegion s a = true := by
  cases i with
  | encodeTag => exact NextDestination.inWriteRegion h hop (by decide)
  | encodeLength => exact NextDestination.inWriteRegion h hop (by decide)
  | serialize => exact NextDestination.inWriteRegion h hop (by decide)
  | parse => exact NextRecordByte.inWriteRegion h hop hb
  | decodeTag => exact h.elim
  | decodeLength => exact h.elim
  | find => exact h.elim

/-- Settles O32: a byte that changes is the one stored. Of the bounds only `cnt < TOK_N` in REC_WRITE is needed: the capacity
tests keep the destination, and the length of the record buffer bounds the byte index. -/
theorem engineWritesOnlyTheWriteRegion : Obligations.EngineWritesOnlyTheWriteRegion := by
  intro s t _ hb ht a hne
  obtain ⟨i, ⟨-, hop⟩, htarget⟩ := (engineStep_stores s t ht).target_of_read_ne hne
  exact htarget.inWriteRegion hop hb

/-! ## The decoders and FIND read the source region only -/

/-- The machine with another memory. -/
def putMem (m : Memory) (s : State) : State := { s with mem := m }

@[simp] theorem putMem_regs (m : Memory) (s : State) : (putMem m s).regs = s.regs := rfl
@[simp] theorem putMem_eng (m : Memory) (s : State) : (putMem m s).eng = s.eng := rfl

/-- The outcome with another memory in its next state. -/
def putMemOut (m : Memory) : Out → Out
  | .next t => .next (putMem m t)
  | .fault r => .fault r
  | .refused r => .refused r

/-- The memory agrees with the machine's on the source region (20_memory.md R61). -/
def SourceAgrees (m : Memory) (s : State) : Prop :=
  ∀ a : Word, Machine.dist s.regs.srcAddr a < s.regs.srcLen.toNat → m.read a.toNat = s.mem.read a.toNat

/-- The action does not look at memory. -/
def IgnoresMem (f : State → State) : Prop := ∀ m s, f (putMem m s) = putMem m (f s)

/-- A test that memory does not enter is carried out by the two branches, each of which may use its outcome. -/
theorem ite_putMem {m : Memory} {c : Prop} [Decidable c] {a b a' b' : State} (ha : c → a' = putMem m a)
    (hb : ¬ c → b' = putMem m b) : (if c then a' else b') = putMem m (if c then a else b) := by
  by_cases h : c
  · rw [if_pos h, if_pos h, ha h]
  · rw [if_neg h, if_neg h, hb h]

theorem endCommand_ignoresMem (e : Option Err) : IgnoresMem (endCommand e) := fun _ _ =>
  ite_putMem (fun _ => rfl) (fun _ => rfl)

/-- An update of the registers before such an action in the same step does not look at memory either. -/
theorem IgnoresMem.after {f : State → State} (hf : IgnoresMem f) {g : Regs} {e : Engine} {m : Memory} {s : State} :
    f { putMem m s with regs := g, eng := e } = putMem m (f { s with regs := g, eng := e }) :=
  hf m { s with regs := g, eng := e }

section reading
variable {m : Memory} {s : State} {complete : State → State}

/-- Below `SRC_LEN`, a source byte is the same in both memories. -/
theorem readSrc_putMem (h : SourceAgrees m s) (hin : s.eng.off < s.regs.srcLen) :
    readSrc s.eng.off (putMem m s) = (readSrc s.eng.off s).map fun p => (p.1, putMem m p.2) := by
  have hbyte : m.read (s.regs.srcAddr + s.eng.off).toNat = s.mem.read (s.regs.srcAddr + s.eng.off).toNat :=
    h _ (by rw [dist_base_add]; exact hin)
  unfold readSrc memRead putMem
  rw [hbyte]
  split
  · split <;> rfl
  · rfl

theorem tagFirst_putMem (h : SourceAgrees m s) (hc : IgnoresMem complete) :
    tagFirst complete (putMem m s) = putMem m (tagFirst complete s) := by
  unfold tagFirst
  refine ite_putMem (fun _ => endCommand_ignoresMem _ _ _) fun hin => ?_
  rw [putMem_eng, readSrc_putMem h (BitVec.not_le.1 hin)]
  cases readSrc s.eng.off s with
  | none => exact endCommand_ignoresMem _ _ _
  | some p => exact ite_putMem (fun _ => hc.after) fun _ => rfl

theorem tagCont_putMem (h : SourceAgrees m s) (hc : IgnoresMem complete) :
    tagCont complete (putMem m s) = putMem m (tagCont complete s) := by
  unfold tagCont
  refine ite_putMem (fun _ => endCommand_ignoresMem _ _ _) fun hin => ?_
  rw [putMem_eng, readSrc_putMem h (BitVec.not_le.1 hin)]
  cases readSrc s.eng.off s with
  | none => exact endCommand_ignoresMem _ _ _
  | some p =>
    exact ite_putMem (fun _ => endCommand_ignoresMem _ _ _) fun _ =>
      ite_putMem (fun _ => endCommand_ignoresMem _ _ _) fun _ => ite_putMem (fun _ => rfl) fun _ => hc.after

theorem lenFirst_putMem (h : SourceAgrees m s) (hc : IgnoresMem complete) :
    lenFirst complete (putMem m s) = putMem m (lenFirst complete s) := by
  unfold lenFirst
  refine ite_putMem (fun _ => endCommand_ignoresMem _ _ _) fun hin => ?_
  rw [putMem_eng, readSrc_putMem h (BitVec.not_le.1 hin)]
  cases readSrc s.eng.off s with
  | none => exact endCommand_ignoresMem _ _ _
  | some p =>
    exact ite_putMem (fun _ => hc.after) fun _ => ite_putMem (fun _ => endCommand_ignoresMem _ _ _) fun _ =>
      ite_putMem (fun _ => endCommand_ignoresMem _ _ _) fun _ =>
        ite_putMem (fun _ => endCommand_ignoresMem _ _ _) fun _ => rfl

theorem lenBytes_putMem (h : SourceAgrees m s) (hc : IgnoresMem complete) :
    lenBytes complete (putMem m s) = putMem m (lenBytes complete s) := by
  unfold lenBytes
  refine ite_putMem (fun _ => endCommand_ignoresMem _ _ _) fun hin => ?_
  rw [putMem_eng, readSrc_putMem h (BitVec.not_le.1 hin)]
  cases readSrc s.eng.off s with
  | none => exact endCommand_ignoresMem _ _ _
  | some p =>
    exact ite_putMem (fun _ => endCommand_ignoresMem _ _ _) fun _ => ite_putMem (fun _ => hc.after) fun _ => rfl

end reading

theorem decodeTagComplete_ignoresMem : IgnoresMem decodeTagComplete := fun _ _ => (endCommand_ignoresMem none).after

theorem decodeLengthComplete_ignoresMem : IgnoresMem decodeLengthComplete := fun _ _ =>
  (endCommand_ignoresMem none).after

theorem tokenTagComplete_ignoresMem : IgnoresMem tokenTagComplete := fun _ _ => rfl

theorem tokenLenComplete_ignoresMem : IgnoresMem tokenLenComplete := fun _ _ => rfl

theorem findTokStart_ignoresMem : IgnoresMem findTokStart := fun _ _ =>
  ite_putMem (fun _ => endCommand_ignoresMem _ _ _) fun _ => rfl

theorem findTokEnd_ignoresMem : IgnoresMem findTokEnd := fun _ _ =>
  ite_putMem (fun _ => endCommand_ignoresMem _ _ _) fun _ =>
    ite_putMem (fun _ => (endCommand_ignoresMem none).after) fun _ => rfl

section commands
variable {m : Memory} {s : State}

theorem execDecodeTag_putMem (h : SourceAgrees m s) : execDecodeTag (putMem m s) = putMemOut m (execDecodeTag s) := by
  unfold execDecodeTag
  rw [putMem_eng]
  cases s.eng.st with
  | tagFirst => exact congrArg _ (tagFirst_putMem h decodeTagComplete_ignoresMem)
  | tagCont => exact congrArg _ (tagCont_putMem h decodeTagComplete_ignoresMem)
  | _ => rfl

theorem execDecodeLength_putMem (h : SourceAgrees m s) :
    execDecodeLength (putMem m s) = putMemOut m (execDecodeLength s) := by
  unfold execDecodeLength
  rw [putMem_eng]
  cases s.eng.st with
  | lenFirst => exact congrArg _ (lenFirst_putMem h decodeLengthComplete_ignoresMem)
  | lenBytes => exact congrArg _ (lenBytes_putMem h decodeLengthComplete_ignoresMem)
  | _ => rfl

theorem execFind_putMem (h : SourceAgrees m s) : execFind (putMem m s) = putMemOut m (execFind s) := by
  unfold execFind
  rw [putMem_eng]
  cases s.eng.st with
  | tokStart => exact congrArg _ (findTokStart_ignoresMem m s)
  | tagFirst => exact congrArg _ (tagFirst_putMem h tokenTagComplete_ignoresMem)
  | tagCont => exact congrArg _ (tagCont_putMem h tokenTagComplete_ignoresMem)
  | lenFirst => exact congrArg _ (lenFirst_putMem h tokenLenComplete_ignoresMem)
  | lenBytes => exact congrArg _ (lenBytes_putMem h tokenLenComplete_ignoresMem)
  | tokEnd => exact congrArg _ (findTokEnd_ignoresMem m s)
  | _ => rfl

theorem exec_reader_putMem {i : Instr} (hi : i ∈ [Instr.decodeTag, .decodeLength, .find]) (h : SourceAgrees m s) :
    exec i (putMem m s) = putMemOut m (exec i s) := by
  cases i with
  | decodeTag => exact execDecodeTag_putMem h
  | decodeLength => exact execDecodeLength_putMem h
  | find => exact execFind_putMem h
  | _ => simp at hi

end commands

/-- Settles O33: replacing memory by one that agrees on the source region commutes with the step. -/
theorem decodersReadOnlyTheSourceRegion : Obligations.DecodersReadOnlyTheSourceRegion := by
  intro i hi s t m hagree ht
  calc exec i (putMem m s) = putMemOut m (exec i s) := exec_reader_putMem hi hagree
    _ = .next (putMem m t) := by rw [ht]; rfl

/-! ## The token record (20_memory.md R64) -/

/-- Byte `i` of a word is bits [8i+7 : 8i] of its value. -/
theorem byteOf_toNat (w : Word) (i : Nat) : (byteOf w i).toNat = w.toNat / 256 ^ i % 256 := by
  unfold byteOf
  rw [BitVec.extractLsb'_toNat, Nat.shiftRight_eq_div_pow, Nat.pow_mul]

/-- A word is the little-endian reading of its own bytes. -/
theorem wordOfBytes_byteOf (w : Word) : wordOfBytes (byteOf w 0) (byteOf w 1) (byteOf w 2) (byteOf w 3) = w := by
  unfold wordOfBytes byteOf
  rw [BitVec.extractLsb'_append_extractLsb'_eq_extractLsb' (rfl : 8 * 3 = 8 * 2 + 8),
    BitVec.extractLsb'_append_extractLsb'_eq_extractLsb' (rfl : 8 * 2 = 8 * 1 + 8),
    BitVec.extractLsb'_append_extractLsb'_eq_extractLsb' (rfl : 8 * 1 = 8 * 0 + 8)]
  exact BitVec.extractLsb'_eq_self

section record
variable (t l a : Word) {i : Nat}

theorem recordBytes_tag_byte (h : i < 4) : (recordBytes t l a)[i]? = some (byteOf t i) := by
  interval_cases i <;> rfl

theorem recordBytes_length_byte (h : i < 4) : (recordBytes t l a)[4 + i]? = some (byteOf l i) := by
  interval_cases i <;> rfl

theorem recordBytes_value_byte (h : i < 4) : (recordBytes t l a)[8 + i]? = some (byteOf a i) := by
  interval_cases i <;> rfl

end record

/-- Settles O49: each field's bytes are those of its word, which they give back. -/
theorem tokenRecordIsThreeLittleEndianWords : Obligations.TokenRecordIsThreeLittleEndianWords := by
  intro t l a
  refine ⟨fun i hi => ?_, fun i hi => ?_, fun i hi => ?_, wordOfBytes_byteOf t, wordOfBytes_byteOf l, wordOfBytes_byteOf a⟩
  · rw [recordBytes_tag_byte t l a hi, Option.map_some, byteOf_toNat]
  · rw [recordBytes_length_byte t l a hi, Option.map_some, byteOf_toNat]
  · rw [recordBytes_value_byte t l a hi, Option.map_some, byteOf_toNat]

end Sys2Proof.MemoryAccess
end

section
/-! PROOF. The command word (30_encoding.md R90 to R92), the step of DISPATCH (R93), and the reserved opcode from its `CMD` write to
its end (R92). -/
namespace Sys2Proof.CommandWord
open Sys2Proof Sys2Proof.Machine Sys2Proof.Laws

/-! ## Which command a word names (30_encoding.md R90 to R92) -/

theorem opField_toNat (w : Word) : (opField w).toNat = w.toNat % 8 := by
  simp [opField, BitVec.extractLsb'_toNat]

theorem opField_eq_iff (w : Word) (op : BitVec 3) : opField w = op ↔ w.toNat % 8 = op.toNat := by
  rw [← BitVec.toNat_inj, opField_toNat]

theorem decode_of_mod {w : Word} {i : Instr} (h : w.toNat % 8 = i.op.toNat) : decode w = .ok i := by
  rw [decode, (opField_eq_iff w i.op).2 h, decodeOp_op]

/-- The only opcode without a command is 0 (30_encoding.md R92). -/
theorem decodeOp_reserved_iff (op : BitVec 3) : decodeOp op = .error .reservedOp ↔ op = 0#3 := by
  revert op
  decide

theorem decode_reserved_iff (w : Word) : decode w = .error .reservedOp ↔ w.toNat % 8 = 0 := by
  rw [decode, decodeOp_reserved_iff, opField_eq_iff]
  rfl

/-- Settles O1: the remainder modulo 8 is the opcode, which names its command. -/
theorem commandWordNamesItsCommand : Obligations.CommandWordNamesItsCommand := fun w =>
  ⟨(decode_reserved_iff w).2, decode_of_mod (i := .decodeTag), decode_of_mod (i := .encodeTag),
    decode_of_mod (i := .decodeLength), decode_of_mod (i := .encodeLength), decode_of_mod (i := .parse),
    decode_of_mod (i := .serialize), decode_of_mod (i := .find)⟩

theorem decodeTableWord_of_mod {n : Nat} {i : Instr} (hn : n < 2 ^ 32) (h : n % 8 = i.op.toNat) :
    decodeTableWord 32 n = some i := by
  have hword : (tableWord 32 n).toNat % 8 = i.op.toNat := by
    rw [tableWord, BitVec.toNat_ofNat, Nat.mod_mod, Nat.mod_eq_of_lt hn, h]
  rw [decodeTableWord, decode_of_mod hword]

theorem decodeTableWord_reserved {n : Nat} (hn : n < 2 ^ 32) (h : n % 8 = 0) : decodeTableWord 32 n = none := by
  have hword : (tableWord 32 n).toNat % 8 = 0 := by
    rw [tableWord, BitVec.toNat_ofNat, Nat.mod_mod, Nat.mod_eq_of_lt hn, h]
  rw [decodeTableWord, (decode_reserved_iff _).2 hword]

/-- Settles O2: each word is read by its remainder modulo 8. -/
theorem sampleCommandWordsDecode : Obligations.SampleCommandWordsDecode :=
  ⟨decodeTableWord_of_mod (by decide) rfl, decodeTableWord_of_mod (by decide) rfl,
    decodeTableWord_of_mod (by decide) rfl, decodeTableWord_of_mod (by decide) rfl,
    decodeTableWord_of_mod (by decide) rfl, decodeTableWord_of_mod (by decide) rfl,
    decodeTableWord_of_mod (by decide) rfl, decodeTableWord_reserved (by decide) rfl⟩

/-! ## The step of DISPATCH (30_encoding.md R93) -/

/-- PARSE, SERIALIZE and FIND start at a token boundary. -/
theorem exec_dispatch_tokens {i : Instr} (hi : i ∈ [Instr.parse, .serialize, .find]) {s : State}
    (hst : s.eng.st = .dispatch) : exec i s = .next { s with eng := { s.eng with st := .tokStart } } := by
  cases i with
  | parse => rw [exec, execParse, hst]
  | serialize => rw [exec, execSerialize, hst]
  | find => rw [exec, execFind, hst]
  | _ => simp at hi

/-- DISPATCH ends the reserved opcode (30_encoding.md R92). -/
theorem engineStep_reserved {s : State} (hst : s.eng.st = .dispatch) (hop : s.regs.op = 0#3) :
    engineStep s = .next (raiseErr .badArgument s) := by
  have hdec : decode (cmdWord s.regs) = .error .reservedOp := by
    rw [decode_cmdWord, hop]
    rfl
  rw [engineStep, if_neg (by simp [hst]), hdec]
  dsimp only
  rw [execReserved, hst]

/-- Settles O15: each command's own line of R93. -/
theorem dispatchStep : Obligations.DispatchStep := by
  intro s hst
  refine ⟨?_, ?_, ?_, ?_, fun i hi => exec_dispatch_tokens hi hst, engineStep_reserved hst⟩
  · rw [exec, execDecodeTag, hst]
  · rw [exec, execEncodeTag, hst]
  · rw [exec, execDecodeLength, hst]
  · rw [exec, execEncodeLength, hst]

/-! ## The reserved opcode, from its start to its end (30_encoding.md R92) -/

/-- A 32-bit write to the base of the window reaches `CMD`, and an engine that is not busy accepts it (10_state.md R22, R24). -/
theorem hostMove_cmdWrite {s : State} (hbusy : s.regs.busy = false) (w : Word) :
    hostMove (.regWrite s.plat.blockBase .word w) s = startCommand w s := by
  rw [hostMove, RegisterPort.portWrite_at (r := .cmd) (RegisterPort.windowOffset_base s.plat), writeReg,
    if_neg (by simp [hbusy])]

/-- After a command's end `STATUS` holds `DONE` and the error's code (10_state.md R25, 60_exceptions.md R271, R272). -/
theorem statusWord_ended (e : Option Err) (g : Regs) :
    statusWord (g.ended e) = (errCode e).setWidth 32 <<< 8 ||| 2#32 := by
  simp [statusWord, Regs.ended]

/-- Settles O4: the accepted word starts at DISPATCH, whose step ends the reserved opcode. -/
theorem reservedOpEndsWithBadArgument : Obligations.ReservedOpEndsWithBadArgument := by
  refine ⟨decode_reserved_iff, fun s w hw hbusy hsched => ?_⟩
  have hop : opField w = 0#3 := (opField_eq_iff w 0#3).2 hw
  rw [hostMove_cmdWrite hbusy]
  refine ⟨rfl, rfl, rfl, raiseErr .badArgument (startCommand w s), ?_, ?_⟩
  · rw [step_empty (s := startCommand w s) hsched]
    exact engineStep_reserved rfl hop
  · rw [raiseErr, endCommand_quiet rfl, startCommand_regs, hop]
    exact ⟨rfl, statusWord_ended _ _, rfl, rfl, rfl, rfl, rfl, rfl⟩

end Sys2Proof.CommandWord
end

section
/-! PROOF. What the decoders of one field answer (30_encoding.md R95 to R98, R102). A run of DECODE_TAG or DECODE_LENGTH is at every
step at a place of its field: so many bytes read, each with the form the wire format gives it, their value in the accumulator. -/
namespace Sys2Proof.FieldDecoding
open Sys2Proof Sys2Proof.Machine Sys2Proof.Laws Sys2Proof.Effects

/-! ## Big-endian values (20_memory.md R63) -/

@[simp] theorem bigEndianValue_nil : bigEndianValue [] = 0 := rfl

theorem bigEndianValue_concat (bs : List Byte) (b : Byte) :
    bigEndianValue (bs ++ [b]) = bigEndianValue bs * 256 + b.toNat := by
  simp [bigEndianValue]

/-- The first byte is the most significant. -/
theorem bigEndianValue_cons (b : Byte) (bs : List Byte) :
    bigEndianValue (b :: bs) = b.toNat * 256 ^ bs.length + bigEndianValue bs := by
  induction bs using List.reverseRecOn with
  | nil => simp [bigEndianValue]
  | append_singleton bs c ih =>
    rw [← List.cons_append, bigEndianValue_concat, bigEndianValue_concat, ih, List.length_append, List.length_singleton]
    ring

theorem bigEndianValue_lt (bs : List Byte) : bigEndianValue bs < 256 ^ bs.length := by
  induction bs using List.reverseRecOn with
  | nil => simp
  | append_singleton bs b ih =>
    rw [bigEndianValue_concat, List.length_append, List.length_singleton, pow_succ]
    omega

/-! ## The bytes of the source buffer (20_memory.md R61, R62) -/

/-- Byte `i` of the source bytes from offset `o` on. -/
def sourceByte (v : Visible) (o : Word) (i : Nat) : Byte := v.mem.read (v.regs.srcAddr + o + BitVec.ofNat 32 i).toNat

section source
variable (v : Visible) (o : Word)

theorem sourceByte_succ (i : Nat) : sourceByte v o (i + 1) = sourceByte v (o + 1) i := by
  have haddr : v.regs.srcAddr + o + BitVec.ofNat 32 (i + 1) = v.regs.srcAddr + (o + 1) + BitVec.ofNat 32 i := by
    rw [Nat.add_comm i 1, BitVec.ofNat_add]
    ac_rfl
  rw [sourceByte, haddr, sourceByte]

@[simp] theorem sourceBytes_length (n : Nat) : (sourceBytes v o n).length = n := by simp [sourceBytes]

theorem sourceBytes_getD {n i : Nat} (h : i < n) : (sourceBytes v o n)[i]?.getD 0 = sourceByte v o i := by
  simp [sourceBytes, sourceByte, h]

theorem sourceBytes_concat (n : Nat) : sourceBytes v o (n + 1) = sourceBytes v o n ++ [sourceByte v o n] := by
  simp [sourceBytes, sourceByte, List.range_succ]

theorem sourceBytes_cons (n : Nat) : sourceBytes v o (n + 1) = sourceByte v o 0 :: sourceBytes v (o + 1) n := by
  rw [sourceBytes, List.range_succ_eq_map, List.map_cons, List.map_map]
  exact congrArg _ (List.map_congr_left fun i _ => sourceByte_succ v o i)

/-- The accumulator law on the bytes read so far (10_state.md R31). -/
theorem bigEndianValue_sourceBytes_succ (n : Nat) :
    bigEndianValue (sourceBytes v o (n + 1)) = bigEndianValue (sourceBytes v o n) * 256 + (sourceByte v o n).toNat := by
  rw [sourceBytes_concat, bigEndianValue_concat]

end source

/-! ## The bits of a field's bytes (30_encoding.md R95 to R98) -/

theorem low5_eq_iff (b : Byte) : low5 b = 31#5 ↔ b.toNat % 32 = 31 := by
  rw [← BitVec.toNat_inj, low5, BitVec.extractLsb'_toNat]
  simp

theorem low7_toNat (b : Byte) : (low7 b).toNat = b.toNat % 128 := by
  simp [low7, BitVec.extractLsb'_toNat]

theorem bit7_eq_decide (b : Byte) : bit7 b = decide (128 ≤ b.toNat) := by
  rw [bit7, BitVec.getLsbD, Nat.testBit_eq_decide_div_mod_eq]
  exact decide_eq_decide.2 (by omega)

theorem bit7_iff (b : Byte) : bit7 b = true ↔ 128 ≤ b.toNat := by simp [bit7_eq_decide]

theorem not_bit7_iff (b : Byte) : bit7 b = false ↔ b.toNat < 128 := by simp [bit7_eq_decide]

theorem zext32_toNat (b : Byte) : (zext32 b).toNat = b.toNat := by
  rw [zext32, BitVec.toNat_setWidth]
  omega

/-! ## Runs of a command -/

/-- What every step keeps along its way holds where a run ends. -/
theorem run_keeps {P : State → Prop} (hstep : ∀ s, P s → OnNext P (step s)) (n : Nat) {s : State} (hs : P s) :
    OnNext P (run n s) := by
  induction n generalizing s with
  | zero => exact onNext_next hs
  | succ n ih =>
    rw [run_succ]
    cases h : step s with
    | next t => exact ih (hstep s hs t h)
    | _ => exact fun _ ht => by cases ht

theorem run_setting (n : Nat) {s : State} (hsched : s.env.sched = []) :
    OnNext (fun t => setting t = setting s) (run n s) := by
  refine run_keeps (fun u hu t ht => ?_) n rfl
  have hu' : u.env.sched = [] := (congrArg Setting.sched hu).trans hsched
  exact (engineStep_setting u t (step_empty hu' ▸ ht)).trans hu

/-- Left alone, a command is in IDLE after as many steps as its step bound (70_reset_and_hazards.md R307). -/
theorem run_commandBound_idle (s : State) (w : Word) :
    OnNext (fun t => t.eng.st = .idle) (run (commandBound (s.withCommand w).regs) (s.withCommand w)) := by
  intro t ht
  obtain ⟨n, u, hn, hu, hidle⟩ :=
    Termination.reaches_idle_alone (Termination.startCommand_sound w (s.withSched [])) rfl
  have hbound : n ≤ commandBound (s.withCommand w).regs := hn.trans (Termination.startCommand_rank w (s.withSched []))
  have hsched : u.env.sched = [] := congrArg Setting.sched (run_setting n rfl u hu)
  rw [← Nat.add_sub_of_le hbound, State.withCommand, run_add hu, run_idle hidle hsched] at ht
  cases ht
  exact hidle

/-! ## The place in a field -/

/-- A machine on its way from `s₀`: its memory and setting are the same, and no race is open. -/
structure Undisturbed (s₀ s : State) : Prop where
  setting_eq : setting s = setting s₀
  mem_eq : s.mem = s₀.mem
  quiet : s.env.raced = false

theorem Undisturbed.withEngine {s₀ s : State} (h : Undisturbed s₀ s) (e : Engine) : Undisturbed s₀ { s with eng := e } :=
  ⟨h.setting_eq, h.mem_eq, h.quiet⟩

theorem Undisturbed.step {s₀ s t : State} (h : Undisturbed s₀ s) (hread : ReadEffect s t) : Undisturbed s₀ t :=
  ⟨hread.setting_eq.trans h.setting_eq, hread.mem_eq.trans h.mem_eq,
    (congrArg Setting.raced hread.setting_eq).trans h.quiet⟩

/-- The engine has read `n` bytes of the field at `ARG`, all of them within the source buffer. -/
structure HasRead (g : Regs) (n : Nat) (e : Engine) : Prop where
  off_eq : e.off = g.arg + BitVec.ofNat 32 n
  inside : n ≠ 0 → g.arg.toNat + n ≤ g.srcLen.toNat

/-- Within the source buffer, the offset does not wrap (00_scope.md R9). -/
theorem HasRead.off_toNat {g : Regs} {n : Nat} {e : Engine} (h : HasRead g n e) : e.off.toNat = g.arg.toNat + n := by
  have hlen := g.srcLen.isLt
  have hinside := h.inside
  rw [h.off_eq, BitVec.toNat_add, BitVec.toNat_ofNat]
  omega

/-- A decoder of one field that is running or has ended: before its first byte; within the field, in the FSM state `more`, `k` bytes
after the first and `Open` telling what they are; or in IDLE, a success meaning that the `RES1` bytes are a field of value `RES0`. -/
inductive Decoding (s₀ : State) (start more : Fsm) (Open : Nat → Engine → Prop) (Field : Nat → Word → Prop) (s : State) : Prop
  | dispatch (hst : s.eng.st = .dispatch)
  | first (hst : s.eng.st = start) (hread : HasRead s₀.regs 0 s.eng)
  | within (k : Nat) (hst : s.eng.st = more) (hread : HasRead s₀.regs (k + 1) s.eng) (hopen : Open k s.eng)
  | ended (hst : s.eng.st = .idle)
      (hfield : s.regs.err = 0 → 1 ≤ s.regs.res1.toNat
        ∧ s₀.regs.arg.toNat + s.regs.res1.toNat ≤ s₀.regs.srcLen.toNat ∧ Field s.regs.res1.toNat s.regs.res0)

section place
variable {s₀ s t : State} {n : Nat} {b : Byte} {start more : Fsm} {Open : Nat → Engine → Prop} {Field : Nat → Word → Prop}

theorem HasRead.zero {g : Regs} {e : Engine} (h : e.off = g.arg) : HasRead g 0 e :=
  ⟨h.trans (BitVec.add_zero g.arg).symm, fun h0 => absurd rfl h0⟩

/-- The next source byte is the next one of the field, and a read moves nothing else. -/
theorem HasRead.next (h : HasRead s₀.regs n s.eng) (hsame : Undisturbed s₀ s) (hlt : s.eng.off < s.regs.srcLen)
    (hr : readSrc s.eng.off s = some (b, t)) :
    t = s ∧ b = sourceByte s₀.visible s₀.regs.arg n
      ∧ ∀ e : Engine, e.off = s.eng.off + 1 → HasRead s₀.regs (n + 1) e := by
  obtain ⟨hset, hmem, hquiet⟩ := hsame
  have hsrc : s.regs.srcAddr = s₀.regs.srcAddr := congrArg Setting.srcAddr hset
  have hlen : s.regs.srcLen = s₀.regs.srcLen := congrArg Setting.srcLen hset
  obtain ⟨-, k, rfl, hk⟩ := memRead_some hr
  obtain ⟨rfl, hb⟩ := hk hquiet
  refine ⟨rfl, ?_, fun e he => ⟨?_, fun _ => ?_⟩⟩
  · rw [hb, hmem, hsrc, h.off_eq, ← BitVec.add_assoc]
    rfl
  · rw [he, h.off_eq, BitVec.ofNat_add, BitVec.add_assoc]
    rfl
  · have hoff := h.off_toNat
    rw [BitVec.lt_def, hlen, hoff] at hlt
    exact hlt

theorem decoding_raise (hquiet : s.env.raced = false) (e : Err) :
    Decoding s₀ start more Open Field (raiseErr e s) := by
  refine .ended (by simp [raiseErr]) fun herr => ?_
  rw [raiseErr, endCommand_quiet hquiet] at herr
  cases e <;> cases herr

/-- The field is complete: `RES0` is its value and `RES1` its size (40_tag_codec.md R123, 41_length_codec.md R153). -/
theorem decoding_finish (h : HasRead s₀.regs (n + 1) s.eng) (hsame : Undisturbed s₀ s) (hfield : Field (n + 1) s.eng.acc)
    (e : Engine) :
    Decoding s₀ start more Open Field
      (finish { s with eng := e, regs := { s.regs with res0 := s.eng.acc, res1 := s.eng.off - s.regs.arg } }) := by
  refine .ended (by simp [finish]) fun _ => ?_
  have harg : s.regs.arg = s₀.regs.arg := congrArg Setting.arg hsame.setting_eq
  have hsize : (s.eng.off - s.regs.arg).toNat = n + 1 := by
    have hoff := h.off_toNat
    rw [harg]
    bv_omega
  rw [finish, endCommand_quiet (by exact hsame.quiet)]
  dsimp only [Regs.ended]
  rw [hsize]
  exact ⟨Nat.succ_pos n, h.inside n.succ_ne_zero, hfield⟩

theorem decodeTagComplete_decoding (h : HasRead s₀.regs (n + 1) s.eng) (hsame : Undisturbed s₀ s)
    (hfield : Field (n + 1) s.eng.acc) : Decoding s₀ start more Open Field (decodeTagComplete s) :=
  decoding_finish h hsame hfield _

theorem decodeLengthComplete_decoding (h : HasRead s₀.regs (n + 1) s.eng) (hsame : Undisturbed s₀ s)
    (hfield : Field (n + 1) s.eng.acc) : Decoding s₀ start more Open Field (decodeLengthComplete s) :=
  decoding_finish h hsame hfield _

end place

/-- The rows of a command that decodes one field: DISPATCH sets the offset, the FSM state `start` reads the first byte by `f`, and
`more` each further byte by `g` (40_tag_codec.md R124, 41_length_codec.md R154). -/
structure OneFieldDecoder (i : Instr) (start more : Fsm) (f g : State → State) : Prop where
  reader : i ∈ [Instr.decodeTag, .decodeLength, .find]
  start_ne : start ≠ .idle
  more_ne : more ≠ .idle
  exec_dispatch : ∀ s, s.eng.st = .dispatch →
    exec i s = .next { s with eng := { s.eng with off := s.regs.arg, st := start } }
  exec_start : ∀ s, s.eng.st = start → exec i s = .next (f s)
  exec_more : ∀ s, s.eng.st = more → exec i s = .next (g s)

theorem decodeTag_rows :
    OneFieldDecoder .decodeTag .tagFirst .tagCont (tagFirst decodeTagComplete) (tagCont decodeTagComplete) where
  reader := by simp
  start_ne := by decide
  more_ne := by decide
  exec_dispatch := fun s hst => by rw [exec, execDecodeTag, hst]
  exec_start := fun s hst => by rw [exec, execDecodeTag, hst]
  exec_more := fun s hst => by rw [exec, execDecodeTag, hst]

theorem decodeLength_rows :
    OneFieldDecoder .decodeLength .lenFirst .lenBytes (lenFirst decodeLengthComplete) (lenBytes decodeLengthComplete) where
  reader := by simp
  start_ne := by decide
  more_ne := by decide
  exec_dispatch := fun s hst => by rw [exec, execDecodeLength, hst]
  exec_start := fun s hst => by rw [exec, execDecodeLength, hst]
  exec_more := fun s hst => by rw [exec, execDecodeLength, hst]

section decoder
variable {i : Instr} {start more : Fsm} {f g : State → State} {Open : Nat → Engine → Prop} {Field : Nat → Word → Prop}
  {s₀ : State}

/-- Where the two reading actions go from place to place, so does every step of the machine. -/
theorem OneFieldDecoder.step (hrows : OneFieldDecoder i start more f g) (hop : s₀.regs.op = i.op) (hsched : s₀.env.sched = [])
    (hfirst : ∀ u, Undisturbed s₀ u → HasRead s₀.regs 0 u.eng → Decoding s₀ start more Open Field (f u))
    (hmore : ∀ u k, u.eng.st = more → Undisturbed s₀ u → HasRead s₀.regs (k + 1) u.eng → Open k u.eng →
      Decoding s₀ start more Open Field (g u))
    {s : State} (hsame : Undisturbed s₀ s) (h : Decoding s₀ start more Open Field s) :
    OnNext (fun t => Undisturbed s₀ t ∧ Decoding s₀ start more Open Field t) (Machine.step s) := by
  have hsop : s.regs.op = i.op := (congrArg Setting.op hsame.setting_eq).trans hop
  have go {u : State} (hne : s.eng.st ≠ .idle) (hexec : exec i s = .next u) (hu : Decoding s₀ start more Open Field u) :
      OnNext (fun t => Undisturbed s₀ t ∧ Decoding s₀ start more Open Field t) (engineStep s) := by
    rw [engineStep_running ⟨hne, hsop⟩, hexec]
    exact onNext_next ⟨hsame.step (exec_readEffect hrows.reader s u hexec), hu⟩
  rw [step_empty ((congrArg Setting.sched hsame.setting_eq).trans hsched)]
  cases h with
  | dispatch hst =>
    exact go (by simp [hst]) (hrows.exec_dispatch s hst) (.first rfl (.zero (congrArg Setting.arg hsame.setting_eq)))
  | first hst hread => exact go (hst ▸ hrows.start_ne) (hrows.exec_start s hst) (hfirst s hsame hread)
  | within k hst hread hopen =>
    exact go (hst ▸ hrows.more_ne) (hrows.exec_more s hst) (hmore s k hst hsame hread hopen)
  | ended hst hfield =>
    rw [engineStep, if_pos hst]
    exact onNext_next ⟨hsame, .ended hst hfield⟩

/-- A run of such a command ends in IDLE, where its place tells the result. -/
theorem OneFieldDecoder.result (hrows : OneFieldDecoder i start more f g) {s t : State} (hs₀ : s₀ = s.withCommand (encode i))
    (hfirst : ∀ u, Undisturbed s₀ u → HasRead s₀.regs 0 u.eng → Decoding s₀ start more Open Field (f u))
    (hmore : ∀ u k, u.eng.st = more → Undisturbed s₀ u → HasRead s₀.regs (k + 1) u.eng → Open k u.eng →
      Decoding s₀ start more Open Field (g u))
    (ht : run (commandBound s₀.regs) s₀ = .next t) (herr : t.regs.err = 0) :
    1 ≤ t.regs.res1.toNat ∧ s.regs.arg.toNat + t.regs.res1.toNat ≤ s.regs.srcLen.toNat
      ∧ Field t.regs.res1.toNat t.regs.res0 := by
  subst hs₀
  have hop : (s.withCommand (encode i)).regs.op = i.op := by cases i <;> rfl
  have hstep (u : State) (hu : Undisturbed (s.withCommand (encode i)) u ∧ Decoding _ start more Open Field u) :=
    hrows.step hop rfl hfirst hmore hu.1 hu.2
  obtain ⟨-, hplace⟩ := run_keeps hstep _ ⟨⟨rfl, rfl, rfl⟩, .dispatch rfl⟩ t ht
  have hidle : t.eng.st = .idle := run_commandBound_idle s (encode i) t ht
  cases hplace with
  | dispatch hst => exact absurd (hst.symm.trans hidle) (by decide)
  | first hst => exact absurd (hst.symm.trans hidle) hrows.start_ne
  | within k hst => exact absurd (hst.symm.trans hidle) hrows.more_ne
  | ended hst hfield => exact hfield herr

end decoder

/-! ## The tag field (30_encoding.md R95, R96, 40_tag_codec.md R120 to R122) -/

/-- DECODE_TAG within a tag field that starts with the marker: `k` continuation bytes have been read, none of them the last. -/
structure TagOpen (v : Visible) (k : Nat) (e : Engine) : Prop where
  value : e.acc.toNat = bigEndianValue (sourceBytes v v.regs.arg (k + 1))
  marker : (sourceByte v v.regs.arg 0).toNat % 32 = 31
  first : k = 0 → e.first = true
  nonzero : 1 ≤ k → sourceByte v v.regs.arg 1 ≠ 0#8
  more : ∀ i, 1 ≤ i → i < k + 1 → 128 ≤ (sourceByte v v.regs.arg i).toNat

/-- The first `n` bytes at `ARG` are a whole tag field of the given value. -/
structure TagField (v : Visible) (n : Nat) (value : Word) : Prop where
  value_eq : value.toNat = bigEndianValue (sourceBytes v v.regs.arg n)
  size_le : n ≤ 4
  marker : n = 1 ↔ (sourceByte v v.regs.arg 0).toNat % 32 ≠ 31
  long : 2 ≤ n → sourceByte v v.regs.arg 1 ≠ 0#8
    ∧ (∀ i, 1 ≤ i → i + 1 < n → 128 ≤ (sourceByte v v.regs.arg i).toNat)
    ∧ (sourceByte v v.regs.arg (n - 1)).toNat < 128

theorem bigEndianValue_one (v : Visible) (o : Word) : bigEndianValue (sourceBytes v o 1) = (sourceByte v o 0).toNat := by
  rw [bigEndianValue_sourceBytes_succ]
  simp [sourceBytes]

theorem TagField.short {v : Visible} (h : low5 (sourceByte v v.regs.arg 0) ≠ 31#5) :
    TagField v 1 (zext32 (sourceByte v v.regs.arg 0)) where
  value_eq := by rw [zext32_toNat, bigEndianValue_one]
  size_le := by decide
  marker := iff_of_true rfl fun hmark => h ((low5_eq_iff _).2 hmark)
  long := fun h2 => absurd h2 (by decide)

section tag
variable {v : Visible} {k : Nat} {e : Engine}

theorem TagOpen.marked (h : low5 (sourceByte v v.regs.arg 0) = 31#5)
    (hacc : e.acc = zext32 (sourceByte v v.regs.arg 0)) (hfirst : e.first = true) : TagOpen v 0 e where
  value := by rw [hacc, zext32_toNat, bigEndianValue_one]
  marker := (low5_eq_iff _).1 h
  first := fun _ => hfirst
  nonzero := fun h1 => absurd h1 (by decide)
  more := fun i h1 hi => by omega

theorem TagOpen.second_ne_zero (h : TagOpen v k e) (hb : ¬ (e.first = true ∧ sourceByte v v.regs.arg (k + 1) = 0x00#8)) :
    sourceByte v v.regs.arg 1 ≠ 0#8 := by
  cases k with
  | zero => exact fun h0 => hb ⟨h.first rfl, h0⟩
  | succ k => exact h.nonzero k.succ_pos

theorem TagOpen.value_shiftIn (h : TagOpen v k e) (htop : byteOf e.acc 3 = 0x00#8) :
    (shiftIn e.acc (sourceByte v v.regs.arg (k + 1))).toNat
      = bigEndianValue (sourceBytes v v.regs.arg (k + 1 + 1)) := by
  rw [Termination.shiftIn_toNat (Termination.lt_of_topByte_zero htop), h.value, ← bigEndianValue_sourceBytes_succ]

/-- The marker is not 0, so that each byte after it makes the value 256 times larger: a fourth one overflows (40_tag_codec.md
R122). -/
theorem TagOpen.count_lt (h : TagOpen v k e) (htop : byteOf e.acc 3 = 0x00#8) : k < 3 := by
  have hmark : 1 ≤ (sourceByte v v.regs.arg 0).toNat := by
    have := h.marker
    omega
  have hpow : 256 ^ k < 256 ^ 3 :=
    calc 256 ^ k ≤ (sourceByte v v.regs.arg 0).toNat * 256 ^ k := Nat.le_mul_of_pos_left _ hmark
      _ ≤ bigEndianValue (sourceBytes v v.regs.arg (k + 1)) := by
        rw [sourceBytes_cons, bigEndianValue_cons, sourceBytes_length]
        exact Nat.le_add_right _ _
      _ < 256 ^ 3 := h.value ▸ Termination.lt_of_topByte_zero htop
  exact (Nat.pow_lt_pow_iff_right (by decide)).1 hpow

theorem TagOpen.more_byte (h : TagOpen v k e)
    (hb : ¬ (e.first = true ∧ sourceByte v v.regs.arg (k + 1) = 0x00#8)) (htop : byteOf e.acc 3 = 0x00#8)
    (hbit : bit7 (sourceByte v v.regs.arg (k + 1)) = true) {e' : Engine}
    (hacc : e'.acc = shiftIn e.acc (sourceByte v v.regs.arg (k + 1))) : TagOpen v (k + 1) e' where
  value := by rw [hacc, h.value_shiftIn htop]
  marker := h.marker
  first := fun h0 => absurd h0 k.succ_ne_zero
  nonzero := fun _ => h.second_ne_zero hb
  more := fun i h1 hi => by
    rcases Nat.lt_succ_iff_lt_or_eq.1 hi with hlt | rfl
    · exact h.more i h1 hlt
    · exact (bit7_iff _).1 hbit

theorem TagOpen.last_byte (h : TagOpen v k e)
    (hb : ¬ (e.first = true ∧ sourceByte v v.regs.arg (k + 1) = 0x00#8)) (htop : byteOf e.acc 3 = 0x00#8)
    (hbit : bit7 (sourceByte v v.regs.arg (k + 1)) = false) :
    TagField v (k + 1 + 1) (shiftIn e.acc (sourceByte v v.regs.arg (k + 1))) where
  value_eq := h.value_shiftIn htop
  size_le := by
    have := h.count_lt htop
    omega
  marker := iff_of_false (by omega) (not_not.2 h.marker)
  long := fun _ => ⟨h.second_ne_zero hb, fun i h1 hi => h.more i h1 (by omega), (not_bit7_iff _).1 hbit⟩

end tag

/-- The places of DECODE_TAG. -/
abbrev DecodingTag (s₀ : State) : State → Prop :=
  Decoding s₀ .tagFirst .tagCont (TagOpen s₀.visible) (TagField s₀.visible)

section tagCommand
variable {s₀ s : State}

theorem tagFirst_decoding (hsame : Undisturbed s₀ s) (hread : HasRead s₀.regs 0 s.eng) :
    DecodingTag s₀ (tagFirst decodeTagComplete s) := by
  refine tagFirst_rule (DecodingTag s₀)
    (hEnd := fun _ => decoding_raise hsame.quiet _)
    (hBus := fun _ _ => decoding_raise hsame.quiet _)
    (hShort := fun b t hlt hr hmark => ?_)
    (hExt := fun b t hlt hr hmark => ?_)
  all_goals obtain ⟨rfl, rfl, hnext⟩ := hread.next hsame hlt hr
  · exact decodeTagComplete_decoding (hnext _ rfl) (hsame.withEngine _) (.short hmark)
  · exact .within 0 rfl (hnext _ rfl) (.marked hmark rfl rfl)

theorem tagCont_decoding {k : Nat} (hst : s.eng.st = .tagCont) (hsame : Undisturbed s₀ s)
    (hread : HasRead s₀.regs (k + 1) s.eng) (hopen : TagOpen s₀.visible k s.eng) :
    DecodingTag s₀ (tagCont decodeTagComplete s) := by
  refine tagCont_rule (DecodingTag s₀)
    (hEnd := fun _ => decoding_raise hsame.quiet _)
    (hBus := fun _ _ => decoding_raise hsame.quiet _)
    (hErr := fun b t e hlt hr _ => ?_)
    (hMore := fun b t hlt hr hb htop hbit => ?_)
    (hLast := fun b t hlt hr hb htop hbit => ?_)
  all_goals obtain ⟨rfl, rfl, hnext⟩ := hread.next hsame hlt hr
  · exact decoding_raise hsame.quiet e
  · exact .within (k + 1) hst (hnext _ rfl) (hopen.more_byte hb htop hbit rfl)
  · exact decodeTagComplete_decoding (hnext _ rfl) (hsame.withEngine _) (hopen.last_byte hb htop hbit)

end tagCommand

/-- Settles O50: along the run, the bytes read are those of a tag field, and their value is in the accumulator. -/
theorem decodeTagReturnsTheFieldsValue : Obligations.DecodeTagReturnsTheFieldsValue := by
  intro s t ht herr
  obtain ⟨hpos, hinside, hfield⟩ := decodeTag_rows.result rfl (fun _ => tagFirst_decoding)
    (fun _ _ => tagCont_decoding) ht herr
  refine ⟨hfield.value_eq, hpos, hfield.size_le, hinside, ?_, fun h2 => ?_⟩
  · rw [sourceBytes_getD _ _ hpos]
    exact hfield.marker
  · obtain ⟨hsecond, hmore, hlast⟩ := hfield.long h2
    refine ⟨?_, fun i h1 hi => ?_, ?_⟩
    · rwa [sourceBytes_getD _ _ h2]
    · rw [sourceBytes_getD _ _ (by omega)]
      exact hmore i h1 hi
    · rwa [sourceBytes_getD _ _ (by omega)]

/-! ## The length field (30_encoding.md R97, R98, 41_length_codec.md R150 to R152) -/

/-- DECODE_LENGTH within a length field of long form: `k` of the bytes after the marker have been read, `nrem` of them are left. -/
structure LengthOpen (v : Visible) (k : Nat) (e : Engine) : Prop where
  value : e.acc.toNat = bigEndianValue (sourceBytes v (v.regs.arg + 1) k)
  left : (sourceByte v v.regs.arg 0).toNat = 0x80 + (k + e.nrem.toNat)
  left_range : 1 ≤ e.nrem.toNat ∧ k + e.nrem.toNat ≤ 4
  first : k = 0 → e.first = true
  top : k + e.nrem.toNat = 4 → 1 ≤ k → (sourceByte v (v.regs.arg + 1) 0).toNat < 128

/-- The first `n` bytes at `ARG` are a whole length field of the given value. -/
structure LengthField (v : Visible) (n : Nat) (value : Word) : Prop where
  value_le : value.toNat ≤ 0x7FFFFFFF
  short : (sourceByte v v.regs.arg 0).toNat < 128 → n = 1 ∧ value.toNat = (sourceByte v v.regs.arg 0).toNat
  long : 128 ≤ (sourceByte v v.regs.arg 0).toNat → 0x81 ≤ (sourceByte v v.regs.arg 0).toNat
    ∧ (sourceByte v v.regs.arg 0).toNat ≤ 0x84 ∧ n = 1 + ((sourceByte v v.regs.arg 0).toNat - 0x80)
    ∧ value.toNat = bigEndianValue (sourceBytes v (v.regs.arg + 1) (n - 1))

theorem LengthField.of_short {v : Visible} (h : bit7 (sourceByte v v.regs.arg 0) = false) :
    LengthField v 1 (zext32 (sourceByte v v.regs.arg 0)) := by
  have hlt := (not_bit7_iff _).1 h
  have hval := zext32_toNat (sourceByte v v.regs.arg 0)
  exact ⟨by omega, fun _ => ⟨rfl, hval⟩, fun hge => absurd hlt (not_lt.2 hge)⟩

section length
variable {v : Visible} {k : Nat} {e : Engine}

theorem sourceBytes_value_lt (v : Visible) (o : Word) (n : Nat) : bigEndianValue (sourceBytes v o n) < 256 ^ n := by
  simpa using bigEndianValue_lt (sourceBytes v o n)

theorem LengthOpen.marked (hbit : bit7 (sourceByte v v.regs.arg 0) = true) (hle : low7 (sourceByte v v.regs.arg 0) ≤ 4#7)
    (hne : low7 (sourceByte v v.regs.arg 0) ≠ 0#7) (hnrem : e.nrem = (low7 (sourceByte v v.regs.arg 0)).setWidth 3)
    (hacc : e.acc = 0) (hfirst : e.first = true) : LengthOpen v 0 e := by
  have h7 := low7_toNat (sourceByte v v.regs.arg 0)
  have hge := (bit7_iff _).1 hbit
  have hleft : e.nrem.toNat = (low7 (sourceByte v v.regs.arg 0)).toNat := by
    rw [hnrem]
    bv_omega
  have hrange : 1 ≤ e.nrem.toNat ∧ e.nrem.toNat ≤ 4 := by
    rw [hleft]
    bv_omega
  exact {
    value := by rw [hacc]; rfl
    left := by omega
    left_range := by omega
    first := fun _ => hfirst
    top := fun _ h1 => absurd h1 (by decide) }

theorem LengthOpen.value_shiftIn (h : LengthOpen v k e) :
    (shiftIn e.acc (sourceByte v v.regs.arg (k + 1))).toNat
      = bigEndianValue (sourceBytes v (v.regs.arg + 1) (k + 1)) := by
  have hk : k ≤ 3 := by
    have := h.left_range
    omega
  have hacc : e.acc.toNat < 2 ^ 24 :=
    calc e.acc.toNat < 256 ^ k := h.value ▸ sourceBytes_value_lt _ _ k
      _ ≤ 256 ^ 3 := Nat.pow_le_pow_right (by decide) hk
  rw [Termination.shiftIn_toNat hacc, h.value, sourceByte_succ, ← bigEndianValue_sourceBytes_succ]

/-- Of four length bytes the first is below 0x80 (41_length_codec.md R151). -/
theorem LengthOpen.top_lt (h : LengthOpen v k e)
    (hb : ¬ (e.first = true ∧ e.nrem = 4#3 ∧ bit7 (sourceByte v v.regs.arg (k + 1)) = true))
    (h4 : k + e.nrem.toNat = 4) : (sourceByte v (v.regs.arg + 1) 0).toNat < 128 := by
  cases k with
  | zero =>
    have hnrem : e.nrem = 4#3 := BitVec.eq_of_toNat_eq (by simpa using h4)
    rw [← sourceByte_succ]
    by_contra hge
    exact hb ⟨h.first rfl, hnrem, (bit7_iff _).2 (not_lt.1 hge)⟩
  | succ k => exact h.top h4 k.succ_pos

theorem LengthOpen.more_byte (h : LengthOpen v k e)
    (hb : ¬ (e.first = true ∧ e.nrem = 4#3 ∧ bit7 (sourceByte v v.regs.arg (k + 1)) = true)) (hne : e.nrem - 1 ≠ 0#3)
    {e' : Engine} (hacc : e'.acc = shiftIn e.acc (sourceByte v v.regs.arg (k + 1))) (hnrem : e'.nrem = e.nrem - 1) :
    LengthOpen v (k + 1) e' := by
  obtain ⟨hpos, hfour⟩ := h.left_range
  have hleft : e'.nrem.toNat + 1 = e.nrem.toNat ∧ 1 ≤ e'.nrem.toNat := by
    rw [hnrem]
    bv_omega
  exact {
    value := by rw [hacc, h.value_shiftIn]
    left := by rw [h.left]; omega
    left_range := by omega
    first := fun h0 => absurd h0 k.succ_ne_zero
    top := fun h4 _ => h.top_lt hb (by omega) }

/-- Up to four bytes, the first of four below 0x80, have a value of at most 0x7FFFFFFF (41_length_codec.md R152). -/
theorem length_value_le {o : Word} {n : Nat} (hn : n ≤ 4) (htop : n = 4 → (sourceByte v o 0).toNat < 128) :
    bigEndianValue (sourceBytes v o n) ≤ 0x7FFFFFFF := by
  rcases Nat.lt_or_eq_of_le hn with hlt | rfl
  · have hpow : 256 ^ n ≤ 256 ^ 3 := Nat.pow_le_pow_right (by decide) (Nat.le_of_lt_succ hlt)
    have := sourceBytes_value_lt v o n
    omega
  · have hrest := sourceBytes_value_lt v (o + 1) 3
    have := htop rfl
    rw [sourceBytes_cons, bigEndianValue_cons, sourceBytes_length]
    omega

theorem LengthOpen.last_byte (h : LengthOpen v k e)
    (hb : ¬ (e.first = true ∧ e.nrem = 4#3 ∧ bit7 (sourceByte v v.regs.arg (k + 1)) = true)) (h0 : e.nrem - 1 = 0#3) :
    LengthField v (k + 1 + 1) (shiftIn e.acc (sourceByte v v.regs.arg (k + 1))) := by
  obtain ⟨-, hfour⟩ := h.left_range
  have hone : e.nrem.toNat = 1 := by bv_omega
  have hmark := h.left
  refine ⟨?_, fun hlt => by omega, fun _ => ⟨by omega, by omega, by omega, h.value_shiftIn⟩⟩
  rw [h.value_shiftIn]
  exact length_value_le (by omega) fun h4 => h.top_lt hb (by omega)

end length

/-- The places of DECODE_LENGTH. -/
abbrev DecodingLength (s₀ : State) : State → Prop :=
  Decoding s₀ .lenFirst .lenBytes (LengthOpen s₀.visible) (LengthField s₀.visible)

section lengthCommand
variable {s₀ s : State}

theorem lenFirst_decoding (hsame : Undisturbed s₀ s) (hread : HasRead s₀.regs 0 s.eng) :
    DecodingLength s₀ (lenFirst decodeLengthComplete s) := by
  refine lenFirst_rule (DecodingLength s₀)
    (hEnd := fun _ => decoding_raise hsame.quiet _)
    (hBus := fun _ _ => decoding_raise hsame.quiet _)
    (hShort := fun b t hlt hr hbit => ?_)
    (hErr := fun b t e hlt hr _ _ => ?_)
    (hLong := fun b t hlt hr hbit hle hne => ?_)
  all_goals obtain ⟨rfl, rfl, hnext⟩ := hread.next hsame hlt hr
  · exact decodeLengthComplete_decoding (hnext _ rfl) (hsame.withEngine _) (.of_short hbit)
  · exact decoding_raise hsame.quiet e
  · exact .within 0 rfl (hnext _ rfl) (.marked hbit hle hne rfl rfl rfl)

theorem lenBytes_decoding {k : Nat} (hst : s.eng.st = .lenBytes) (hsame : Undisturbed s₀ s)
    (hread : HasRead s₀.regs (k + 1) s.eng) (hopen : LengthOpen s₀.visible k s.eng) :
    DecodingLength s₀ (lenBytes decodeLengthComplete s) := by
  refine lenBytes_rule (DecodingLength s₀)
    (hEnd := fun _ => decoding_raise hsame.quiet _)
    (hBus := fun _ _ => decoding_raise hsame.quiet _)
    (hErr := fun b t hlt hr _ => ?_)
    (hMore := fun b t hlt hr hb hne => ?_)
    (hLast := fun b t hlt hr hb h0 => ?_)
  all_goals obtain ⟨rfl, rfl, hnext⟩ := hread.next hsame hlt hr
  · exact decoding_raise hsame.quiet _
  · exact .within (k + 1) hst (hnext _ rfl) (hopen.more_byte hb hne rfl rfl)
  · exact decodeLengthComplete_decoding (hnext _ rfl) (hsame.withEngine _) (hopen.last_byte hb h0)

end lengthCommand

/-- Settles O51: along the run, the bytes read are those of a length field, and the value of those after the marker is in the
accumulator. -/
theorem decodeLengthReturnsTheFieldsValue : Obligations.DecodeLengthReturnsTheFieldsValue := by
  intro s t ht herr
  obtain ⟨hpos, hinside, hfield⟩ := decodeLength_rows.result rfl (fun _ => lenFirst_decoding)
    (fun _ _ => lenBytes_decoding) ht herr
  dsimp only
  rw [sourceBytes_getD _ _ hpos]
  refine ⟨hfield.value_le, hinside, fun hlt => ?_, fun hge => ?_⟩
  · obtain ⟨hone, hval⟩ := hfield.short hlt
    exact ⟨BitVec.eq_of_toNat_eq hone, hval⟩
  · obtain ⟨hlo, hhi, hsize, hval⟩ := hfield.long hge
    refine ⟨hlo, hhi, hsize, ?_⟩
    rw [← Nat.sub_add_cancel hpos, sourceBytes_cons, List.tail_cons]
    exact hval

end Sys2Proof.FieldDecoding
end

section
/-! PROOF. The bytes of a tag's field (40_tag_codec.md R125, R126): the significant bytes of a word, the marker check, and the
field in the emitter's buffer. -/
namespace Sys2Proof.TagBytes
open Sys2Proof Sys2Proof.Machine Sys2Proof.Laws

/-! ## The significant bytes of a word (40_tag_codec.md R126) -/

/-- The table of R126. -/
theorem sigbytes_cases (v : Word) :
    (v.toNat ≤ 0xFF ∧ sigbytes v = 1) ∨ (0x100 ≤ v.toNat ∧ v.toNat ≤ 0xFFFF ∧ sigbytes v = 2)
      ∨ (0x10000 ≤ v.toNat ∧ v.toNat ≤ 0xFFFFFF ∧ sigbytes v = 3) ∨ (0x1000000 ≤ v.toNat ∧ sigbytes v = 4) := by
  unfold sigbytes
  simp only [BitVec.le_def, BitVec.toNat_ofNat]
  split_ifs <;> omega

theorem lt_pow_sigbytes (v : Word) : v.toNat < 256 ^ sigbytes v := by
  rcases sigbytes_cases v with ⟨hle, hs⟩ | ⟨-, hle, hs⟩ | ⟨-, hle, hs⟩ | ⟨-, hs⟩ <;> rw [hs] <;> omega

/-- A word of more than one significant byte has none fewer. -/
theorem pow_le_of_two_le_sigbytes {v : Word} (h : 2 ≤ sigbytes v) : 256 ^ (sigbytes v - 1) ≤ v.toNat := by
  rcases sigbytes_cases v with ⟨-, hs⟩ | ⟨hge, -, hs⟩ | ⟨hge, -, hs⟩ | ⟨hge, hs⟩ <;> rw [hs] at h ⊢ <;> omega

/-- Every width that holds the word is at least its count of significant bytes. -/
theorem sigbytes_le_of_lt_pow {v : Word} {n : Nat} (hn : 1 ≤ n) (h : v.toNat < 256 ^ n) : sigbytes v ≤ n := by
  by_contra hgt
  have hpow : 256 ^ n ≤ 256 ^ (sigbytes v - 1) := Nat.pow_le_pow_right (by decide) (by omega)
  have := pow_le_of_two_le_sigbytes (v := v) (by omega)
  omega

/-- Settles O48: the word lies below the power of its width, and not below that of a smaller one. -/
theorem sigbytesIsTheSmallestWidth : Obligations.SigbytesIsTheSmallestWidth := by
  intro v
  have hpow (n : Nat) : 2 ^ (8 * n) = 256 ^ n := Nat.pow_mul 2 8 n
  simp only [hpow]
  refine ⟨(sigbytes_range v).1, lt_pow_sigbytes v, fun n hn => sigbytes_le_of_lt_pow hn, ?_⟩
  have := sigbytes_cases v
  omega

/-! ## The bytes of a word, most significant first (20_memory.md R63) -/

theorem byteOf_zero (v : Word) : byteOf v 0 = v.setWidth 8 := by
  apply BitVec.eq_of_toNat_eq
  rw [MemoryAccess.byteOf_toNat, BitVec.toNat_setWidth, pow_zero, Nat.div_one]

theorem bigEndian_getElem? {n m : Nat} (v : Word) (h : m < n) : (bigEndian n v)[m]? = some (byteOf v (n - 1 - m)) := by
  induction n generalizing m with
  | zero => exact absurd h (Nat.not_lt_zero m)
  | succ n ih =>
    cases m with
    | zero => rfl
    | succ m =>
      rw [bigEndian, List.getElem?_cons_succ, ih (Nat.lt_of_succ_lt_succ h)]
      congr 2
      omega

/-- The top byte of a word is 0 exactly below 2^24 (10_state.md R31). -/
theorem topByte_zero_iff (v : Word) : byteOf v 3 = 0x00#8 ↔ v.toNat < 2 ^ 24 := by
  rw [← BitVec.toNat_inj, MemoryAccess.byteOf_toNat, BitVec.toNat_ofNat]
  omega

/-! ## The marker check (40_tag_codec.md R125) -/

theorem low5_byteOf_eq_iff (t : Word) (n : Nat) : low5 (byteOf t n) = 31#5 ↔ t.toNat / 256 ^ n % 32 = 31 := by
  rw [FieldDecoding.low5_eq_iff, MemoryAccess.byteOf_toNat, Nat.mod_mod_of_dvd _ (by decide : 32 ∣ 256)]

/-- The tags whose field is one byte without the marker. -/
def IsShort (t : Word) : Prop := t.toNat ≤ 0xFF ∧ t.toNat % 32 ≤ 30

theorem isShort_iff (t : Word) : IsShort t ↔ t ≤ 0xFF#32 ∧ (low5 (byteOf t 0)).toNat ≤ 30 := by
  have hlow : (low5 (byteOf t 0)).toNat = t.toNat % 32 := by
    rw [low5, BitVec.extractLsb'_toNat, MemoryAccess.byteOf_toNat]
    simp only [Nat.shiftRight_zero, pow_zero, Nat.div_one]
    omega
  rw [hlow]
  rfl

theorem not_isShort_iff (t : Word) : ¬ IsShort t ↔ 0xFF < t.toNat ∨ t.toNat % 32 = 31 := by
  unfold IsShort
  omega

section tag
variable {t : Word}

theorem tagBytes_short (h : IsShort t) : tagBytes t = some [byteOf t 0] := if_pos ((isShort_iff t).1 h)

theorem tagBytes_unmarked (h : ¬ IsShort t) (hlead : t.toNat / 256 ^ (sigbytes t - 1) % 32 ≠ 31) : tagBytes t = none := by
  rw [tagBytes, if_neg (fun hs => h ((isShort_iff t).2 hs)), if_pos (fun hl => hlead ((low5_byteOf_eq_iff _ _).1 hl))]

theorem tagBytes_marked (h : ¬ IsShort t) (hlead : t.toNat / 256 ^ (sigbytes t - 1) % 32 = 31) :
    tagBytes t = some (bigEndian (sigbytes t) t) := by
  rw [tagBytes, if_neg (fun hs => h ((isShort_iff t).2 hs)), if_neg (not_not.2 ((low5_byteOf_eq_iff _ _).2 hlead))]

end tag

/-! ## The emitter's buffer (40_tag_codec.md R125) -/

/-- The bytes of the buffer past the field stay. -/
theorem loadEbuf_getElem?_of_le {bs : List Byte} {e : Vector Byte 5} {m : Nat} (h : bs.length ≤ m) :
    (loadEbuf bs e)[m]? = e[m]? := by
  have hnone : bs[m]? = none := List.getElem?_eq_none h
  match m with
  | 0 | 1 | 2 | 3 | 4 => simp [loadEbuf, hnone]
  | m + 5 => simp

theorem loadEbuf_singleton (b : Byte) (e : Vector Byte 5) : loadEbuf [b] e = e.set 0 b := by
  refine Vector.ext fun i hi => ?_
  interval_cases i <;> simp [loadEbuf]

end Sys2Proof.TagBytes
end

section
/-! PROOF. The tag half of the FSM, one step at a time (40_tag_codec.md R120 to R127), with no race open. TAG_FIRST and
TAG_CONT are read once by the source byte there, ENC_TAG by the tag's field, EMIT by the buffer's byte; the commands that share a
state follow. -/
namespace Sys2Proof.TagSteps
open Sys2Proof Sys2Proof.Machine Sys2Proof.Laws Sys2Proof.TagBytes

/-! ## Reading a tag field (40_tag_codec.md R120, R121) -/

theorem srcByte_some {s : State} {o : Word} (h : memOk s.plat (s.regs.srcAddr + o) .read = true) :
    srcByte s.plat s.visible o = some (s.mem.read (s.regs.srcAddr + o).toNat) := if_pos h

theorem srcByte_none {s : State} {o : Word} (h : memOk s.plat (s.regs.srcAddr + o) .read = false) :
    srcByte s.plat s.visible o = none := if_neg ((Bool.not_eq_true _).mpr h)

/-- Without a race, a source byte is what the registers and memory give, and reading it changes nothing. -/
theorem readSrc_quiet {s : State} (h : s.env.raced = false) (o : Word) :
    readSrc o s = (srcByte s.plat s.visible o).map fun b => (b, s) := by
  rw [readSrc, memRead_quiet h]
  cases hok : memOk s.plat (s.regs.srcAddr + o) .read with
  | true => rw [srcByte_some hok]; rfl
  | false => rw [srcByte_none hok]; rfl

section reading
variable {s : State} {complete : State → State} {b : Byte}

theorem tagFirst_end (hend : s.regs.srcLen ≤ s.eng.off) : tagFirst complete s = raiseErr .noData s := if_pos hend

theorem tagFirst_refused (hquiet : s.env.raced = false) (hlt : s.eng.off < s.regs.srcLen)
    (hbyte : srcByte s.plat s.visible s.eng.off = none) : tagFirst complete s = raiseErr .busError s := by
  rw [tagFirst, if_neg (BitVec.not_le.2 hlt), readSrc_quiet hquiet, hbyte]
  rfl

theorem tagFirst_short (hquiet : s.env.raced = false) (hlt : s.eng.off < s.regs.srcLen)
    (hbyte : srcByte s.plat s.visible s.eng.off = some b) (hmark : low5 b ≠ 31#5) :
    tagFirst complete s = complete { s with eng := { s.eng with off := s.eng.off + 1, acc := zext32 b } } := by
  rw [tagFirst, if_neg (BitVec.not_le.2 hlt), readSrc_quiet hquiet, hbyte]
  exact if_pos hmark

theorem tagFirst_marked (hquiet : s.env.raced = false) (hlt : s.eng.off < s.regs.srcLen)
    (hbyte : srcByte s.plat s.visible s.eng.off = some b) (hmark : low5 b = 31#5) :
    tagFirst complete s =
      { s with eng := { s.eng with off := s.eng.off + 1, acc := zext32 b, first := true, st := .tagCont } } := by
  rw [tagFirst, if_neg (BitVec.not_le.2 hlt), readSrc_quiet hquiet, hbyte]
  exact if_neg (not_not.2 hmark)

theorem tagCont_end (hend : s.regs.srcLen ≤ s.eng.off) : tagCont complete s = raiseErr .msgSize s := if_pos hend

theorem tagCont_refused (hquiet : s.env.raced = false) (hlt : s.eng.off < s.regs.srcLen)
    (hbyte : srcByte s.plat s.visible s.eng.off = none) : tagCont complete s = raiseErr .busError s := by
  rw [tagCont, if_neg (BitVec.not_le.2 hlt), readSrc_quiet hquiet, hbyte]
  rfl

/-- The tests on a continuation byte, in their order, and its place in the accumulator. -/
theorem tagCont_byte (hquiet : s.env.raced = false) (hlt : s.eng.off < s.regs.srcLen)
    (hbyte : srcByte s.plat s.visible s.eng.off = some b) :
    tagCont complete s =
      if s.eng.first = true ∧ b = 0x00#8 then raiseErr .invalid s
      else if byteOf s.eng.acc 3 ≠ 0x00#8 then raiseErr .overflow s
      else if bit7 b = true then
        { s with eng := { s.eng with acc := shiftIn s.eng.acc b, off := s.eng.off + 1, first := false } }
      else complete { s with eng := { s.eng with acc := shiftIn s.eng.acc b, off := s.eng.off + 1, first := false } } := by
  rw [tagCont, if_neg (BitVec.not_le.2 hlt), readSrc_quiet hquiet, hbyte]
  rfl

end reading

/-- What the commands that read tag fields do after one (40_tag_codec.md R123). -/
def tagComplete : Instr → State → State
  | .decodeTag => decodeTagComplete
  | _ => tokenTagComplete

section readers
variable {i : Instr} {s : State}

theorem exec_tagFirst (hi : i ∈ [Instr.decodeTag, .parse, .find]) (hst : s.eng.st = .tagFirst) :
    exec i s = .next (tagFirst (tagComplete i) s) := by
  cases i with
  | decodeTag => rw [exec, execDecodeTag, hst]; rfl
  | parse => rw [exec, execParse, hst]; rfl
  | find => rw [exec, execFind, hst]; rfl
  | _ => simp at hi

theorem exec_tagCont (hi : i ∈ [Instr.decodeTag, .parse, .find]) (hst : s.eng.st = .tagCont) :
    exec i s = .next (tagCont (tagComplete i) s) := by
  cases i with
  | decodeTag => rw [exec, execDecodeTag, hst]; rfl
  | parse => rw [exec, execParse, hst]; rfl
  | find => rw [exec, execFind, hst]; rfl
  | _ => simp at hi

/-- PARSE and FIND complete a tag alike: a length field follows. -/
theorem tagComplete_token (hi : i ∈ [Instr.parse, .find]) : tagComplete i = tokenTagComplete := by
  cases i with
  | parse | find => rfl
  | _ => simp at hi

theorem reader_of_token (hi : i ∈ [Instr.parse, .find]) : i ∈ [Instr.decodeTag, .parse, .find] :=
  List.mem_cons_of_mem _ hi

end readers

/-- Settles O16: each clause is one branch of TAG_FIRST, and the complete tag is each command's own. -/
theorem tagFirstStep : Obligations.TagFirstStep := by
  intro s hst hquiet
  refine ⟨fun hend i hi => ?_, fun hlt hno i hi => ?_, fun hlt hok hmark => ?_, fun hlt hok hmark i hi => ?_⟩
  · rw [exec_tagFirst hi hst, tagFirst_end hend]
  · rw [exec_tagFirst hi hst, tagFirst_refused hquiet hlt (srcByte_none hno)]
  · have hshort (i : Instr) (hi : i ∈ [Instr.decodeTag, .parse, .find]) := (exec_tagFirst hi hst).trans
      (congrArg _ (tagFirst_short hquiet hlt (srcByte_some hok) fun h => hmark ((FieldDecoding.low5_eq_iff _).1 h)))
    refine ⟨hshort .decodeTag (by decide), fun i hi => ?_⟩
    rw [hshort i (reader_of_token hi), tagComplete_token hi]
    rfl
  · rw [exec_tagFirst hi hst, tagFirst_marked hquiet hlt (srcByte_some hok) ((FieldDecoding.low5_eq_iff _).2 hmark)]
    rfl

/-- Settles O17: each clause is one branch of TAG_CONT, in the order of its tests. -/
theorem tagContStep : Obligations.TagContStep := by
  intro s hst hquiet
  refine ⟨fun hend i hi => ?_, fun hlt hno i hi => ?_, fun hlt hok hfirst hzero i hi => ?_,
    fun hlt hok hnz hbig i hi => ?_, fun hlt hok hnz hsmall hbit i hi => ?_, fun hlt hok hnz hsmall hbit => ?_⟩
  · rw [exec_tagCont hi hst, tagCont_end hend]
  · rw [exec_tagCont hi hst, tagCont_refused hquiet hlt (srcByte_none hno)]
  all_goals have hbyte := srcByte_some hok
  · rw [exec_tagCont hi hst, tagCont_byte hquiet hlt hbyte, if_pos ⟨hfirst, hzero⟩]
  all_goals
    rw [or_iff_not_and_not, not_not, Bool.not_eq_false] at hnz
  · have htop : byteOf s.eng.acc 3 ≠ 0x00#8 := fun h => not_lt.2 hbig ((topByte_zero_iff _).1 h)
    rw [exec_tagCont hi hst, tagCont_byte hquiet hlt hbyte, if_neg hnz, if_pos htop]
  · have htop := not_not.2 ((topByte_zero_iff _).2 hsmall)
    rw [exec_tagCont hi hst, tagCont_byte hquiet hlt hbyte, if_neg hnz, if_neg htop,
      if_pos ((FieldDecoding.bit7_iff _).2 hbit)]
    rfl
  · have htop := not_not.2 ((topByte_zero_iff _).2 hsmall)
    have hlast (i : Instr) (hi : i ∈ [Instr.decodeTag, .parse, .find]) := (exec_tagCont hi hst).trans
      (congrArg _ (tagCont_byte hquiet hlt hbyte))
    simp only [if_neg hnz, if_neg htop, (FieldDecoding.not_bit7_iff _).2 hbit] at hlast
    refine ⟨hlast .decodeTag (by decide), fun i hi => ?_⟩
    rw [hlast i (reader_of_token hi), tagComplete_token hi]
    rfl

/-! ## Loading a tag's field (40_tag_codec.md R125) -/

/-- A field's bytes in the emitter's buffer, the emitter about to write the first (40_tag_codec.md R125, 41_length_codec.md
R155). -/
def loadField (f : Fld) (bs : List Byte) (s : State) : State :=
  { s with eng := { s.eng with
      ebuf := loadEbuf bs s.eng.ebuf, en := BitVec.ofNat 3 bs.length, ei := 0, fld := f, st := .emit } }

section loading
variable {s : State}

theorem encTag_bad (h : tagBytes s.eng.ctag = none) : encTag s = raiseErr .invalid s := by rw [encTag, h]

theorem encTag_load {bs : List Byte} (h : tagBytes s.eng.ctag = some bs) : encTag s = loadField .tag bs s := by
  rw [encTag, h]
  rfl

theorem exec_encTag {i : Instr} (hi : i ∈ [Instr.encodeTag, .serialize]) (hst : s.eng.st = .encTag) :
    exec i s = .next (encTag s) := by
  cases i with
  | encodeTag => rw [exec, execEncodeTag, hst]
  | serialize => rw [exec, execSerialize, hst]
  | _ => simp at hi

end loading

/-- Settles O20: the three outcomes of the marker check. -/
theorem encTagStep : Obligations.EncTagStep := by
  intro s hst
  refine ⟨fun hle hlow i hi => ?_, fun hlong hlead i hi => ?_, fun hlong hlead i hi => ?_⟩
  · rw [exec_encTag hi hst, encTag_load (tagBytes_short ⟨hle, hlow⟩), loadField, loadEbuf_singleton, byteOf_zero]
    rfl
  · rw [exec_encTag hi hst, encTag_bad (tagBytes_unmarked ((not_isShort_iff _).2 hlong) hlead)]
  · have hload := encTag_load (tagBytes_marked ((not_isShort_iff _).2 hlong) hlead)
    rw [loadField, bigEndian_length] at hload
    refine ⟨_, (exec_encTag hi hst).trans (congrArg _ hload), fun m hm => ?_, fun m hm => ?_⟩
    · have hfive : m < 5 := hm.trans_le ((sigbytes_range _).2.trans (by decide))
      rw [loadEbuf_get (by rwa [bigEndian_length]) hfive, ← List.getElem?_eq_getElem, bigEndian_getElem? _ hm,
        Option.map_some, MemoryAccess.byteOf_toNat]
    · exact loadEbuf_getElem?_of_le (by rwa [bigEndian_length])

/-! ## Writing a field (40_tag_codec.md R127) -/

/-- What the commands that write fields do after a field's last byte (40_tag_codec.md R127). -/
def fieldDone : Instr → State → State
  | .serialize => serializeFieldDone
  | _ => finish

/-- The destination byte at `DST_ADDR + wcnt` stored, and counted. -/
def putField (b : Byte) (s : State) : State :=
  { s with
    mem := s.mem.write (s.regs.dstAddr + s.eng.wcnt).toNat b
    eng := { s.eng with wcnt := s.eng.wcnt + 1, ei := s.eng.ei + 1 }
    regs := { s.regs with res0 := s.eng.wcnt + 1 } }

section writing
variable {s : State} {b : Byte} {done : State → State}

theorem emit_full (hfull : s.regs.dstCap ≤ s.eng.wcnt) : emit done s = .next (raiseErr .noMemory s) := if_pos hfull

/-- Below the capacity, `wcnt` is not the last word, so that the `Overflow` test does not fire. -/
theorem emit_byte (hquiet : s.quiet) (hlt : s.eng.wcnt < s.regs.dstCap) (hb : s.eng.ebuf[s.eng.ei.toNat]? = some b) :
    emit done s =
      if memOk s.plat (s.regs.dstAddr + s.eng.wcnt) .write = true then
        .next (if s.eng.ei + 1 = s.eng.en then done (putField b s) else putField b s)
      else .next (raiseErr .busError s) := by
  obtain ⟨hraced, hcontested⟩ := hquiet
  have hmax : s.eng.wcnt ≠ 0xFFFFFFFF#32 := fun h => by
    rw [h] at hlt
    bv_omega
  rw [emit, if_neg (BitVec.not_le.2 hlt), if_neg hmax, hb]
  dsimp only
  rw [memWrite_quiet hraced hcontested]
  cases memOk s.plat (s.regs.dstAddr + s.eng.wcnt) .write <;> rfl

theorem exec_emit {i : Instr} (hi : i ∈ [Instr.encodeTag, .encodeLength, .serialize]) (hst : s.eng.st = .emit) :
    exec i s = emit (fieldDone i) s := by
  cases i with
  | encodeTag => rw [exec, execEncodeTag, hst]; rfl
  | encodeLength => rw [exec, execEncodeLength, hst]; rfl
  | serialize => rw [exec, execSerialize, hst]; rfl
  | _ => simp at hi

theorem serializeFieldDone_tag (h : s.eng.fld = .tag) :
    serializeFieldDone s = { s with eng := { s.eng with st := .encLen } } := by rw [serializeFieldDone, h]

theorem serializeFieldDone_len (h : s.eng.fld = .len) :
    serializeFieldDone s = { s with eng := { s.eng with j := 0, st := .valCopy } } := by rw [serializeFieldDone, h]

end writing

/-- Settles O22: the capacity test, the refused write, and the byte written. -/
theorem emitStep : Obligations.EmitStep := by
  intro s b hst hquiet hb
  refine ⟨fun hfull i hi => ?_, fun hlt hno i hi => ?_, fun hlt hok hmore i hi => ?_, fun hlt hok hlast => ?_⟩
  · rw [exec_emit hi hst, emit_full hfull]
  · rw [exec_emit hi hst, emit_byte hquiet hlt hb, if_neg (by simp [hno])]
  · rw [exec_emit hi hst, emit_byte hquiet hlt hb, if_pos hok, if_neg hmore]
    rfl
  · have hdone (i : Instr) (hi : i ∈ [Instr.encodeTag, .encodeLength, .serialize]) :
        exec i s = .next (fieldDone i (putField b s)) := by
      rw [exec_emit hi hst, emit_byte hquiet hlt hb, if_pos hok, if_pos hlast]
    refine ⟨hdone .encodeTag (by decide), hdone .encodeLength (by decide), fun hfld => ?_, fun hfld => ?_⟩
    · rw [hdone .serialize (by decide), fieldDone, serializeFieldDone_tag (s := putField b s) hfld]
      rfl
    · rw [hdone .serialize (by decide), fieldDone, serializeFieldDone_len (s := putField b s) hfld]
      rfl

end Sys2Proof.TagSteps
end

section
/-! PROOF. DECODE_TAG and ENCODE_TAG, run to their end, are their big steps (40_tag_codec.md R124, R128). Reading a tag field and
writing a field are followed through the machine for every command that does so; how long a run takes is what R307 says. -/
namespace Sys2Proof.TagRuns
open Sys2Proof Sys2Proof.Machine Sys2Proof.Laws Sys2Proof.TagBytes Sys2Proof.TagSteps

/-! ## Where the machine comes to -/

/-- Some number of steps takes the machine from the one state to the other. -/
def LeadsTo (s t : State) : Prop := ∃ n, run n s = .next t

theorem LeadsTo.refl (s : State) : LeadsTo s s := ⟨0, rfl⟩

theorem LeadsTo.head {s t u : State} (h : step s = .next t) : LeadsTo t u → LeadsTo s u
  | ⟨n, hn⟩ => ⟨n + 1, (run_succ_next h n).trans hn⟩

/-- Two runs from one state that both come to an engine at rest, with nothing scheduled, come to the same state. -/
theorem run_idle_unique {s t u : State} {m n : Nat} (hsched : s.env.sched = []) (ht : run m s = .next t)
    (hu : run n s = .next u) (hti : t.eng.st = .idle) (hui : u.eng.st = .idle) : t = u := by
  have stays {k l : Nat} {v w : State} (hkl : k ≤ l) (hv : run k s = .next v) (hw : run l s = .next w)
      (hvi : v.eng.st = .idle) : v = w := by
    have hvs : v.env.sched = [] := (congrArg Effects.Setting.sched (FieldDecoding.run_setting k hsched v hv)).trans hsched
    rw [← Nat.add_sub_of_le hkl, run_add hv, run_idle hvi hvs] at hw
    cases hw
    rfl
  rcases Nat.le_total m n with h | h
  · exact stays h ht hu hti
  · exact (stays h hu ht hui).symm

/-- A command that comes to rest with the given outcome does so within its step bound (70_reset_and_hazards.md R307). -/
theorem endsWith_of_leadsTo {s t : State} {w : Word} {v : Visible} (h : LeadsTo (s.withCommand w) t)
    (hidle : t.eng.st = .idle) (hv : t.visible = v) :
    EndsWith (run (commandBound (s.withCommand w).regs) (s.withCommand w)) v := by
  obtain ⟨m, hm⟩ := h
  obtain ⟨t', ht', -⟩ := Noninterference.run_putEnv (v := (s.withCommand w).env) ⟨rfl, rfl⟩ rfl
    (commandBound (s.withCommand w).regs) (EngineRules.startCommand_inv w (s.withSched [])) ⟨rfl, rfl⟩ rfl
  obtain rfl := run_idle_unique rfl hm ht' hidle (FieldDecoding.run_commandBound_idle s w t' ht')
  exact ⟨t, ht', hidle, hv⟩

/-- A command that runs with nothing scheduled and no race open. -/
structure Alone (i : Instr) (s : State) : Prop where
  op_eq : s.regs.op = i.op
  sched_eq : s.env.sched = []
  quiet : s.quiet

theorem Alone.step {i : Instr} {s : State} {st : Fsm} (h : Alone i s) (hst : s.eng.st = st) (hne : st ≠ .idle) :
    step s = exec i s := by
  rw [step_empty h.sched_eq, engineStep_running ⟨hst ▸ hne, h.op_eq⟩]

theorem Alone.withEngine {i : Instr} {s : State} (h : Alone i s) (e : Engine) : Alone i { s with eng := e } :=
  ⟨h.op_eq, h.sched_eq, h.quiet⟩

theorem withCommand_alone (i : Instr) (s : State) : Alone i (s.withCommand (encode i)) :=
  ⟨by cases i <;> rfl, rfl, rfl, rfl⟩

/-- Without a race, a command's end is the end of the big step. -/
theorem visible_endCommand {s : State} (h : s.env.raced = false) (e : Option Err) :
    (endCommand e s).visible = s.visible.ended e := by
  rw [endCommand_quiet h]
  rfl

/-! ## The big step's loop, test by test (40_tag_codec.md R124) -/

section bigStep
variable {p : Platform} {v : Visible} {o : Word}

theorem tagTail_end (h : v.regs.srcLen ≤ o) (n : Nat) (first : Bool) (t : Word) :
    tagTail p v (n + 1) first t o = .error .msgSize := if_pos h

theorem tagTail_refused (hlt : o < v.regs.srcLen) (h : srcByte p v o = none) (n : Nat) (first : Bool) (t : Word) :
    tagTail p v (n + 1) first t o = .error .busError := by
  rw [tagTail, if_neg (BitVec.not_le.2 hlt), h]

theorem tagTail_byte {b : Byte} (hlt : o < v.regs.srcLen) (h : srcByte p v o = some b) (n : Nat) (first : Bool)
    (t : Word) :
    tagTail p v (n + 1) first t o =
      if first = true ∧ b = 0x00#8 then .error .invalid
      else if byteOf t 3 ≠ 0x00#8 then .error .overflow
      else if bit7 b = true then tagTail p v n false (shiftIn t b) (o + 1)
      else .ok (shiftIn t b, o + 1) := by
  rw [tagTail, if_neg (BitVec.not_le.2 hlt), h]

theorem tagField_end (h : v.regs.srcLen ≤ o) : tagField p v o = .error .noData := if_pos h

theorem tagField_refused (hlt : o < v.regs.srcLen) (h : srcByte p v o = none) : tagField p v o = .error .busError := by
  rw [tagField, if_neg (BitVec.not_le.2 hlt), h]

theorem tagField_byte {b : Byte} (hlt : o < v.regs.srcLen) (h : srcByte p v o = some b) :
    tagField p v o =
      if low5 b = 31#5 then tagTail p v 4 true (zext32 b) (o + 1) else .ok (zext32 b, o + 1) := by
  rw [tagField, if_neg (BitVec.not_le.2 hlt), h]

end bigStep

/-! ## Reading a tag field (40_tag_codec.md R124) -/

/-- What a command that reads a tag field has come to, when the field answers the given tag and offset, or error. -/
def TagRead (complete : State → State) (s u : State) : Except Err (Word × Word) → Prop
  | .error e => ∃ g, u = raiseErr e { s with eng := g }
  | .ok (t, o) => ∃ first st, u = complete { s with eng := { s.eng with acc := t, off := o, first := first, st := st } }

/-- An accumulator that `n + 1` more bytes would fill is filled by `n` more after one of them (10_state.md R31). -/
theorem shiftIn_fills {acc : Word} {b : Byte} {n : Nat} (htop : byteOf acc 3 = 0x00#8)
    (h : 2 ^ 32 ≤ acc.toNat * 256 ^ (n + 1)) : 2 ^ 32 ≤ (shiftIn acc b).toNat * 256 ^ n := by
  rw [Termination.shiftIn_toNat ((topByte_zero_iff _).1 htop)]
  calc 2 ^ 32 ≤ acc.toNat * 256 ^ (n + 1) := h
    _ = acc.toNat * 256 * 256 ^ n := by ring
    _ ≤ (acc.toNat * 256 + b.toNat) * 256 ^ n := Nat.mul_le_mul_right _ (Nat.le_add_right _ _)

section reading
variable {i : Instr} {s : State}

/-- The loop over continuation bytes. That it never uses up its count is seen in the accumulator: each byte makes it 256 times
larger, and TAG_CONT stops before it would lose its top byte. -/
theorem tagCont_leadsTo (hi : i ∈ [Instr.decodeTag, .parse, .find]) (n : Nat) (h : Alone i s) (hst : s.eng.st = .tagCont)
    (hacc : 2 ^ 32 ≤ s.eng.acc.toNat * 256 ^ n) :
    ∃ u, LeadsTo s u ∧ TagRead (tagComplete i) s u (tagTail s.plat s.visible n s.eng.first s.eng.acc s.eng.off) := by
  induction n generalizing s with
  | zero =>
    have := s.eng.acc.isLt
    omega
  | succ n ih =>
    have hstep : step s = .next (tagCont (tagComplete i) s) := (h.step hst (by decide)).trans (exec_tagCont hi hst)
    have hquiet := h.quiet.1
    by_cases hend : s.regs.srcLen ≤ s.eng.off
    · rw [tagCont_end hend] at hstep
      rw [tagTail_end (v := s.visible) hend]
      exact ⟨_, .head hstep (.refl _), s.eng, rfl⟩
    have hlt := BitVec.not_le.1 hend
    cases hbyte : srcByte s.plat s.visible s.eng.off with
    | none =>
      rw [tagCont_refused hquiet hlt hbyte] at hstep
      rw [tagTail_refused hlt hbyte]
      exact ⟨_, .head hstep (.refl _), s.eng, rfl⟩
    | some b =>
      rw [tagCont_byte hquiet hlt hbyte] at hstep
      rw [tagTail_byte hlt hbyte]
      by_cases hzero : s.eng.first = true ∧ b = 0x00#8
      · rw [if_pos hzero] at hstep ⊢
        exact ⟨_, .head hstep (.refl _), s.eng, rfl⟩
      by_cases htop : byteOf s.eng.acc 3 ≠ 0x00#8
      · rw [if_neg hzero, if_pos htop] at hstep ⊢
        exact ⟨_, .head hstep (.refl _), s.eng, rfl⟩
      rw [if_neg hzero, if_neg htop] at hstep ⊢
      by_cases hbit : bit7 b = true
      · rw [if_pos hbit] at hstep ⊢
        obtain ⟨u, hu, hread⟩ := ih (h.withEngine
          { s.eng with acc := shiftIn s.eng.acc b, off := s.eng.off + 1, first := false }) hst
          (shiftIn_fills (not_not.1 htop) hacc)
        exact ⟨u, .head hstep hu, hread⟩
      · rw [if_neg hbit] at hstep ⊢
        exact ⟨_, .head hstep (.refl _), _, _, rfl⟩

/-- A whole tag field, from its first byte. -/
theorem tagFirst_leadsTo (hi : i ∈ [Instr.decodeTag, .parse, .find]) (h : Alone i s) (hst : s.eng.st = .tagFirst) :
    ∃ u, LeadsTo s u ∧ TagRead (tagComplete i) s u (tagField s.plat s.visible s.eng.off) := by
  have hstep : step s = .next (tagFirst (tagComplete i) s) := (h.step hst (by decide)).trans (exec_tagFirst hi hst)
  have hquiet := h.quiet.1
  by_cases hend : s.regs.srcLen ≤ s.eng.off
  · rw [tagFirst_end hend] at hstep
    rw [tagField_end (v := s.visible) hend]
    exact ⟨_, .head hstep (.refl _), s.eng, rfl⟩
  have hlt := BitVec.not_le.1 hend
  cases hbyte : srcByte s.plat s.visible s.eng.off with
  | none =>
    rw [tagFirst_refused hquiet hlt hbyte] at hstep
    rw [tagField_refused hlt hbyte]
    exact ⟨_, .head hstep (.refl _), s.eng, rfl⟩
  | some b =>
    rw [tagField_byte hlt hbyte]
    by_cases hmark : low5 b = 31#5
    · rw [tagFirst_marked hquiet hlt hbyte hmark] at hstep
      rw [if_pos hmark]
      have hpos : 2 ^ 32 ≤ (zext32 b).toNat * 256 ^ 4 := by
        have := (FieldDecoding.low5_eq_iff b).1 hmark
        rw [FieldDecoding.zext32_toNat]
        omega
      obtain ⟨u, hu, hread⟩ := tagCont_leadsTo hi 4 (h.withEngine
        { s.eng with off := s.eng.off + 1, acc := zext32 b, first := true, st := .tagCont }) rfl hpos
      exact ⟨u, .head hstep hu, hread⟩
    · rw [tagFirst_short hquiet hlt hbyte hmark] at hstep
      rw [if_neg hmark]
      exact ⟨_, .head hstep (.refl _), _, _, rfl⟩

/-- A tag field read by DECODE_TAG ends the command as its big step does. -/
theorem TagRead.decodeTag {u : State} (h : TagRead decodeTagComplete s u (tagField s.plat s.visible s.regs.arg))
    (hquiet : s.env.raced = false) : u.eng.st = .idle ∧ u.visible = bigDecodeTag s.plat s.visible := by
  have harg : s.visible.regs.arg = s.regs.arg := rfl
  rw [bigDecodeTag, harg]
  cases hfield : tagField s.plat s.visible s.regs.arg with
  | error e =>
    rw [hfield] at h
    obtain ⟨g, rfl⟩ := h
    exact ⟨by simp [raiseErr], visible_endCommand (by exact hquiet) _⟩
  | ok r =>
    rw [hfield] at h
    obtain ⟨first, st, rfl⟩ := h
    exact ⟨by simp [decodeTagComplete, finish], visible_endCommand (by exact hquiet) _⟩

end reading

/-- Settles O41: DISPATCH sets the offset, and the tag field there is read to its end. -/
theorem decodeTagRunIsItsBigStep : Obligations.DecodeTagRunIsItsBigStep := by
  intro s s₀
  have h : Alone .decodeTag s₀ := withCommand_alone .decodeTag s
  have hdispatch := (h.step (st := .dispatch) rfl (by decide)).trans (FieldDecoding.decodeTag_rows.exec_dispatch s₀ rfl)
  obtain ⟨u, hu, hread⟩ := tagFirst_leadsTo (by decide)
    (h.withEngine { s₀.eng with off := s₀.regs.arg, st := .tagFirst }) rfl
  obtain ⟨hidle, hv⟩ := hread.decodeTag h.quiet.1
  exact endsWith_of_leadsTo (.head hdispatch hu) hidle hv

/-! ## Writing a field (40_tag_codec.md R127, R128) -/

/-- The bytes of a field still to be written stand in the buffer from `ei` on. -/
structure Pending (bs : List Byte) (e : Engine) : Prop where
  ne_nil : bs ≠ []
  count : e.ei.toNat + bs.length = e.en.toNat
  byte : ∀ m, m < bs.length → e.ebuf[e.ei.toNat + m]? = bs[m]?

theorem Pending.tail {b : Byte} {bs : List Byte} {e e' : Engine} (h : Pending (b :: bs) e) (hne : bs ≠ [])
    (hei : e'.ei = e.ei + 1) (hen : e'.en = e.en) (hbuf : e'.ebuf = e.ebuf) : Pending bs e' := by
  have hcount : e.ei.toNat + (bs.length + 1) = e.en.toNat := h.count
  have hnext : e'.ei.toNat = e.ei.toNat + 1 := by
    rw [hei]
    bv_omega
  refine ⟨hne, by rw [hnext, hen]; omega, fun m hm => ?_⟩
  rw [hnext, hbuf, Nat.add_assoc, Nat.add_comm 1 m]
  exact h.byte (m + 1) (Nat.succ_lt_succ hm)

theorem Pending.last_iff {b : Byte} {bs : List Byte} {e : Engine} (h : Pending (b :: bs) e) :
    e.ei + 1 = e.en ↔ bs = [] := by
  have hcount : e.ei.toNat + (bs.length + 1) = e.en.toNat := h.count
  rw [← List.length_eq_zero_iff]
  bv_omega

/-- A field just loaded is wholly pending (40_tag_codec.md R125, 41_length_codec.md R155). -/
theorem pending_loadField {bs : List Byte} (hpos : 1 ≤ bs.length) (h5 : bs.length ≤ 5) (f : Fld) (s : State) :
    Pending bs (loadField f bs s).eng where
  ne_nil := List.ne_nil_of_length_pos hpos
  count := by
    rw [loadField]
    bv_omega
  byte m hm := by
    have hindex : (loadField f bs s).eng.ei.toNat + m = m := Nat.zero_add m
    rw [hindex, List.getElem?_eq_getElem hm]
    exact loadEbuf_get hm (by omega)

/-- What a command that writes a field has come to, when its bytes answer the given error or none, count and outcome. -/
def FieldWritten (done : State → State) (s u : State) : Option Err × Word × Visible → Prop
  | (some e, _, v) => ∃ g, u = raiseErr e { s with regs := v.regs, mem := v.mem, eng := g }
  | (none, w, v) =>
    u = done { s with regs := v.regs, mem := v.mem, eng := { s.eng with wcnt := w, ei := s.eng.en } }

section writing
variable {i : Instr} {s : State}

theorem putByte_full {p : Platform} {b : Byte} {w : Word} {v : Visible} (h : v.regs.dstCap ≤ w) :
    putByte p b w v = .error .noMemory := if_pos h

theorem putByte_refused {p : Platform} {b : Byte} {w : Word} {v : Visible} (hlt : w < v.regs.dstCap)
    (h : memOk p (v.regs.dstAddr + w) .write = false) : putByte p b w v = .error .busError := by
  rw [putByte, if_neg (BitVec.not_le.2 hlt), h]
  rfl

theorem putByte_ok {p : Platform} {b : Byte} {w : Word} {v : Visible} (hlt : w < v.regs.dstCap)
    (h : memOk p (v.regs.dstAddr + w) .write = true) :
    putByte p b w v =
      .ok { regs := { v.regs with res0 := w + 1 }, mem := v.mem.write (v.regs.dstAddr + w).toNat b } := by
  rw [putByte, if_neg (BitVec.not_le.2 hlt), h]
  rfl

theorem FieldWritten.of_putField {done : State → State} {b : Byte} {u : State} {r : Option Err × Word × Visible}
    (h : FieldWritten done (putField b s) u r) : FieldWritten done s u r := by
  obtain ⟨e, w, v⟩ := r
  cases e <;> exact h

/-- The bytes of a field, one step of EMIT for each. -/
theorem emit_leadsTo (hi : i ∈ [Instr.encodeTag, .encodeLength, .serialize]) (bs : List Byte) (h : Alone i s)
    (hst : s.eng.st = .emit) (hbytes : Pending bs s.eng) :
    ∃ u, LeadsTo s u ∧ FieldWritten (fieldDone i) s u (emitBytes s.plat bs s.eng.wcnt s.visible) := by
  induction bs generalizing s with
  | nil => exact absurd rfl hbytes.ne_nil
  | cons b bs ih =>
    have hstep : step s = emit (fieldDone i) s := (h.step hst (by decide)).trans (exec_emit hi hst)
    have hb : s.eng.ebuf[s.eng.ei.toNat]? = some b := hbytes.byte 0 (Nat.succ_pos _)
    rw [emitBytes]
    by_cases hfull : s.regs.dstCap ≤ s.eng.wcnt
    · rw [emit_full hfull] at hstep
      rw [putByte_full (v := s.visible) hfull]
      exact ⟨_, .head hstep (.refl _), s.eng, rfl⟩
    have hlt := BitVec.not_le.1 hfull
    rw [emit_byte h.quiet hlt hb] at hstep
    cases hok : memOk s.plat (s.regs.dstAddr + s.eng.wcnt) .write with
    | false =>
      rw [hok, if_neg Bool.false_ne_true] at hstep
      rw [putByte_refused (v := s.visible) hlt hok]
      exact ⟨_, .head hstep (.refl _), s.eng, rfl⟩
    | true =>
      rw [hok, if_pos rfl] at hstep
      rw [putByte_ok (v := s.visible) hlt hok]
      dsimp only
      by_cases hnil : bs = []
      · subst hnil
        have hlast := hbytes.last_iff.2 rfl
        rw [if_pos hlast] at hstep
        refine ⟨_, .head hstep (.refl _), ?_⟩
        rw [emitBytes, FieldWritten, ← hlast]
        rfl
      · rw [if_neg fun hlast => hnil (hbytes.last_iff.1 hlast)] at hstep
        have hput : Alone i (putField b s) := ⟨h.op_eq, h.sched_eq, h.quiet⟩
        have htail : Pending bs (putField b s).eng := hbytes.tail hnil rfl rfl rfl
        obtain ⟨u, hu, hwritten⟩ := ih hput hst htail
        exact ⟨u, .head hstep hu, hwritten.of_putField⟩

/-- A field written by an encoder ends the command as its big step does. -/
theorem FieldWritten.finished {u : State} {r : Option Err × Word × Visible} (h : FieldWritten finish s u r)
    (hquiet : s.env.raced = false) : u.eng.st = .idle ∧ u.visible = r.2.2.ended r.1 := by
  obtain ⟨e, w, v⟩ := r
  cases e with
  | none =>
    cases h
    exact ⟨by simp [finish], visible_endCommand (by exact hquiet) _⟩
  | some e =>
    obtain ⟨g, rfl⟩ := h
    exact ⟨by simp [raiseErr], visible_endCommand (by exact hquiet) _⟩

end writing

/-- Settles O42: DISPATCH takes the tag, ENC_TAG loads its field or refuses it, and EMIT writes the field's bytes. -/
theorem encodeTagRunIsItsBigStep : Obligations.EncodeTagRunIsItsBigStep := by
  intro s s₀
  have h : Alone .encodeTag s₀ := withCommand_alone .encodeTag s
  obtain ⟨-, htake, -⟩ := CommandWord.dispatchStep s₀ rfl
  have hdispatch := (h.step (st := .dispatch) rfl (by decide)).trans htake
  have h₁ := h.withEngine { s₀.eng with ctag := s₀.regs.arg, st := .encTag }
  have hload := (h₁.step (st := .encTag) rfl (by decide)).trans (exec_encTag (by decide) rfl)
  have harg : s₀.visible.regs.arg = s₀.regs.arg := rfl
  rw [bigEncodeTag, harg]
  cases hbs : tagBytes s₀.regs.arg with
  | none =>
    rw [encTag_bad (by exact hbs)] at hload
    exact endsWith_of_leadsTo (.head hdispatch (.head hload (.refl _))) (by simp [raiseErr])
      (visible_endCommand (by exact h.quiet.1) _)
  | some bs =>
    rw [encTag_load (by exact hbs)] at hload
    obtain ⟨hpos, hfour⟩ := tagBytes_length hbs
    obtain ⟨u, hu, hwritten⟩ := emit_leadsTo (by decide) bs (h₁.withEngine _) rfl
      (pending_loadField hpos (by omega) .tag _)
    obtain ⟨hidle, hv⟩ := FieldWritten.finished hwritten h.quiet.1
    exact endsWith_of_leadsTo (.head hdispatch (.head hload hu)) hidle hv

end Sys2Proof.TagRuns
end

section
/-! PROOF. The encoders and SERIALIZE write only the bytes they count (40_tag_codec.md R127, 43_serialize.md R215): each step
either keeps memory, the count and `RES0`, or stores the next destination byte and counts it in both. -/
namespace Sys2Proof.CountedBytes
open Sys2Proof Sys2Proof.Machine Sys2Proof.Laws Sys2Proof.Effects

/-! ## One step -/

/-- Memory, the count of destination bytes and `RES0` stay. -/
structure SameBytes (s t : State) : Prop where
  mem_eq : t.mem = s.mem
  wcnt_eq : t.eng.wcnt = s.eng.wcnt
  res0_eq : t.regs.res0 = s.regs.res0

theorem SameBytes.refl (s : State) : SameBytes s s := ⟨rfl, rfl, rfl⟩

/-- What a step of a command without a race does to destination bytes. -/
inductive CountsBytes (s t : State) : Prop
  | same (h : SameBytes s t)
  | byte (b : Byte) (hlt : s.eng.wcnt < s.regs.dstCap)
      (mem_eq : t.mem = s.mem.write (s.regs.dstAddr + s.eng.wcnt).toNat b)
      (wcnt_eq : t.eng.wcnt = s.eng.wcnt + 1) (res0_eq : t.regs.res0 = s.eng.wcnt + 1)

/-- What a command does after its byte in the same step counts no other. -/
theorem CountsBytes.trans_same {s t u : State} (h : CountsBytes s t) (hsame : SameBytes t u) : CountsBytes s u := by
  obtain ⟨hmem, hwcnt, hres⟩ := hsame
  cases h with
  | same h => exact .same ⟨hmem.trans h.mem_eq, hwcnt.trans h.wcnt_eq, hres.trans h.res0_eq⟩
  | byte b hlt hm hw hr => exact .byte b hlt (hmem.trans hm) (hwcnt.trans hw) (hres.trans hr)

/-- Without a race, the end of a command leaves its results (60_exceptions.md R271, R272). -/
theorem endCommand_same {s : State} (h : s.env.raced = false) (e : Option Err) : SameBytes s (endCommand e s) := by
  rw [endCommand_quiet h]
  exact ⟨rfl, rfl, rfl⟩

theorem countsBytes_end {s : State} (h : s.env.raced = false) (e : Option Err) :
    OnNext (CountsBytes s) (.next (endCommand e s)) := onNext_next (.same (endCommand_same h e))

theorem serializeFieldDone_same (s : State) : SameBytes s (serializeFieldDone s) := by
  unfold serializeFieldDone
  cases s.eng.fld <;> exact ⟨rfl, rfl, rfl⟩

section actions
variable {s : State}

theorem encTag_counts (h : s.env.raced = false) : CountsBytes s (encTag s) :=
  encTag_rule (CountsBytes s)
    (hBad := fun _ => .same (endCommand_same h _))
    (hLoad := fun _ _ => .same ⟨rfl, rfl, rfl⟩)

theorem encLen_counts (h : s.env.raced = false) : CountsBytes s (encLen s) :=
  encLen_rule (CountsBytes s)
    (hZero := fun _ => .same (endCommand_same h _))
    (hLoad := fun _ => .same ⟨rfl, rfl, rfl⟩)

theorem emit_counts {done : State → State} (h : s.env.raced = false)
    (hdone : ∀ u, u.env.raced = false → SameBytes u (done u)) : OnNext (CountsBytes s) (emit done s) := by
  refine emit_rule (OnNext (CountsBytes s))
    (hFull := fun _ => countsBytes_end h _)
    (hStuck := fun _ _ => onNext_fault _)
    (hBus := fun _ _ => countsBytes_end h _)
    (hMore := fun b t hlt _ hw _ => ?more)
    (hLast := fun b t hlt _ hw _ => ?last)
  all_goals obtain ⟨-, n, b', rfl, -⟩ := memWrite_some hw
  case more => exact onNext_next (.byte b' hlt rfl rfl rfl)
  case last => exact onNext_next ((CountsBytes.byte b' hlt rfl rfl rfl).trans_same (hdone _ h))

theorem serializeTokStart_counts (h : s.env.raced = false) : CountsBytes s (serializeTokStart s) :=
  serializeTokStart_rule (CountsBytes s)
    (hDone := fun _ => .same (endCommand_same h _))
    (hGo := fun _ => .same ⟨rfl, rfl, rfl⟩)

theorem recRead_counts (h : s.env.raced = false) : OnNext (CountsBytes s) (recRead s) := by
  refine recRead_rule (OnNext (CountsBytes s))
    (hStuck := fun _ => onNext_fault _)
    (hBus := fun _ => countsBytes_end h _)
    (hMore := fun b t _ hr _ => ?_)
    (hLast := fun b t _ hr _ => ?_)
  all_goals
    obtain ⟨-, n, rfl, -⟩ := memRead_some hr
    exact onNext_next (.same ⟨rfl, rfl, rfl⟩)

theorem valCopy_counts (h : s.env.raced = false) : CountsBytes s (valCopy s) := by
  refine valCopy_rule (CountsBytes s)
    (hFull := fun _ => .same (endCommand_same h _))
    (hBusR := fun _ _ => .same (endCommand_same h _))
    (hBusW := fun b t _ hr _ => ?busW)
    (hMore := fun b t u hlt hr hw _ => ?more)
    (hLast := fun b t u hlt hr hw _ => ?last)
  all_goals obtain ⟨-, n, rfl, -⟩ := memRead_some hr
  case busW => exact .trans_same (t := s.skipFree n) (.same ⟨rfl, rfl, rfl⟩) (endCommand_same (s := s.skipFree n) h _)
  all_goals
    obtain ⟨-, m, b', rfl, -⟩ := memWrite_some hw
    exact .byte b' hlt rfl rfl rfl

end actions

section commands
variable {s : State}

theorem execEncodeTag_counts (h : s.env.raced = false) : OnNext (CountsBytes s) (execEncodeTag s) := by
  unfold execEncodeTag
  split
  next => exact onNext_next (.same (.refl s))
  next => exact onNext_next (.same ⟨rfl, rfl, rfl⟩)
  next => exact onNext_next (encTag_counts h)
  next => exact emit_counts h fun _ hu => endCommand_same hu none
  next => exact onNext_fault _

theorem execEncodeLength_counts (h : s.env.raced = false) : OnNext (CountsBytes s) (execEncodeLength s) := by
  unfold execEncodeLength
  split
  next => exact onNext_next (.same (.refl s))
  next => exact onNext_next (.same ⟨rfl, rfl, rfl⟩)
  next => exact onNext_next (encLen_counts h)
  next => exact emit_counts h fun _ hu => endCommand_same hu none
  next => exact onNext_fault _

theorem execSerialize_counts (h : s.env.raced = false) : OnNext (CountsBytes s) (execSerialize s) := by
  unfold execSerialize
  split
  next => exact onNext_next (.same (.refl s))
  next => exact onNext_next (.same ⟨rfl, rfl, rfl⟩)
  next => exact onNext_next (serializeTokStart_counts h)
  next => exact recRead_counts h
  next => exact onNext_next (encTag_counts h)
  next => exact onNext_next (encLen_counts h)
  next => exact emit_counts h fun u _ => serializeFieldDone_same u
  next => exact onNext_next (valCopy_counts h)
  next => exact onNext_fault _

end commands

theorem exec_counts {i : Instr} (hi : i ∈ [Instr.encodeTag, .encodeLength, .serialize]) {s : State}
    (h : s.env.raced = false) : OnNext (CountsBytes s) (exec i s) := by
  cases i with
  | encodeTag => exact execEncodeTag_counts h
  | encodeLength => exact execEncodeLength_counts h
  | serialize => exact execSerialize_counts h
  | _ => simp at hi

/-! ## A whole run -/

/-- Between its start `s₀` and its end, a command has written only the bytes that it has counted. -/
structure HasWritten (s₀ s : State) : Prop where
  setting_eq : setting s = setting s₀
  res0_eq : s.regs.res0 = s.eng.wcnt
  wcnt_le : s.eng.wcnt ≤ s₀.regs.dstCap
  mem_eq : ∀ a, s.eng.wcnt.toNat ≤ Machine.dist s₀.regs.dstAddr a → s.mem.read a.toNat = s₀.mem.read a.toNat

theorem HasWritten.next {s₀ s t : State} (h : HasWritten s₀ s) (hset : setting t = setting s) (hc : CountsBytes s t) :
    HasWritten s₀ t := by
  have hcap : s.regs.dstCap = s₀.regs.dstCap := congrArg Setting.dstCap h.setting_eq
  have hdst : s.regs.dstAddr = s₀.regs.dstAddr := congrArg Setting.dstAddr h.setting_eq
  cases hc with
  | same hsame =>
    obtain ⟨hmem, hwcnt, hres⟩ := hsame
    refine ⟨hset.trans h.setting_eq, by rw [hres, hwcnt, h.res0_eq], hwcnt ▸ h.wcnt_le, fun a ha => ?_⟩
    rw [hmem]
    exact h.mem_eq a (hwcnt ▸ ha)
  | byte b hlt hmem hwcnt hres =>
    rw [hcap] at hlt
    rw [hdst] at hmem
    refine ⟨hset.trans h.setting_eq, by rw [hres, hwcnt], hwcnt ▸ Bounds.succ_le_of_lt hlt, fun a ha => ?_⟩
    have hbeyond : s.eng.wcnt.toNat < Machine.dist s₀.regs.dstAddr a := by
      rw [hwcnt] at ha
      bv_omega
    have hne : a.toNat ≠ (s₀.regs.dstAddr + s.eng.wcnt).toNat := fun heq => by
      rw [BitVec.eq_of_toNat_eq heq, MemoryAccess.dist_base_add] at hbeyond
      exact absurd hbeyond (Nat.lt_irrefl _)
    rw [hmem, read_write_other _ hne]
    exact h.mem_eq a hbeyond.le

/-- Settles O55: every step of the run keeps it so, the last one too. -/
theorem writersTouchOnlyTheBytesTheyCount : Obligations.WritersTouchOnlyTheBytesTheyCount := by
  intro i hi s t ht
  have hstart : HasWritten (s.withCommand (encode i)) (s.withCommand (encode i)) :=
    ⟨rfl, rfl, Nat.zero_le _, fun _ _ => rfl⟩
  have hop : (s.withCommand (encode i)).regs.op = i.op := by cases i <;> rfl
  have hstep (u : State) (hu : HasWritten (s.withCommand (encode i)) u) :
      OnNext (HasWritten (s.withCommand (encode i))) (step u) := by
    rw [step_empty (congrArg Setting.sched hu.setting_eq)]
    intro v hv
    refine hu.next (engineStep_setting u v hv) ?_
    by_cases hidle : u.eng.st = .idle
    · rw [engineStep, if_pos hidle] at hv
      cases hv
      exact .same (.refl u)
    · rw [engineStep_running ⟨hidle, (congrArg Setting.op hu.setting_eq).trans hop⟩] at hv
      exact exec_counts hi (congrArg Setting.raced hu.setting_eq) v hv
  have hend := FieldDecoding.run_keeps hstep _ hstart t ht
  exact ⟨hend.res0_eq ▸ hend.wcnt_le, fun a ha => hend.mem_eq a (hend.res0_eq ▸ ha)⟩

end Sys2Proof.CountedBytes
end

section
/-! PROOF. ENCODE_TAG and then DECODE_TAG (40_tag_codec.md R129). Both commands are taken as their big steps: the first leaves the
field's bytes in memory, the second reads them back, and what it makes of them is told by the bytes alone. -/
namespace Sys2Proof.TagRoundTrip
open Sys2Proof Sys2Proof.Machine Sys2Proof.Laws Sys2Proof.TagBytes Sys2Proof.TagRuns

/-! ## Bytes in memory, one after the other -/

/-- Memory with the given bytes stored from an address on. -/
def storeBytes : List Byte → Word → Memory → Memory
  | [], _, m => m
  | b :: bs, a, m => storeBytes bs (a + 1) (m.write a.toNat b)

/-- An address past the bytes stored reads as before. -/
theorem read_storeBytes_past {bs : List Byte} {a x : Word} (m : Memory) (h : bs.length ≤ Machine.dist a x) :
    (storeBytes bs a m).read x.toNat = m.read x.toNat := by
  induction bs generalizing a m with
  | nil => rfl
  | cons b bs ih =>
    rw [List.length_cons] at h
    have hnext : bs.length ≤ Machine.dist (a + 1) x ∧ x.toNat ≠ a.toNat := by
      unfold Machine.dist at h ⊢
      bv_omega
    rw [storeBytes, ih _ hnext.1, read_write_other _ hnext.2]

/-- The bytes stored are read back, as long as they do not run around the address space (20_memory.md R62). -/
theorem read_storeBytes {bs : List Byte} {a : Word} {m : Memory} {i : Nat} (hm : m.wf = true) (hlen : bs.length ≤ 2 ^ 32)
    (hi : i < bs.length) : (storeBytes bs a m).read (a + BitVec.ofNat 32 i).toNat = bs[i] := by
  induction bs generalizing a m i with
  | nil => exact absurd hi (Nat.not_lt_zero i)
  | cons b bs ih =>
    rw [List.length_cons] at hlen hi
    cases i with
    | zero =>
      have hpast : bs.length ≤ Machine.dist (a + 1) a := by
        unfold Machine.dist
        bv_omega
      have hzero : a + BitVec.ofNat 32 0 = a := BitVec.add_zero a
      rw [storeBytes, hzero, read_storeBytes_past _ hpast, read_write_same hm]
      rfl
    | succ i =>
      have haddr : a + BitVec.ofNat 32 (i + 1) = a + 1 + BitVec.ofNat 32 i := by bv_omega
      rw [storeBytes, haddr, ih (wf_write hm a b) (by omega) (by omega)]
      rfl

/-! ## Writing the field -/

/-- With room and access for all of them, the bytes are stored and counted. -/
theorem emitBytes_all {p : Platform} {bs : List Byte} {w : Word} {v : Visible} (hres : v.regs.res0 = w)
    (hcap : w.toNat + bs.length ≤ v.regs.dstCap.toNat)
    (hok : ∀ i, i < bs.length → memOk p (v.regs.dstAddr + w + BitVec.ofNat 32 i) .write = true) :
    emitBytes p bs w v = (none, w + BitVec.ofNat 32 bs.length,
      { regs := { v.regs with res0 := w + BitVec.ofNat 32 bs.length }
        mem := storeBytes bs (v.regs.dstAddr + w) v.mem }) := by
  induction bs generalizing w v with
  | nil =>
    subst hres
    have hzero : v.regs.res0 + BitVec.ofNat 32 0 = v.regs.res0 := BitVec.add_zero _
    rw [emitBytes, List.length_nil, hzero, storeBytes]
  | cons b bs ih =>
    rw [List.length_cons] at hcap
    have hlt : w < v.regs.dstCap := by bv_omega
    have hfirst : memOk p (v.regs.dstAddr + w) .write = true := by
      have := hok 0 (Nat.succ_pos _)
      rwa [BitVec.add_zero] at this
    have hsucc (i : Nat) : w + BitVec.ofNat 32 (i + 1) = w + 1 + BitVec.ofNat 32 i := by bv_omega
    rw [emitBytes, putByte_ok hlt hfirst]
    have hrest := ih (w := w + 1)
      (v := { regs := { v.regs with res0 := w + 1 }, mem := v.mem.write (v.regs.dstAddr + w).toNat b }) rfl
      (by dsimp only; bv_omega) fun i hi => by
        have := hok (i + 1) (Nat.succ_lt_succ hi)
        rwa [BitVec.add_assoc, hsucc, ← BitVec.add_assoc] at this
    dsimp only at hrest ⊢
    rw [hrest, List.length_cons, hsucc, storeBytes, BitVec.add_assoc v.regs.dstAddr]

/-! ## Bytes into the accumulator (10_state.md R31) -/

/-- The accumulator has room for `n` more bytes. -/
def HasRoom (acc : Word) (n : Nat) : Prop := (acc.toNat + 1) * 256 ^ n ≤ 2 ^ 32

section room
variable {acc : Word} {n : Nat}

theorem hasRoom_zero (h : n ≤ 4) : HasRoom 0 n := by
  have hpow : 256 ^ n ≤ 256 ^ 4 := Nat.pow_le_pow_right (by decide) h
  simpa [HasRoom] using hpow

/-- With room for another byte, the top byte is 0. -/
theorem HasRoom.lt (h : HasRoom acc (n + 1)) : acc.toNat < 2 ^ 24 := by
  have hpow : 256 ^ 1 ≤ 256 ^ (n + 1) := Nat.pow_le_pow_right (by decide) (by omega)
  have := (Nat.mul_le_mul_left (acc.toNat + 1) hpow).trans h
  omega

theorem HasRoom.shiftIn (h : HasRoom acc (n + 1)) (b : Byte) : HasRoom (Machine.shiftIn acc b) n := by
  unfold HasRoom at h ⊢
  rw [Termination.shiftIn_toNat (HasRoom.lt h)]
  calc (acc.toNat * 256 + b.toNat + 1) * 256 ^ n ≤ (acc.toNat + 1) * 256 * 256 ^ n :=
        Nat.mul_le_mul_right _ (by omega)
    _ = (acc.toNat + 1) * 256 ^ (n + 1) := by ring
    _ ≤ 2 ^ 32 := h

theorem shiftIn_zero (b : Byte) : Machine.shiftIn 0 b = zext32 b := by simp [Machine.shiftIn]

/-- The accumulator law over the low bytes of a word gives them back. -/
theorem foldl_shiftIn_bigEndian (v : Word) (h : HasRoom acc n) :
    ((bigEndian n v).foldl Machine.shiftIn acc).toNat = acc.toNat * 256 ^ n + v.toNat % 256 ^ n := by
  induction n generalizing acc with
  | zero => simp [bigEndian, Nat.mod_one]
  | succ n ih =>
    rw [bigEndian, List.foldl_cons, ih (h.shiftIn _), Termination.shiftIn_toNat h.lt, MemoryAccess.byteOf_toNat,
      Nat.mod_pow_succ]
    ring

end room

/-- The significant bytes of a word are the word. -/
theorem foldl_shiftIn_sigbytes (v : Word) : (bigEndian (sigbytes v) v).foldl shiftIn 0 = v := by
  apply BitVec.eq_of_toNat_eq
  rw [foldl_shiftIn_bigEndian v (hasRoom_zero (sigbytes_range v).2), Nat.mod_eq_of_lt (lt_pow_sigbytes v)]
  simp

/-! ## Reading bytes as a tag field (40_tag_codec.md R124) -/

/-- The source buffer ends with the given bytes, which stand from offset `o` on. -/
structure SourceEnds (p : Platform) (v : Visible) (o : Word) (bs : List Byte) : Prop where
  length_eq : o.toNat + bs.length = v.regs.srcLen.toNat
  byte : ∀ i (h : i < bs.length), srcByte p v (o + BitVec.ofNat 32 i) = some bs[i]

/-- Bytes that go on a tag field to its end: of the first of all a 0 is refused, and bit 7 tells that another byte follows. -/
def TailWf : Bool → List Byte → Prop
  | _, [] => False
  | first, b :: bs => ¬ (first = true ∧ b = 0x00#8) ∧ if bit7 b = true then TailWf false bs else bs = []

/-- Bytes that are one whole tag field. -/
def FieldWf : List Byte → Prop
  | [] => False
  | b :: bs => if low5 b = 31#5 then TailWf true bs else bs = []

section reading
variable {p : Platform} {v : Visible} {o : Word} {b : Byte} {bs : List Byte}

theorem SourceEnds.nil (h : SourceEnds p v o []) : v.regs.srcLen = o :=
  BitVec.eq_of_toNat_eq h.length_eq.symm

theorem SourceEnds.head (h : SourceEnds p v o (b :: bs)) : o < v.regs.srcLen ∧ srcByte p v o = some b := by
  have hlen := h.length_eq
  rw [List.length_cons] at hlen
  have hzero : o + BitVec.ofNat 32 0 = o := BitVec.add_zero o
  exact ⟨by bv_omega, hzero ▸ h.byte 0 (Nat.succ_pos _)⟩

theorem SourceEnds.tail (h : SourceEnds p v o (b :: bs)) : SourceEnds p v (o + 1) bs := by
  have hlen := h.length_eq
  rw [List.length_cons] at hlen
  refine ⟨by bv_omega, fun i hi => ?_⟩
  have haddr : o + BitVec.ofNat 32 (i + 1) = o + 1 + BitVec.ofNat 32 i := by bv_omega
  rw [← haddr]
  exact h.byte (i + 1) (Nat.succ_lt_succ hi)

/-- The bytes after the next one are none exactly where the buffer ends. -/
theorem SourceEnds.eq_nil_iff (h : SourceEnds p v o bs) : o = v.regs.srcLen ↔ bs = [] := by
  have hlen := h.length_eq
  rw [← List.length_eq_zero_iff]
  bv_omega

/-- The loop over continuation bytes takes all the bytes exactly when they end a field; they do not overflow the accumulator. -/
theorem tagTail_ok_iff {n : Nat} {first : Bool} {t : Word} (hn : bs.length ≤ n)
    (ht : HasRoom t bs.length) (h : SourceEnds p v o bs) :
    tagTail p v n first t o = .ok (bs.foldl shiftIn t, v.regs.srcLen) ↔ TailWf first bs := by
  induction bs generalizing n first t o with
  | nil =>
    cases n with
    | zero => simp [tagTail, TailWf]
    | succ n => simp [tagTail_end (BitVec.le_of_eq h.nil), TailWf]
  | cons b bs ih =>
    obtain ⟨n, rfl⟩ : ∃ k, n = k + 1 := Nat.exists_eq_add_one.2 ((Nat.succ_pos _).trans_le hn)
    obtain ⟨hlt, hbyte⟩ := h.head
    rw [List.length_cons] at hn ht
    rw [tagTail_byte hlt hbyte, TailWf, List.foldl_cons]
    by_cases hzero : first = true ∧ b = 0x00#8
    · simp [hzero]
    rw [if_neg hzero, if_neg (not_not.2 ((topByte_zero_iff t).2 ht.lt)), and_iff_right hzero]
    by_cases hbit : bit7 b = true
    · rw [if_pos hbit, if_pos hbit]
      exact ih (Nat.le_of_succ_le_succ hn) (ht.shiftIn b) h.tail
    · rw [if_neg hbit, if_neg hbit, ← h.tail.eq_nil_iff, Except.ok.injEq, Prod.mk.injEq]
      refine and_iff_right_of_imp fun hend => ?_
      rw [h.tail.eq_nil_iff.1 hend]
      rfl

/-- A buffer of at most four bytes is read as one tag field exactly when it is one. -/
theorem tagField_ok_iff (hlen : bs.length ≤ 4) (h : SourceEnds p v o bs) :
    tagField p v o = .ok (bs.foldl shiftIn 0, v.regs.srcLen) ↔ FieldWf bs := by
  cases bs with
  | nil => simp [tagField_end (BitVec.le_of_eq h.nil), FieldWf]
  | cons b bs =>
    obtain ⟨hlt, hbyte⟩ := h.head
    rw [List.length_cons] at hlen
    rw [tagField_byte hlt hbyte, FieldWf, List.foldl_cons, shiftIn_zero]
    by_cases hmark : low5 b = 31#5
    · rw [if_pos hmark, if_pos hmark]
      have hroom : HasRoom (zext32 b) bs.length := shiftIn_zero b ▸ (hasRoom_zero hlen).shiftIn b
      exact tagTail_ok_iff (by omega) hroom h.tail
    · rw [if_neg hmark, if_neg hmark, ← h.tail.eq_nil_iff, Except.ok.injEq, Prod.mk.injEq]
      refine and_iff_right_of_imp fun hend => ?_
      rw [h.tail.eq_nil_iff.1 hend]
      rfl

end reading

/-! ## The bytes of a tag (40_tag_codec.md R125, R129) -/

theorem sigbytes_of_isShort {t : Word} (h : IsShort t) : sigbytes t = 1 := by
  have := sigbytes_cases t
  have := h.1
  omega

theorem tagBytes_isShort {t : Word} (h : IsShort t) : tagBytes t = some (bigEndian (sigbytes t) t) := by
  rw [tagBytes_short h, sigbytes_of_isShort h]
  rfl

/-- Whatever a tag's field is, it is the tag's significant bytes. -/
theorem tagBytes_eq_bigEndian {t : Word} {bs : List Byte} (h : tagBytes t = some bs) : bs = bigEndian (sigbytes t) t := by
  by_cases hshort : IsShort t
  · exact Option.some.inj (h.symm.trans (tagBytes_isShort hshort))
  · by_cases hlead : t.toNat / 256 ^ (sigbytes t - 1) % 32 = 31
    · exact Option.some.inj (h.symm.trans (tagBytes_marked hshort hlead))
    · exact absurd (h.symm.trans (tagBytes_unmarked hshort hlead)) (by simp)

/-- The low bytes of a word as the continuation bytes of a tag field. -/
theorem tailWf_bigEndian_iff (t : Word) (first : Bool) (n : Nat) :
    TailWf first (bigEndian (n + 1) t) ↔
      ¬ (first = true ∧ byteOf t n = 0x00#8) ∧ (∀ i < n, bit7 (byteOf t (i + 1)) = true) ∧ bit7 (byteOf t 0) = false := by
  induction n generalizing first with
  | zero => simp [bigEndian, TailWf]
  | succ n ih =>
    rw [bigEndian, TailWf, Nat.forall_lt_succ_right]
    by_cases hbit : bit7 (byteOf t (n + 1)) = true
    · simp [hbit, ih]
    · simp [hbit, bigEndian]

/-- R129's conditions, one by one. -/
theorem tagWf_iff (t : Word) : tagWf t = true ↔
    IsShort t ∨ (2 ≤ sigbytes t ∧ low5 (byteOf t (sigbytes t - 1)) = 31#5 ∧ byteOf t (sigbytes t - 2) ≠ 0x00#8
      ∧ (∀ i < sigbytes t - 2, bit7 (byteOf t (i + 1)) = true) ∧ bit7 (byteOf t 0) = false) := by
  rw [isShort_iff, tagWf]
  simp [and_assoc]

/-- R129's tags are those whose significant bytes are one whole tag field. -/
theorem tagWf_iff_fieldWf (t : Word) : tagWf t = true ↔ FieldWf (bigEndian (sigbytes t) t) := by
  rw [tagWf_iff]
  obtain ⟨n, hn⟩ : ∃ n, sigbytes t = n + 1 := Nat.exists_eq_add_one.2 (sigbytes_range t).1
  rw [hn]
  cases n with
  | zero =>
    have hshort : IsShort t ↔ ¬ low5 (byteOf t 0) = 31#5 := by
      rw [low5_byteOf_eq_iff, IsShort]
      have := sigbytes_cases t
      omega
    simp [bigEndian, FieldWf, TailWf, hshort]
  | succ n =>
    have hlong : ¬ IsShort t := fun h => absurd (hn.symm.trans (sigbytes_of_isShort h)) (by omega)
    rw [bigEndian, FieldWf, tailWf_bigEndian_iff]
    by_cases hmark : low5 (byteOf t (n + 1)) = 31#5
    · simp [hmark, hlong]
    · simp [hmark, hlong, bigEndian]

/-- A well-formed tag has a field (40_tag_codec.md R125, R129). -/
theorem tagBytes_of_tagWf {t : Word} (h : tagWf t = true) : tagBytes t = some (bigEndian (sigbytes t) t) := by
  rcases (tagWf_iff t).1 h with hshort | ⟨htwo, hlead, -⟩
  · exact tagBytes_isShort hshort
  · have hlong : ¬ IsShort t := fun hshort => by
      rw [sigbytes_of_isShort hshort] at htwo
      omega
    exact tagBytes_marked hlong ((low5_byteOf_eq_iff _ _).1 hlead)

/-! ## The two commands, one after the other -/

section commands
variable {p : Platform} {v : Visible}

/-- With room and access for its bytes, ENCODE_TAG writes a field whole. -/
theorem bigEncodeTag_all {bs : List Byte} (hbs : tagBytes v.regs.arg = some bs) (hres : v.regs.res0 = 0)
    (hcap : bs.length ≤ v.regs.dstCap.toNat)
    (hok : ∀ i, i < bs.length → memOk p (v.regs.dstAddr + BitVec.ofNat 32 i) .write = true) :
    bigEncodeTag p v = Visible.ended none
      { regs := { v.regs with res0 := BitVec.ofNat 32 bs.length }, mem := storeBytes bs v.regs.dstAddr v.mem } := by
  have hall := emitBytes_all (p := p) hres (by simpa using hcap) (by simpa using hok)
  rw [BitVec.ofNat_eq_ofNat, BitVec.zero_add, BitVec.add_zero] at hall
  rw [bigEncodeTag, hbs]
  dsimp only
  rw [BitVec.ofNat_eq_ofNat, hall]

theorem bigEncodeTag_bad (hbs : tagBytes v.regs.arg = none) : bigEncodeTag p v = v.ended (some .invalid) := by
  rw [bigEncodeTag, hbs]

/-- DECODE_TAG at offset 0 succeeds with a tag and a size exactly when they are those of the field there. -/
theorem bigDecodeTag_ok_iff (harg : v.regs.arg = 0) (t l : Word) :
    ((bigDecodeTag p v).regs.err = 0 ∧ (bigDecodeTag p v).regs.res0 = t ∧ (bigDecodeTag p v).regs.res1 = l) ↔
      tagField p v 0 = .ok (t, l) := by
  rw [bigDecodeTag, harg]
  cases tagField p v 0 with
  | error e => cases e <;> simp [Visible.ended, Regs.ended, errCode, Err.code]
  | ok r => simp [Visible.ended, Regs.ended, errCode, Prod.ext_iff]

/-- A source buffer that is the bytes stored. -/
theorem sourceEnds_storeBytes {bs : List Byte} {m : Memory} (hm : m.wf = true) (hlen : bs.length < 2 ^ 32)
    (hmem : v.mem = storeBytes bs v.regs.srcAddr m) (hsrc : v.regs.srcLen = BitVec.ofNat 32 bs.length)
    (hok : ∀ i, i < bs.length → memOk p (v.regs.srcAddr + BitVec.ofNat 32 i) .read = true) : SourceEnds p v 0 bs where
  length_eq := by
    rw [hsrc, BitVec.toNat_ofNat, Nat.mod_eq_of_lt hlen]
    exact Nat.zero_add _
  byte i hi := by
    rw [BitVec.ofNat_eq_ofNat, BitVec.zero_add, srcByte, hok i hi, if_pos rfl, hmem, read_storeBytes hm hlen.le hi]

end commands

/-- The machine that is to decode the bytes it has just written: they are its source buffer (40_tag_codec.md R129). -/
def readBack (u : State) : State :=
  { u with regs := { u.regs with srcAddr := u.regs.dstAddr, srcLen := u.regs.res0, arg := 0 } }

/-- Settles O52: the second command reads the bytes that the first has written, and takes them all exactly when they are one whole
tag field. -/
theorem tagRoundTripsExactlyWhenWellFormed : Obligations.TagRoundTripsExactlyWhenWellFormed := by
  intro s hm hcap hok
  obtain ⟨u, hu, -, huv⟩ := encodeTagRunIsItsBigStep s
  obtain ⟨t, ht, -, htv⟩ := decodeTagRunIsItsBigStep (readBack u)
  refine ⟨u, t, hu, ht, ?_⟩
  have hplat : u.plat = s.plat := congrArg Effects.Setting.plat (FieldDecoding.run_setting 6 rfl u hu)
  cases hbs : tagBytes s.regs.arg with
  | none =>
    have hregs : u.regs = _ := congrArg Visible.regs (huv.trans (bigEncodeTag_bad (by exact hbs)))
    refine iff_of_false (fun ⟨herr, _⟩ => ?_) fun hwf => ?_
    · rw [hregs] at herr
      cases herr
    · rw [tagBytes_of_tagWf hwf] at hbs
      cases hbs
  | some bs =>
    obtain ⟨-, hlen⟩ := tagBytes_length hbs
    have hall := huv.trans (bigEncodeTag_all (by exact hbs) rfl (hlen.trans hcap)
      fun i hi => hok i (hi.trans_le hlen) .write)
    have hregs : u.regs = _ := congrArg Visible.regs hall
    have hmem : u.mem = storeBytes bs s.regs.dstAddr s.mem := congrArg Visible.mem hall
    have hdst : u.regs.dstAddr = s.regs.dstAddr := (congrArg Regs.dstAddr hregs :)
    have hsize : u.regs.res0 = BitVec.ofNat 32 bs.length := (congrArg Regs.res0 hregs :)
    have herr : u.regs.err = 0 := (congrArg Regs.err hregs :)
    have haccess (i : Nat) (hi : i < bs.length) : memOk u.plat (u.regs.dstAddr + BitVec.ofNat 32 i) .read = true := by
      rw [hplat, hdst]
      exact hok i (hi.trans_le hlen) .read
    have hsource : SourceEnds u.plat ((readBack u).withCommand (encode .decodeTag)).visible 0 bs :=
      sourceEnds_storeBytes hm (by omega) (hdst ▸ hmem :) hsize haccess
    have hread := tagField_ok_iff hlen hsource
    rw [tagBytes_eq_bigEndian hbs, foldl_shiftIn_sigbytes] at hread
    have htr : t.regs = _ := congrArg Visible.regs htv
    rw [htr, and_iff_right herr]
    exact (bigDecodeTag_ok_iff rfl _ _).trans (hread.trans (tagWf_iff_fieldWf _).symm)

end Sys2Proof.TagRoundTrip
end

section
/-! PROOF. The length half of the FSM, one step at a time (41_length_codec.md R150 to R155), with no race open. LEN_FIRST and
LEN_BYTES are read once by the source byte there, ENC_LEN by the length's field; the commands that share a state follow. -/
namespace Sys2Proof.LengthSteps
open Sys2Proof Sys2Proof.Machine Sys2Proof.Laws Sys2Proof.TagBytes Sys2Proof.TagSteps

/-! ## The first byte of a length field (41_length_codec.md R150) -/

/-- R150's tests on the first byte of a length field, in their order, and what each of them leads to. -/
def leadTests {α : Type} (b : Byte) (short invalid overflow long : α) : α :=
  if bit7 b = false then short
  else if b = 0xFF#8 then invalid
  else if 4#7 < low7 b then overflow
  else if low7 b = 0#7 then invalid
  else long

section lead
variable {α : Type} {b : Byte} {short invalid overflow long : α}

/-- The first bytes of R150's table are all there are. -/
theorem lead_cases (b : Byte) : b.toNat < 128 ∨ (b = 0xFF#8 ∨ b = 0x80#8) ∨ (0x85 ≤ b.toNat ∧ b.toNat ≤ 0xFE)
    ∨ (0x81 ≤ b.toNat ∧ b.toNat ≤ 0x84) := by
  bv_omega

theorem leadTests_short (h : b.toNat < 128) : leadTests b short invalid overflow long = short :=
  if_pos ((FieldDecoding.not_bit7_iff b).2 h)

/-- From 0x80 on, the low seven bits count the bytes that follow (30_encoding.md R98). -/
theorem leadTests_marker (h : 128 ≤ b.toNat) : leadTests b short invalid overflow long =
    if b = 0xFF#8 then invalid else if 4 < b.toNat - 128 then overflow else if b.toNat - 128 = 0 then invalid else long := by
  have hlow : (low7 b).toNat = b.toNat - 128 := by
    rw [FieldDecoding.low7_toNat]
    omega
  have hzero : low7 b = 0#7 ↔ b.toNat - 128 = 0 := by rw [← hlow, ← BitVec.toNat_inj]; rfl
  have hover : 4#7 < low7 b ↔ 4 < b.toNat - 128 := by rw [← hlow, BitVec.lt_def]; rfl
  have hbit := (FieldDecoding.bit7_iff b).2 h
  simp only [leadTests, hbit, hzero, hover, Bool.true_eq_false, if_false]

theorem leadTests_invalid (h : b = 0xFF#8 ∨ b = 0x80#8) : leadTests b short invalid overflow long = invalid := by
  rcases h with rfl | rfl <;> rfl

theorem leadTests_overflow (hlo : 0x85 ≤ b.toNat) (hhi : b.toNat ≤ 0xFE) :
    leadTests b short invalid overflow long = overflow := by
  rw [leadTests_marker (by omega), if_neg (by bv_omega), if_pos (by omega)]

theorem leadTests_long (hlo : 0x81 ≤ b.toNat) (hhi : b.toNat ≤ 0x84) :
    leadTests b short invalid overflow long = long := by
  rw [leadTests_marker (by omega), if_neg (by bv_omega), if_neg (by omega), if_neg (by omega)]

/-- The marker's count fits the three bits of `nrem`. -/
theorem low7_nrem (hlo : 0x81 ≤ b.toNat) (hhi : b.toNat ≤ 0x84) :
    (low7 b).setWidth 3 = BitVec.ofNat 3 (b.toNat - 0x80) := by
  apply BitVec.eq_of_toNat_eq
  rw [BitVec.toNat_setWidth, FieldDecoding.low7_toNat, BitVec.toNat_ofNat]
  omega

end lead

/-! ## Reading a length field (41_length_codec.md R150, R151) -/

section reading
variable {s : State} {complete : State → State} {b : Byte}

theorem lenFirst_end (hend : s.regs.srcLen ≤ s.eng.off) : lenFirst complete s = raiseErr .noData s := if_pos hend

theorem lenFirst_refused (hquiet : s.env.raced = false) (hlt : s.eng.off < s.regs.srcLen)
    (hbyte : srcByte s.plat s.visible s.eng.off = none) : lenFirst complete s = raiseErr .busError s := by
  rw [lenFirst, if_neg (BitVec.not_le.2 hlt), readSrc_quiet hquiet, hbyte]
  rfl

theorem lenFirst_byte (hquiet : s.env.raced = false) (hlt : s.eng.off < s.regs.srcLen)
    (hbyte : srcByte s.plat s.visible s.eng.off = some b) :
    lenFirst complete s = leadTests b
      (short := complete { s with eng := { s.eng with acc := zext32 b, off := s.eng.off + 1 } })
      (invalid := raiseErr .invalid s) (overflow := raiseErr .overflow s)
      (long := { s with eng := { s.eng with
        nrem := (low7 b).setWidth 3, acc := 0, first := true, off := s.eng.off + 1, st := .lenBytes } }) := by
  rw [lenFirst, if_neg (BitVec.not_le.2 hlt), readSrc_quiet hquiet, hbyte]
  rfl

theorem lenBytes_end (hend : s.regs.srcLen ≤ s.eng.off) : lenBytes complete s = raiseErr .msgSize s := if_pos hend

theorem lenBytes_refused (hquiet : s.env.raced = false) (hlt : s.eng.off < s.regs.srcLen)
    (hbyte : srcByte s.plat s.visible s.eng.off = none) : lenBytes complete s = raiseErr .busError s := by
  rw [lenBytes, if_neg (BitVec.not_le.2 hlt), readSrc_quiet hquiet, hbyte]
  rfl

/-- A length byte in the accumulator, one fewer to come (41_length_codec.md R151). -/
def takeLength (b : Byte) (s : State) : State :=
  { s with eng := { s.eng with
      acc := shiftIn s.eng.acc b, off := s.eng.off + 1, first := false, nrem := s.eng.nrem - 1 } }

theorem lenBytes_byte (hquiet : s.env.raced = false) (hlt : s.eng.off < s.regs.srcLen)
    (hbyte : srcByte s.plat s.visible s.eng.off = some b) :
    lenBytes complete s =
      if s.eng.first = true ∧ s.eng.nrem = 4#3 ∧ bit7 b = true then raiseErr .overflow s
      else if s.eng.nrem = 1#3 then complete (takeLength b s)
      else takeLength b s := by
  have hlast : s.eng.nrem - 1 = 0#3 ↔ s.eng.nrem = 1#3 := by bv_omega
  rw [lenBytes, if_neg (BitVec.not_le.2 hlt), readSrc_quiet hquiet, hbyte]
  simp only [← hlast]
  rfl

end reading

/-- What the commands that read length fields do after one (41_length_codec.md R153). -/
def lengthComplete : Instr → State → State
  | .decodeLength => decodeLengthComplete
  | _ => tokenLenComplete

section readers
variable {i : Instr} {s : State}

theorem exec_lenFirst (hi : i ∈ [Instr.decodeLength, .parse, .find]) (hst : s.eng.st = .lenFirst) :
    exec i s = .next (lenFirst (lengthComplete i) s) := by
  cases i with
  | decodeLength => rw [exec, execDecodeLength, hst]; rfl
  | parse => rw [exec, execParse, hst]; rfl
  | find => rw [exec, execFind, hst]; rfl
  | _ => simp at hi

theorem exec_lenBytes (hi : i ∈ [Instr.decodeLength, .parse, .find]) (hst : s.eng.st = .lenBytes) :
    exec i s = .next (lenBytes (lengthComplete i) s) := by
  cases i with
  | decodeLength => rw [exec, execDecodeLength, hst]; rfl
  | parse => rw [exec, execParse, hst]; rfl
  | find => rw [exec, execFind, hst]; rfl
  | _ => simp at hi

/-- PARSE and FIND complete a length alike: the value starts at the offset reached. -/
theorem lengthComplete_token (hi : i ∈ [Instr.parse, .find]) : lengthComplete i = tokenLenComplete := by
  cases i with
  | parse | find => rfl
  | _ => simp at hi

theorem lengthReader_of_token (hi : i ∈ [Instr.parse, .find]) : i ∈ [Instr.decodeLength, .parse, .find] :=
  List.mem_cons_of_mem _ hi

end readers

/-- Settles O18: the bounds, the refused read, and each kind of first byte; the complete length is each command's own. -/
theorem lenFirstStep : Obligations.LenFirstStep := by
  intro s hst hquiet
  refine ⟨fun hend i hi => ?_, fun hlt hno i hi => ?_, fun hlt hok hshort => ?_, fun hlt hok hbad i hi => ?_,
    fun hlt hok hlo hhi i hi => ?_, fun hlt hok hlo hhi i hi => ?_⟩
  · rw [exec_lenFirst hi hst, lenFirst_end hend]
  · rw [exec_lenFirst hi hst, lenFirst_refused hquiet hlt (srcByte_none hno)]
  all_goals have hbyte := srcByte_some hok
  · have hdone (i : Instr) (hi : i ∈ [Instr.decodeLength, .parse, .find]) := (exec_lenFirst hi hst).trans
      (congrArg _ ((lenFirst_byte hquiet hlt hbyte).trans (leadTests_short hshort)))
    refine ⟨hdone .decodeLength (by decide), fun i hi => ?_⟩
    rw [hdone i (lengthReader_of_token hi), lengthComplete_token hi]
    rfl
  · rw [exec_lenFirst hi hst, lenFirst_byte hquiet hlt hbyte, leadTests_invalid hbad]
  · rw [exec_lenFirst hi hst, lenFirst_byte hquiet hlt hbyte, leadTests_overflow hlo hhi]
  · rw [exec_lenFirst hi hst, lenFirst_byte hquiet hlt hbyte, leadTests_long hlo hhi, low7_nrem hlo hhi]

/-- Settles O19: each clause is one branch of LEN_BYTES, in the order of its tests. -/
theorem lenBytesStep : Obligations.LenBytesStep := by
  intro s hst hquiet
  refine ⟨fun hend i hi => ?_, fun hlt hno i hi => ?_, fun hlt hok hfirst hfour hbig i hi => ?_,
    fun hlt hok hfits hmore i hi => ?_, fun hlt hok hlast => ?_⟩
  · rw [exec_lenBytes hi hst, lenBytes_end hend]
  · rw [exec_lenBytes hi hst, lenBytes_refused hquiet hlt (srcByte_none hno)]
  all_goals have hbyte := srcByte_some hok
  · rw [exec_lenBytes hi hst, lenBytes_byte hquiet hlt hbyte,
      if_pos ⟨hfirst, hfour, (FieldDecoding.bit7_iff _).2 hbig⟩]
  · rw [exec_lenBytes hi hst, lenBytes_byte hquiet hlt hbyte, if_neg, if_neg hmore]
    · rfl
    · rwa [not_and_or, not_and_or, Bool.not_eq_true, Bool.not_eq_true, FieldDecoding.not_bit7_iff]
  · have hdone (i : Instr) (hi : i ∈ [Instr.decodeLength, .parse, .find]) : exec i s =
        .next (lengthComplete i (takeLength (s.mem.read (s.regs.srcAddr + s.eng.off).toNat) s)) := by
      rw [exec_lenBytes hi hst, lenBytes_byte hquiet hlt hbyte, if_neg, if_pos hlast]
      exact fun ⟨_, hfour, _⟩ => absurd (hlast.symm.trans hfour) (by decide)
    refine ⟨hdone .decodeLength (by decide), fun i hi => ?_⟩
    rw [hdone i (lengthReader_of_token hi), lengthComplete_token hi]
    rfl

/-! ## Loading a length's field (41_length_codec.md R155) -/

section loading
variable {s : State} {l : Word}

theorem lengthBytes_short (h : l.toNat ≤ 127) : lengthBytes l = [byteOf l 0] := if_pos h

theorem lengthBytes_long (h : 128 ≤ l.toNat) :
    lengthBytes l = (0x80#8 ||| BitVec.ofNat 8 (sigbytes l)) :: bigEndian (sigbytes l) l :=
  if_neg (Nat.not_le.2 (Nat.lt_of_succ_le h))

/-- The marker of a long field counts its length bytes (30_encoding.md R98). -/
theorem marker_toNat (l : Word) : (0x80#8 ||| BitVec.ofNat 8 (sigbytes l)).toNat = 0x80 + sigbytes l := by
  rcases sigbytes_cases l with ⟨-, hs⟩ | ⟨-, -, hs⟩ | ⟨-, -, hs⟩ | ⟨-, hs⟩ <;> rw [hs] <;> rfl

theorem encLen_zero (h : s.eng.clen = 0) : encLen s = raiseErr .badArgument s := if_pos h

/-- A word has at most four significant bytes, so that the source's `n > 126` test does not fire. -/
theorem encLen_load (h : s.eng.clen ≠ 0) : encLen s = loadField .len (lengthBytes s.eng.clen) s := by
  have hfits : ¬ (127#32 < s.eng.clen ∧ 126 < sigbytes s.eng.clen) := fun ⟨_, hbig⟩ =>
    absurd ((sigbytes_range s.eng.clen).2) (by omega)
  exact (if_neg h).trans (if_neg hfits)

theorem exec_encLen {i : Instr} (hi : i ∈ [Instr.encodeLength, .serialize]) (hst : s.eng.st = .encLen) :
    exec i s = .next (encLen s) := by
  cases i with
  | encodeLength => rw [exec, execEncodeLength, hst]
  | serialize => rw [exec, execSerialize, hst]
  | _ => simp at hi

end loading

/-- Settles O21: the zero check, the short field and the long one. -/
theorem encLenStep : Obligations.EncLenStep := by
  intro s hst
  refine ⟨fun hzero i hi => ?_, fun hpos hshort i hi => ?_, fun hlong i hi => ?_⟩
  · rw [exec_encLen hi hst, encLen_zero hzero]
  · have hne : s.eng.clen ≠ 0 := by bv_omega
    rw [exec_encLen hi hst, encLen_load hne, lengthBytes_short hshort, loadField, loadEbuf_singleton, byteOf_zero]
    rfl
  · have hne : s.eng.clen ≠ 0 := by bv_omega
    have hload := encLen_load hne
    have hfour := (sigbytes_range s.eng.clen).2
    rw [lengthBytes_long hlong, loadField, List.length_cons, bigEndian_length] at hload
    refine ⟨_, (exec_encLen hi hst).trans (congrArg _ hload), ?_, fun m hm => ?_, fun m hm => ?_⟩
    · rw [loadEbuf_get (Nat.succ_pos _) (by decide), List.getElem_cons_zero, Option.map_some, marker_toNat]
    · rw [loadEbuf_get (by simpa using hm) (by omega), ← List.getElem?_eq_getElem, List.getElem?_cons_succ,
        bigEndian_getElem? _ hm, Option.map_some, MemoryAccess.byteOf_toNat]
    · exact loadEbuf_getElem?_of_le (by simpa using hm)

end Sys2Proof.LengthSteps
end

section
/-! PROOF. DECODE_LENGTH and ENCODE_LENGTH, run to their end, are their big steps (41_length_codec.md R154, R156). A length field is
followed through the machine for every command that reads one, as a tag field is. -/
namespace Sys2Proof.LengthRuns
open Sys2Proof Sys2Proof.Machine Sys2Proof.Laws Sys2Proof.TagSteps Sys2Proof.TagRuns Sys2Proof.LengthSteps

/-! ## The big step's loop, test by test (41_length_codec.md R154) -/

section bigStep
variable {p : Platform} {v : Visible} {o : Word} {b : Byte}

theorem lenTail_end (h : v.regs.srcLen ≤ o) (n : Nat) (msb : Bool) (l : Word) :
    lenTail p v (n + 1) msb l o = .error .msgSize := if_pos h

theorem lenTail_refused (hlt : o < v.regs.srcLen) (h : srcByte p v o = none) (n : Nat) (msb : Bool) (l : Word) :
    lenTail p v (n + 1) msb l o = .error .busError := by
  rw [lenTail, if_neg (BitVec.not_le.2 hlt), h]

theorem lenTail_byte (hlt : o < v.regs.srcLen) (h : srcByte p v o = some b) (n : Nat) (msb : Bool) (l : Word) :
    lenTail p v (n + 1) msb l o =
      if msb = true ∧ bit7 b = true then .error .overflow else lenTail p v n false (shiftIn l b) (o + 1) := by
  rw [lenTail, if_neg (BitVec.not_le.2 hlt), h]

theorem lenField_end (h : v.regs.srcLen ≤ o) : lenField p v o = .error .noData := if_pos h

theorem lenField_refused (hlt : o < v.regs.srcLen) (h : srcByte p v o = none) : lenField p v o = .error .busError := by
  rw [lenField, if_neg (BitVec.not_le.2 hlt), h]

theorem lenField_byte (hlt : o < v.regs.srcLen) (h : srcByte p v o = some b) :
    lenField p v o = leadTests b (short := .ok (zext32 b, o + 1)) (invalid := .error .invalid)
      (overflow := .error .overflow)
      (long := lenTail p v (low7 b).toNat (decide (low7 b = 4#7)) 0 (o + 1)) := by
  rw [lenField, if_neg (BitVec.not_le.2 hlt), h]
  rfl

end bigStep

/-! ## Reading a length field (41_length_codec.md R154) -/

/-- What a command that reads a length field has come to, when the field answers the given length and offset, or error. -/
def LengthRead (complete : State → State) (s u : State) : Except Err (Word × Word) → Prop
  | .error e => ∃ g, u = raiseErr e { s with eng := g }
  | .ok (l, o) => ∃ first nrem st,
      u = complete { s with eng := { s.eng with acc := l, off := o, first := first, nrem := nrem, st := st } }

section reading
variable {i : Instr} {s : State}

theorem leadsTo_raise {complete : State → State} {e : Err} (hstep : step s = .next (raiseErr e s)) :
    ∃ u, LeadsTo s u ∧ LengthRead complete s u (.error e) := ⟨_, .head hstep (.refl _), s.eng, rfl⟩

/-- The loop over the `nrem` bytes still to read; `msb` says that the next one is the first of four. -/
theorem lenBytes_leadsTo (hi : i ∈ [Instr.decodeLength, .parse, .find]) (n : Nat) {msb : Bool} (h : Alone i s)
    (hst : s.eng.st = .lenBytes) (hn : s.eng.nrem.toNat = n) (hpos : 1 ≤ n)
    (hmsb : msb = true ↔ s.eng.first = true ∧ s.eng.nrem = 4#3) :
    ∃ u, LeadsTo s u ∧ LengthRead (lengthComplete i) s u (lenTail s.plat s.visible n msb s.eng.acc s.eng.off) := by
  induction n generalizing s msb with
  | zero => exact absurd hpos (by decide)
  | succ n ih =>
    have hstep : step s = .next (lenBytes (lengthComplete i) s) := (h.step hst (by decide)).trans (exec_lenBytes hi hst)
    have hquiet := h.quiet.1
    by_cases hend : s.regs.srcLen ≤ s.eng.off
    · rw [lenBytes_end hend] at hstep
      rw [lenTail_end (v := s.visible) hend]
      exact leadsTo_raise hstep
    have hlt := BitVec.not_le.1 hend
    cases hbyte : srcByte s.plat s.visible s.eng.off with
    | none =>
      rw [lenBytes_refused hquiet hlt hbyte] at hstep
      rw [lenTail_refused hlt hbyte]
      exact leadsTo_raise hstep
    | some b =>
      rw [lenBytes_byte hquiet hlt hbyte] at hstep
      simp only [← and_assoc, ← hmsb] at hstep
      rw [lenTail_byte hlt hbyte]
      by_cases hbig : msb = true ∧ bit7 b = true
      · rw [if_pos hbig] at hstep ⊢
        exact leadsTo_raise hstep
      rw [if_neg hbig] at hstep ⊢
      by_cases hlast : s.eng.nrem = 1#3
      · obtain rfl : n = 0 := by
          rw [hlast] at hn
          exact (Nat.succ.inj hn).symm
        rw [if_pos hlast] at hstep
        exact ⟨_, .head hstep (.refl _), _, _, _, rfl⟩
      · rw [if_neg hlast] at hstep
        have hrest : (takeLength b s).eng.nrem.toNat = n ∧ 1 ≤ n := by
          rw [takeLength]
          bv_omega
        obtain ⟨u, hu, hread⟩ := ih (s := takeLength b s) (msb := false) (h.withEngine _) hst hrest.1 hrest.2
          (by simp [takeLength])
        exact ⟨u, .head hstep hu, hread⟩

/-- A whole length field, from its first byte. -/
theorem lenFirst_leadsTo (hi : i ∈ [Instr.decodeLength, .parse, .find]) (h : Alone i s) (hst : s.eng.st = .lenFirst) :
    ∃ u, LeadsTo s u ∧ LengthRead (lengthComplete i) s u (lenField s.plat s.visible s.eng.off) := by
  have hstep : step s = .next (lenFirst (lengthComplete i) s) := (h.step hst (by decide)).trans (exec_lenFirst hi hst)
  have hquiet := h.quiet.1
  by_cases hend : s.regs.srcLen ≤ s.eng.off
  · rw [lenFirst_end hend] at hstep
    rw [lenField_end (v := s.visible) hend]
    exact leadsTo_raise hstep
  have hlt := BitVec.not_le.1 hend
  cases hbyte : srcByte s.plat s.visible s.eng.off with
  | none =>
    rw [lenFirst_refused hquiet hlt hbyte] at hstep
    rw [lenField_refused hlt hbyte]
    exact leadsTo_raise hstep
  | some b =>
    rw [lenFirst_byte hquiet hlt hbyte] at hstep
    rw [lenField_byte hlt hbyte]
    rcases lead_cases b with hshort | hbad | ⟨hlo, hhi⟩ | ⟨hlo, hhi⟩
    · rw [leadTests_short hshort] at hstep ⊢
      exact ⟨_, .head hstep (.refl _), _, _, _, rfl⟩
    · rw [leadTests_invalid hbad] at hstep ⊢
      exact leadsTo_raise hstep
    · rw [leadTests_overflow hlo hhi] at hstep ⊢
      exact leadsTo_raise hstep
    · rw [leadTests_long hlo hhi] at hstep ⊢
      have hlow := FieldDecoding.low7_toNat b
      have hcount : ((low7 b).setWidth 3).toNat = (low7 b).toNat := by bv_omega
      have hfour : low7 b = 4#7 ↔ (low7 b).setWidth 3 = 4#3 := by bv_omega
      obtain ⟨u, hu, hread⟩ := lenBytes_leadsTo hi (low7 b).toNat (msb := decide (low7 b = 4#7))
        (h.withEngine { s.eng with
          nrem := (low7 b).setWidth 3, acc := 0, first := true, off := s.eng.off + 1, st := .lenBytes })
        rfl hcount (by omega) (by simpa using hfour)
      exact ⟨u, .head hstep hu, hread⟩

/-- A length field read by DECODE_LENGTH ends the command as its big step does. -/
theorem LengthRead.decodeLength {u : State}
    (h : LengthRead decodeLengthComplete s u (lenField s.plat s.visible s.regs.arg))
    (hquiet : s.env.raced = false) : u.eng.st = .idle ∧ u.visible = bigDecodeLength s.plat s.visible := by
  have harg : s.visible.regs.arg = s.regs.arg := rfl
  rw [bigDecodeLength, harg]
  cases hfield : lenField s.plat s.visible s.regs.arg with
  | error e =>
    rw [hfield] at h
    obtain ⟨g, rfl⟩ := h
    exact ⟨by simp [raiseErr], visible_endCommand (by exact hquiet) _⟩
  | ok r =>
    rw [hfield] at h
    obtain ⟨first, nrem, st, rfl⟩ := h
    exact ⟨by simp [decodeLengthComplete, finish], visible_endCommand (by exact hquiet) _⟩

end reading

/-- Settles O43: DISPATCH sets the offset, and the length field there is read to its end. -/
theorem decodeLengthRunIsItsBigStep : Obligations.DecodeLengthRunIsItsBigStep := by
  intro s s₀
  have h : Alone .decodeLength s₀ := withCommand_alone .decodeLength s
  have hdispatch := (h.step (st := .dispatch) rfl (by decide)).trans (FieldDecoding.decodeLength_rows.exec_dispatch s₀ rfl)
  obtain ⟨u, hu, hread⟩ := lenFirst_leadsTo (by decide)
    (h.withEngine { s₀.eng with off := s₀.regs.arg, st := .lenFirst }) rfl
  obtain ⟨hidle, hv⟩ := hread.decodeLength h.quiet.1
  exact endsWith_of_leadsTo (.head hdispatch hu) hidle hv

/-! ## Writing a length field (41_length_codec.md R156) -/

section bigEncode
variable {p : Platform} {v : Visible}

theorem bigEncodeLength_zero (h : v.regs.arg = 0) : bigEncodeLength p v = v.ended (some .badArgument) := if_pos h

theorem bigEncodeLength_emit (h : v.regs.arg ≠ 0) : bigEncodeLength p v =
    (emitBytes p (lengthBytes v.regs.arg) 0 v).2.2.ended (emitBytes p (lengthBytes v.regs.arg) 0 v).1 := if_neg h

end bigEncode

/-- Settles O44: DISPATCH takes the length, ENC_LEN loads its field or refuses a length of 0, and EMIT writes the field's bytes. -/
theorem encodeLengthRunIsItsBigStep : Obligations.EncodeLengthRunIsItsBigStep := by
  intro s s₀
  have h : Alone .encodeLength s₀ := withCommand_alone .encodeLength s
  obtain ⟨-, -, -, htake, -⟩ := CommandWord.dispatchStep s₀ rfl
  have hdispatch := (h.step (st := .dispatch) rfl (by decide)).trans htake
  have h₁ := h.withEngine { s₀.eng with clen := s₀.regs.arg, st := .encLen }
  have hload := (h₁.step (st := .encLen) rfl (by decide)).trans (exec_encLen (by decide) rfl)
  by_cases hzero : s₀.regs.arg = 0
  · rw [encLen_zero (by exact hzero)] at hload
    rw [bigEncodeLength_zero (v := s₀.visible) hzero]
    exact endsWith_of_leadsTo (.head hdispatch (.head hload (.refl _))) (by simp [raiseErr])
      (visible_endCommand (by exact h.quiet.1) _)
  · rw [encLen_load (by exact hzero)] at hload
    rw [bigEncodeLength_emit (v := s₀.visible) hzero]
    obtain ⟨hpos, hfive⟩ := lengthBytes_length s₀.regs.arg
    obtain ⟨u, hu, hwritten⟩ := emit_leadsTo (by decide) (lengthBytes s₀.regs.arg) (h₁.withEngine _) rfl
      (pending_loadField hpos hfive .len _)
    obtain ⟨hidle, hv⟩ := FieldWritten.finished hwritten h.quiet.1
    exact endsWith_of_leadsTo (.head hdispatch (.head hload hu)) hidle hv

end Sys2Proof.LengthRuns
end

section
/-! PROOF. ENCODE_LENGTH and then DECODE_LENGTH (41_length_codec.md R157). Both commands are taken as their big steps: the first leaves
the field's bytes in memory, and what the second reads there is told by the length alone. -/
namespace Sys2Proof.LengthRoundTrip
open Sys2Proof Sys2Proof.Machine Sys2Proof.Laws Sys2Proof.TagBytes Sys2Proof.LengthSteps Sys2Proof.LengthRuns
  Sys2Proof.TagRoundTrip

/-! ## Reading the bytes of a length field (41_length_codec.md R154, R157) -/

section reading
variable {p : Platform} {v : Visible} {o l : Word} {b : Byte} {bs : List Byte}

/-- Past the first of four bytes, the loop takes whatever is there. -/
theorem lenTail_rest (acc : Word) (h : SourceEnds p v o bs) :
    lenTail p v bs.length false acc o = .ok (bs.foldl shiftIn acc, v.regs.srcLen) := by
  induction bs generalizing acc o with
  | nil => rw [List.length_nil, lenTail, h.nil, List.foldl_nil]
  | cons b bs ih =>
    obtain ⟨hlt, hbyte⟩ := h.head
    rw [List.length_cons, lenTail_byte hlt hbyte, if_neg (by simp), ih _ h.tail, List.foldl_cons]

theorem lenTail_all (msb : Bool) (acc : Word) (h : SourceEnds p v o (b :: bs)) :
    lenTail p v (bs.length + 1) msb acc o =
      if msb = true ∧ bit7 b = true then .error .overflow else .ok ((b :: bs).foldl shiftIn acc, v.regs.srcLen) := by
  obtain ⟨hlt, hbyte⟩ := h.head
  rw [lenTail_byte hlt hbyte, lenTail_rest _ h.tail, List.foldl_cons]

/-- A length is above the largest one exactly when it has four bytes and the first has bit 7 (41_length_codec.md R151, R157). -/
theorem topBit_iff (l : Word) :
    sigbytes l = 4 ∧ bit7 (byteOf l (sigbytes l - 1)) = true ↔ ¬ l.toNat ≤ 0x7FFFFFFF := by
  rw [FieldDecoding.bit7_iff, MemoryAccess.byteOf_toNat]
  rcases sigbytes_cases l with ⟨hle, hs⟩ | ⟨-, hle, hs⟩ | ⟨-, hle, hs⟩ | ⟨-, hs⟩ <;> rw [hs] <;> omega

/-- The loop over a length's significant bytes gives the length, unless the first of four overflows. -/
theorem lenTail_sigbytes (h : SourceEnds p v o (bigEndian (sigbytes l) l)) :
    lenTail p v (sigbytes l) (decide (sigbytes l = 4)) 0 o =
      if l.toNat ≤ 0x7FFFFFFF then .ok (l, v.regs.srcLen) else .error .overflow := by
  have hval := foldl_shiftIn_sigbytes l
  have htop := topBit_iff l
  obtain ⟨n, hn⟩ : ∃ n, sigbytes l = n + 1 := Nat.exists_eq_add_one.2 (sigbytes_range l).1
  rw [hn] at h hval htop ⊢
  have hall := lenTail_all (decide (n + 1 = 4)) 0 h
  rw [bigEndian_length] at hall
  rw [hall]
  simp only [decide_eq_true_eq, Nat.add_sub_cancel] at htop ⊢
  rw [← bigEndian, hval]
  simp only [htop, ite_not]

/-- A source buffer that is a length's field is read as that length, or overflows above 0x7FFFFFFF. -/
theorem lenField_lengthBytes (h : SourceEnds p v o (lengthBytes l)) :
    lenField p v o = if l.toNat ≤ 0x7FFFFFFF then .ok (l, v.regs.srcLen) else .error .overflow := by
  rcases Nat.lt_or_ge l.toNat 128 with hshort | hlong
  · rw [lengthBytes_short (by omega)] at h
    obtain ⟨hlt, hbyte⟩ := h.head
    have hval : (byteOf l 0).toNat = l.toNat := by
      rw [MemoryAccess.byteOf_toNat]
      omega
    have hword : zext32 (byteOf l 0) = l := BitVec.eq_of_toNat_eq (by rw [FieldDecoding.zext32_toNat, hval])
    rw [lenField_byte hlt hbyte, leadTests_short (by omega), if_pos (by omega), hword, h.tail.nil]
  · rw [lengthBytes_long hlong] at h
    obtain ⟨hlt, hbyte⟩ := h.head
    have hmark := marker_toNat l
    obtain ⟨hone, hfour⟩ := sigbytes_range l
    have hcount : (low7 (0x80#8 ||| BitVec.ofNat 8 (sigbytes l))).toNat = sigbytes l := by
      rw [FieldDecoding.low7_toNat, hmark]
      omega
    have hmsb : low7 (0x80#8 ||| BitVec.ofNat 8 (sigbytes l)) = 4#7 ↔ sigbytes l = 4 := by
      rw [← BitVec.toNat_inj, hcount]
      rfl
    rw [lenField_byte hlt hbyte, leadTests_long (by omega) (by omega), hcount, ← lenTail_sigbytes h.tail]
    simp only [hmsb]

theorem lenField_ok_iff (h : SourceEnds p v o (lengthBytes l)) :
    lenField p v o = .ok (l, v.regs.srcLen) ↔ l.toNat ≤ 0x7FFFFFFF := by
  simp [lenField_lengthBytes h]

end reading

/-! ## The two commands, one after the other -/

section commands
variable {p : Platform} {v : Visible}

/-- With room and access for its bytes, ENCODE_LENGTH writes a field whole. -/
theorem bigEncodeLength_all (hne : v.regs.arg ≠ 0) (hres : v.regs.res0 = 0) (hcap : 5 ≤ v.regs.dstCap.toNat)
    (hok : allowsRegion p v.regs.dstAddr 5) :
    bigEncodeLength p v = Visible.ended none
      { regs := { v.regs with res0 := BitVec.ofNat 32 (lengthBytes v.regs.arg).length }
        mem := storeBytes (lengthBytes v.regs.arg) v.regs.dstAddr v.mem } := by
  have hfive := (lengthBytes_length v.regs.arg).2
  have hall := emitBytes_all (p := p) hres (by simpa using hfive.trans hcap)
    (by simpa using fun i hi => hok i (hi.trans_le hfive) .write)
  rw [BitVec.ofNat_eq_ofNat, BitVec.zero_add, BitVec.add_zero] at hall
  rw [bigEncodeLength_emit hne, BitVec.ofNat_eq_ofNat, hall]

/-- DECODE_LENGTH at offset 0 succeeds with a length and a size exactly when they are those of the field there. -/
theorem bigDecodeLength_ok_iff (harg : v.regs.arg = 0) (l n : Word) :
    ((bigDecodeLength p v).regs.err = 0 ∧ (bigDecodeLength p v).regs.res0 = l ∧ (bigDecodeLength p v).regs.res1 = n) ↔
      lenField p v 0 = .ok (l, n) := by
  rw [bigDecodeLength, harg]
  cases lenField p v 0 with
  | error e => cases e <;> simp [Visible.ended, Regs.ended, errCode, Err.code]
  | ok r => simp [Visible.ended, Regs.ended, errCode, Prod.ext_iff]

end commands

/-- Settles O53: the second command reads the bytes that the first has written, which are those of the length. -/
theorem lengthRoundTripsExactlyInRange : Obligations.LengthRoundTripsExactlyInRange := by
  intro s hm hcap hok
  obtain ⟨u, hu, -, huv⟩ := encodeLengthRunIsItsBigStep s
  obtain ⟨t, ht, -, htv⟩ := decodeLengthRunIsItsBigStep (readBack u)
  refine ⟨u, t, hu, ht, ?_⟩
  have hplat : u.plat = s.plat := congrArg Effects.Setting.plat (FieldDecoding.run_setting 7 rfl u hu)
  by_cases hzero : s.regs.arg = 0
  · have hregs : u.regs = _ := congrArg Visible.regs (huv.trans (bigEncodeLength_zero (by exact hzero)))
    refine iff_of_false (fun ⟨herr, _⟩ => ?_) fun ⟨hpos, _⟩ => ?_
    · rw [hregs] at herr
      cases herr
    · rw [hzero] at hpos
      cases hpos
  · have hfive := (lengthBytes_length s.regs.arg).2
    have hall := huv.trans (bigEncodeLength_all (by exact hzero) rfl hcap hok)
    have hregs : u.regs = _ := congrArg Visible.regs hall
    have hmem : u.mem = storeBytes (lengthBytes s.regs.arg) s.regs.dstAddr s.mem := congrArg Visible.mem hall
    have hdst : u.regs.dstAddr = s.regs.dstAddr := (congrArg Regs.dstAddr hregs :)
    have hsize : u.regs.res0 = BitVec.ofNat 32 (lengthBytes s.regs.arg).length := (congrArg Regs.res0 hregs :)
    have herr : u.regs.err = 0 := (congrArg Regs.err hregs :)
    have haccess (i : Nat) (hi : i < (lengthBytes s.regs.arg).length) :
        memOk u.plat (u.regs.dstAddr + BitVec.ofNat 32 i) .read = true := by
      rw [hplat, hdst]
      exact hok i (hi.trans_le hfive) .read
    have hsource : SourceEnds u.plat ((readBack u).withCommand (encode .decodeLength)).visible 0 (lengthBytes s.regs.arg) :=
      sourceEnds_storeBytes hm (by omega) (hdst ▸ hmem :) hsize haccess
    have hpos : 1 ≤ s.regs.arg.toNat := by bv_omega
    have htr : t.regs = _ := congrArg Visible.regs htv
    rw [htr, and_iff_right herr, and_iff_right hpos]
    exact (bigDecodeLength_ok_iff rfl _ _).trans (lenField_ok_iff hsource)

end Sys2Proof.LengthRoundTrip
end

section
/-! PROOF. The boundary steps of PARSE, one at a time (42_parse.md R180 to R182): TOK_START and TOK_END are read by their tests,
REC_WRITE by the byte of the record it stores. -/
namespace Sys2Proof.ParseSteps
open Sys2Proof Sys2Proof.Machine Sys2Proof.Laws

section boundary
variable {s : State}

theorem exec_tokStart (hst : s.eng.st = .tokStart) : exec .parse s = .next (parseTokStart s) := by
  rw [exec, execParse, hst]

theorem exec_tokEnd (hst : s.eng.st = .tokEnd) : exec .parse s = .next (parseTokEnd s) := by
  rw [exec, execParse, hst]

theorem exec_recWrite (hst : s.eng.st = .recWrite) : exec .parse s = recWrite s := by
  rw [exec, execParse, hst]

theorem parseTokStart_end (hend : s.regs.srcLen ≤ s.eng.off) : parseTokStart s = finish s := if_pos hend

theorem parseTokStart_full (hlt : s.eng.off < s.regs.srcLen) (hfull : s.regs.tokN ≤ s.eng.cnt) :
    parseTokStart s = raiseErr .noMemory s := by
  rw [parseTokStart, if_neg (BitVec.not_le.2 hlt), if_pos hfull]

theorem parseTokStart_token (hlt : s.eng.off < s.regs.srcLen) (hroom : s.eng.cnt < s.regs.tokN) :
    parseTokStart s = { s with eng := { s.eng with tstart := s.eng.off, st := .tagFirst } } := by
  rw [parseTokStart, if_neg (BitVec.not_le.2 hlt), if_neg (BitVec.not_le.2 hroom)]

theorem parseTokEnd_over (hover : s.regs.srcLen.toNat < s.eng.vstart.toNat + s.eng.clen.toNat) :
    parseTokEnd s = raiseErr .msgSize s := if_pos (decide_eq_true hover)

/-- The record of a token, about to be written from its first byte on (42_parse.md R181). -/
def loadRecord (s : State) : State :=
  { s with eng := { s.eng with
      recBuf := recordBytes s.eng.ctag s.eng.clen (s.regs.srcAddr + s.eng.vstart), k := 0, st := .recWrite } }

theorem parseTokEnd_record (hfits : s.eng.vstart.toNat + s.eng.clen.toNat ≤ s.regs.srcLen.toNat) :
    parseTokEnd s = loadRecord s := if_neg (by simpa [valueOverruns] using hfits)

end boundary

/-- Settles O23: each clause is one branch of TOK_START or TOK_END, in the order of their tests. -/
theorem parseTokenBoundarySteps : Obligations.ParseTokenBoundarySteps := by
  refine fun s => ⟨fun hst => ⟨fun hend => ?_, fun hlt hfull => ?_, fun hlt hroom => ?_⟩,
    fun hst => ⟨fun hover => ?_, fun hfits => ?_⟩⟩
  · rw [exec_tokStart hst, parseTokStart_end hend]
  · rw [exec_tokStart hst, parseTokStart_full hlt hfull]
  · rw [exec_tokStart hst, parseTokStart_token hlt hroom]
  · rw [exec_tokEnd hst, parseTokEnd_over hover]
  · rw [exec_tokEnd hst, parseTokEnd_record hfits, loadRecord]

/-- A byte of the record stored at its place in the token list (42_parse.md R182). -/
def putRecord (b : Byte) (s : State) : State :=
  { s with
    mem := s.mem.write (tokByteAddr s.regs.tokAddr s.eng.cnt (s.eng.k.setWidth 32)).toNat b
    eng := { s.eng with k := s.eng.k + 1 } }

/-- The token counted, once its record is written (42_parse.md R182). -/
def countToken (s : State) : State :=
  { s with
    eng := { s.eng with cnt := s.eng.cnt + 1, off := s.eng.vstart + s.eng.clen, st := .tokStart }
    regs := { s.regs with res0 := s.eng.cnt + 1, res1 := s.eng.vstart + s.eng.clen } }

/-- All REC_WRITE does at a byte of the record, with no race open: the byte is stored and the twelfth counts the token, or the
write is refused. -/
theorem recWrite_byte {s : State} {b : Byte} (hquiet : s.quiet) (hb : s.eng.recBuf[s.eng.k.toNat]? = some b) :
    recWrite s =
      if memOk s.plat (tokByteAddr s.regs.tokAddr s.eng.cnt (s.eng.k.setWidth 32)) .write = true then
        .next (if s.eng.k + 1 = 12#4 then countToken (putRecord b s) else putRecord b s)
      else .next (raiseErr .busError s) := by
  obtain ⟨hraced, hcontested⟩ := hquiet
  rw [recWrite, hb]
  dsimp only
  rw [memWrite_quiet hraced hcontested]
  cases memOk s.plat (tokByteAddr s.regs.tokAddr s.eng.cnt (s.eng.k.setWidth 32)) .write <;> rfl

/-- Settles O24: the refused write, a byte that others follow, and the last byte. -/
theorem recWriteStep : Obligations.RecWriteStep := by
  intro s h hst hquiet
  have hstep := (exec_recWrite hst).trans (recWrite_byte hquiet (Vector.getElem?_eq_getElem h))
  refine ⟨fun hno => ?_, fun hok hmore => ?_, fun hok hlast => ?_⟩
  · exact hstep.trans (if_neg ((Bool.not_eq_true _).mpr hno))
  · exact hstep.trans ((if_pos hok).trans (congrArg _ (if_neg (by bv_omega))))
  · obtain hk : s.eng.k + 1 = 12#4 := by bv_omega
    refine hstep.trans ((if_pos hok).trans (congrArg _ ((if_pos hk).trans ?_)))
    rw [countToken, putRecord, hk]
    rfl

end Sys2Proof.ParseSteps
end

section
/-! PROOF. One token of a source buffer, for PARSE and FIND (42_parse.md R183, 44_find.md R242): where its fields end, and the run from
TAG_FIRST to TOK_END that reads it. -/
namespace Sys2Proof.TokenReading
open Sys2Proof Sys2Proof.Machine Sys2Proof.Laws Sys2Proof.TagSteps Sys2Proof.TagRuns Sys2Proof.LengthSteps Sys2Proof.LengthRuns

/-! ## Where a field ends (00_scope.md R9, 42_parse.md R184) -/

/-- A field read in a source buffer of `n` bytes ends at offset `lo` or later, within the buffer. The errors it can meet are others than
NoMemory, which speaks of a token list. -/
def FieldEnds (lo : Nat) (n : Word) : Except Err (Word × Word) → Prop
  | .error e => e ≠ .noMemory
  | .ok (_, o) => lo ≤ o.toNat ∧ o ≤ n

theorem FieldEnds.mono {lo lo' : Nat} {n : Word} {r : Except Err (Word × Word)} (hle : lo ≤ lo')
    (h : FieldEnds lo' n r) : FieldEnds lo n r := by
  cases r with
  | error e => exact h
  | ok r => exact ⟨hle.trans h.1, h.2⟩

theorem fieldEnds_error {lo : Nat} {n : Word} {e : Err} (h : e ≠ .noMemory := by decide) : FieldEnds lo n (.error e) := h

/-- Below a bound, an offset counts up without a wrap. -/
theorem succ_toNat_of_lt {o n : Word} (h : o < n) : (o + 1).toNat = o.toNat + 1 := by bv_omega

section ends
variable {p : Platform} {v : Visible}

theorem tagTail_ends (n : Nat) (first : Bool) (t o : Word) :
    FieldEnds (o.toNat + 1) v.regs.srcLen (tagTail p v n first t o) := by
  induction n generalizing first t o with
  | zero => exact fieldEnds_error
  | succ n ih =>
    by_cases hend : v.regs.srcLen ≤ o
    · rw [tagTail_end hend]
      exact fieldEnds_error
    have hlt := BitVec.not_le.1 hend
    have hsucc := succ_toNat_of_lt hlt
    cases hbyte : srcByte p v o with
    | none =>
      rw [tagTail_refused hlt hbyte]
      exact fieldEnds_error
    | some b =>
      rw [tagTail_byte hlt hbyte]
      split_ifs
      · exact fieldEnds_error
      · exact fieldEnds_error
      · exact (ih false (shiftIn t b) (o + 1)).mono (by omega)
      · exact ⟨hsucc.ge, Bounds.succ_le_of_lt hlt⟩

theorem tagField_ends (o : Word) : FieldEnds (o.toNat + 1) v.regs.srcLen (tagField p v o) := by
  by_cases hend : v.regs.srcLen ≤ o
  · rw [tagField_end hend]
    exact fieldEnds_error
  have hlt := BitVec.not_le.1 hend
  have hsucc := succ_toNat_of_lt hlt
  cases hbyte : srcByte p v o with
  | none =>
    rw [tagField_refused hlt hbyte]
    exact fieldEnds_error
  | some b =>
    rw [tagField_byte hlt hbyte]
    split_ifs
    · exact (tagTail_ends 4 true (zext32 b) (o + 1)).mono (by omega)
    · exact ⟨hsucc.ge, Bounds.succ_le_of_lt hlt⟩

theorem lenTail_ends (n : Nat) (msb : Bool) (l : Word) {o : Word} (ho : o ≤ v.regs.srcLen) :
    FieldEnds o.toNat v.regs.srcLen (lenTail p v n msb l o) := by
  induction n generalizing msb l o with
  | zero => exact ⟨Nat.le_refl _, ho⟩
  | succ n ih =>
    by_cases hend : v.regs.srcLen ≤ o
    · rw [lenTail_end hend]
      exact fieldEnds_error
    have hlt := BitVec.not_le.1 hend
    have hsucc := succ_toNat_of_lt hlt
    cases hbyte : srcByte p v o with
    | none =>
      rw [lenTail_refused hlt hbyte]
      exact fieldEnds_error
    | some b =>
      rw [lenTail_byte hlt hbyte]
      split_ifs
      · exact fieldEnds_error
      · exact (ih false (shiftIn l b) (Bounds.succ_le_of_lt hlt)).mono (by omega)

theorem lenField_ends (o : Word) : FieldEnds (o.toNat + 1) v.regs.srcLen (lenField p v o) := by
  by_cases hend : v.regs.srcLen ≤ o
  · rw [lenField_end hend]
    exact fieldEnds_error
  have hlt := BitVec.not_le.1 hend
  have hsucc := succ_toNat_of_lt hlt
  cases hbyte : srcByte p v o with
  | none =>
    rw [lenField_refused hlt hbyte]
    exact fieldEnds_error
  | some b =>
    rw [lenField_byte hlt hbyte]
    rcases lead_cases b with hshort | hbad | ⟨hlo, hhi⟩ | ⟨hlo, hhi⟩
    · rw [leadTests_short hshort]
      exact ⟨hsucc.ge, Bounds.succ_le_of_lt hlt⟩
    · rw [leadTests_invalid hbad]
      exact fieldEnds_error
    · rw [leadTests_overflow hlo hhi]
      exact fieldEnds_error
    · rw [leadTests_long hlo hhi]
      exact (lenTail_ends _ _ 0 (Bounds.succ_le_of_lt hlt)).mono hsucc.ge

/-! ## Where a token ends (42_parse.md R181, R184) -/

theorem tokenAt_tagError {e : Err} {off : Word} (h : tagField p v off = .error e) : tokenAt p v off = .error e := by
  rw [tokenAt, h]

theorem tokenAt_lengthError {e : Err} {off t o : Word} (ht : tagField p v off = .ok (t, o))
    (hl : lenField p v o = .error e) : tokenAt p v off = .error e := by
  rw [tokenAt, ht]
  dsimp only
  rw [hl]

theorem tokenAt_fields {off t o l vs : Word} (ht : tagField p v off = .ok (t, o)) (hl : lenField p v o = .ok (l, vs)) :
    tokenAt p v off = if v.regs.srcLen.toNat < vs.toNat + l.toNat then .error .msgSize else .ok (t, l, vs) := by
  rw [tokenAt, ht]
  dsimp only
  rw [hl]

/-- A token at offset `off` of a source buffer of `n` bytes has at least two bytes before its value, which ends within the buffer. -/
def TokenEnds (off n : Word) : Except Err (Word × Word × Word) → Prop
  | .error e => e ≠ .noMemory
  | .ok (_, l, vs) => off.toNat + 2 ≤ vs.toNat ∧ vs.toNat + l.toNat ≤ n.toNat

theorem tokenAt_ends (off : Word) : TokenEnds off v.regs.srcLen (tokenAt p v off) := by
  have htag := tagField_ends (p := p) (v := v) off
  cases ht : tagField p v off with
  | error e =>
    rw [ht] at htag
    rw [tokenAt_tagError ht]
    exact htag
  | ok r =>
    obtain ⟨t, o⟩ := r
    rw [ht] at htag
    obtain ⟨ho, -⟩ := htag
    have hlen := lenField_ends (p := p) (v := v) o
    cases hl : lenField p v o with
    | error e =>
      rw [hl] at hlen
      rw [tokenAt_lengthError ht hl]
      exact hlen
    | ok r =>
      obtain ⟨l, vs⟩ := r
      rw [hl] at hlen
      obtain ⟨hvs, -⟩ := hlen
      rw [tokenAt_fields ht hl]
      split_ifs with hover
      · exact (by decide : Err.msgSize ≠ .noMemory)
      · exact ⟨by omega, Nat.not_lt.1 hover⟩

theorem tokenAt_ok {off t l vs : Word} (h : tokenAt p v off = .ok (t, l, vs)) :
    off.toNat + 2 ≤ vs.toNat ∧ vs.toNat + l.toNat ≤ v.regs.srcLen.toNat := by
  have hends := tokenAt_ends (p := p) (v := v) off
  rwa [h] at hends

theorem tokenAt_error {off : Word} {e : Err} (h : tokenAt p v off = .error e) : e ≠ .noMemory := by
  have hends := tokenAt_ends (p := p) (v := v) off
  rwa [h] at hends

end ends

/-! ## Reading a token (42_parse.md R180, R181, 44_find.md R240, R241) -/

theorem leadsTo_trans {s t u : State} : LeadsTo s t → LeadsTo t u → LeadsTo s u
  | ⟨m, hm⟩, ⟨n, hn⟩ => ⟨m + n, (run_add hm n).trans hn⟩

/-- PARSE or FIND in TOK_END, with the fields of a token in the engine's registers; the count and the token's start stay. -/
def FieldsRead (s : State) (t l vs : Word) (u : State) : Prop :=
  ∃ first nrem, u = { s with eng := { s.eng with
    acc := l, off := vs, first := first, nrem := nrem, ctag := t, clen := l, vstart := vs, st := .tokEnd } }

/-- What PARSE or FIND has come to after a token, when it answers the given fields or error. -/
def TokenRead (s u : State) : Except Err (Word × Word × Word) → Prop
  | .error e => ∃ g, u = raiseErr e { s with eng := g }
  | .ok (t, l, vs) => FieldsRead s t l vs u

section reading
variable {i : Instr} {s : State}

/-- PARSE and FIND refuse a value past the buffer's end alike (42_parse.md R181, 44_find.md R241). -/
theorem exec_tokEnd_over (hi : i ∈ [Instr.parse, .find]) (hst : s.eng.st = .tokEnd)
    (hover : s.regs.srcLen.toNat < s.eng.vstart.toNat + s.eng.clen.toNat) : exec i s = .next (raiseErr .msgSize s) := by
  cases i with
  | parse => rw [ParseSteps.exec_tokEnd hst, ParseSteps.parseTokEnd_over hover]
  | find =>
    rw [exec, execFind, hst]
    exact congrArg _ (if_pos (decide_eq_true hover))
  | _ => simp at hi

/-- After its fields, a token is refused when its value runs past the buffer's end. -/
theorem FieldsRead.checked {t l vs : Word} {u : State} (h : FieldsRead s t l vs u) (hi : i ∈ [Instr.parse, .find])
    (halone : Alone i s) (hu : LeadsTo s u) :
    ∃ w, LeadsTo s w ∧
      TokenRead s w (if s.regs.srcLen.toNat < vs.toNat + l.toNat then .error .msgSize else .ok (t, l, vs)) := by
  split_ifs with hover
  · obtain ⟨first, nrem, hend⟩ := h
    have hst : u.eng.st = .tokEnd := by rw [hend]
    have hu' : Alone i u := hend ▸ halone.withEngine _
    have hstep := (hu'.step hst (by decide)).trans (exec_tokEnd_over hi hst (by rw [hend]; exact hover))
    exact ⟨_, leadsTo_trans hu (.head hstep (.refl _)), u.eng, by rw [hend]⟩
  · exact ⟨u, hu, h⟩

/-- A whole token, from TAG_FIRST on: its tag field, its length field, and the refusal of a value past the buffer's end. -/
theorem token_leadsTo (hi : i ∈ [Instr.parse, .find]) (h : Alone i s) (hst : s.eng.st = .tagFirst) :
    ∃ u, LeadsTo s u ∧ TokenRead s u (tokenAt s.plat s.visible s.eng.off) := by
  obtain ⟨u, hu, htag⟩ := tagFirst_leadsTo (reader_of_token hi) h hst
  rw [tagComplete_token hi] at htag
  cases ht : tagField s.plat s.visible s.eng.off with
  | error e =>
    rw [ht] at htag
    rw [tokenAt_tagError ht]
    exact ⟨u, hu, htag⟩
  | ok r =>
    obtain ⟨t, o⟩ := r
    rw [ht] at htag
    obtain ⟨first, st, rfl⟩ := htag
    have hlength : Alone i (tokenTagComplete
        { s with eng := { s.eng with acc := t, off := o, first := first, st := st } }) := h.withEngine _
    obtain ⟨w, hw, hlen⟩ := lenFirst_leadsTo (lengthReader_of_token hi) hlength rfl
    replace hlen : LengthRead tokenLenComplete _ w (lenField s.plat s.visible o) := lengthComplete_token hi ▸ hlen
    have hsw := leadsTo_trans hu hw
    cases hl : lenField s.plat s.visible o with
    | error e =>
      rw [hl] at hlen
      rw [tokenAt_lengthError ht hl]
      exact ⟨w, hsw, hlen⟩
    | ok r =>
      obtain ⟨l, vs⟩ := r
      rw [hl] at hlen
      obtain ⟨first, nrem, st, rfl⟩ := hlen
      rw [tokenAt_fields ht hl]
      exact FieldsRead.checked ⟨_, _, rfl⟩ hi h hsw

end reading

end Sys2Proof.TokenReading
end

section
/-! PROOF. PARSE, run to its end, is its big step (42_parse.md R183), and what that leaves in the results (R184, R186). The loop over
tokens is an induction: each turn is a token read, its record written byte by byte, and the rest of the loop from the offset
reached. -/
namespace Sys2Proof.ParseRuns
open Sys2Proof Sys2Proof.Machine Sys2Proof.Laws Sys2Proof.TagRuns Sys2Proof.ParseSteps Sys2Proof.TokenReading

/-! ## The big step's loops, test by test (42_parse.md R183) -/

section bigStep
variable {p : Platform} {v : Visible} {cnt off t l vs : Word} {m : Memory}

theorem storeRecord_refused {tokAddr k : Word} (h : memOk p (tokByteAddr tokAddr cnt k) .write = false) (b : Byte)
    (bs : List Byte) (m : Memory) : storeRecord p tokAddr cnt (b :: bs) k m = (false, m) :=
  if_neg ((Bool.not_eq_true _).mpr h)

theorem storeRecord_byte {tokAddr k : Word} (h : memOk p (tokByteAddr tokAddr cnt k) .write = true) (b : Byte)
    (bs : List Byte) (m : Memory) : storeRecord p tokAddr cnt (b :: bs) k m =
      storeRecord p tokAddr cnt bs (k + 1) (m.write (tokByteAddr tokAddr cnt k).toNat b) := if_pos h

theorem parseLoop_end (hend : v.regs.srcLen ≤ off) (n : Nat) : parseLoop p (n + 1) cnt off v = v.ended none := if_pos hend

theorem parseLoop_full (hlt : off < v.regs.srcLen) (hfull : v.regs.tokN ≤ cnt) (n : Nat) :
    parseLoop p (n + 1) cnt off v = v.ended (some .noMemory) := by
  rw [parseLoop, if_neg (BitVec.not_le.2 hlt), if_pos hfull]

theorem parseLoop_error {e : Err} (hlt : off < v.regs.srcLen) (hroom : cnt < v.regs.tokN)
    (htoken : tokenAt p v off = .error e) (n : Nat) : parseLoop p (n + 1) cnt off v = v.ended (some e) := by
  rw [parseLoop, if_neg (BitVec.not_le.2 hlt), if_neg (BitVec.not_le.2 hroom), htoken]

theorem parseLoop_refused (hlt : off < v.regs.srcLen) (hroom : cnt < v.regs.tokN)
    (htoken : tokenAt p v off = .ok (t, l, vs))
    (hrecord : storeRecord p v.regs.tokAddr cnt (recordBytes t l (v.regs.srcAddr + vs)).toList 0 v.mem = (false, m))
    (n : Nat) : parseLoop p (n + 1) cnt off v = Visible.ended (some .busError) { v with mem := m } := by
  rw [parseLoop, if_neg (BitVec.not_le.2 hlt), if_neg (BitVec.not_le.2 hroom), htoken]
  dsimp only
  rw [hrecord]

theorem parseLoop_token (hlt : off < v.regs.srcLen) (hroom : cnt < v.regs.tokN)
    (htoken : tokenAt p v off = .ok (t, l, vs))
    (hrecord : storeRecord p v.regs.tokAddr cnt (recordBytes t l (v.regs.srcAddr + vs)).toList 0 v.mem = (true, m))
    (n : Nat) :
    parseLoop p (n + 1) cnt off v =
      parseLoop p n (cnt + 1) (vs + l) { regs := { v.regs with res0 := cnt + 1, res1 := vs + l }, mem := m } := by
  rw [parseLoop, if_neg (BitVec.not_le.2 hlt), if_neg (BitVec.not_le.2 hroom), htoken]
  dsimp only
  rw [hrecord]

end bigStep

/-! ## Writing a record (42_parse.md R182) -/

/-- The token counted in the results, its value ending at offset `vend` (42_parse.md R182). -/
def storedToken (s : State) (vend : Word) (m : Memory) (g : Engine) : State :=
  { s with mem := m, eng := g, regs := { s.regs with res0 := s.eng.cnt + 1, res1 := vend } }

/-- What PARSE has come to after the record of a token whose value ends at offset `vend`, when its bytes answer whether all were
written, and memory: the command's end, or TOK_START with the token counted. -/
def TokenStored (s : State) (vend : Word) (u : State) : Bool × Memory → Prop
  | (false, m) => ∃ g, u = raiseErr .busError { s with mem := m, eng := g }
  | (true, m) => ∃ g : Engine, u = storedToken s vend m g ∧ g.st = .tokStart ∧ g.cnt = s.eng.cnt + 1 ∧ g.off = vend

/-- Of the state before the record, only the registers and the count matter. -/
theorem TokenStored.of_same_count {s u : State} {vend : Word} {r : Bool × Memory} {g : Engine} {m : Memory}
    (h : TokenStored { s with mem := m, eng := g } vend u r) (hcnt : g.cnt = s.eng.cnt := by rfl) :
    TokenStored s vend u r := by
  obtain ⟨all, m'⟩ := r
  cases all with
  | false => exact h
  | true =>
    simp only [TokenStored, storedToken, ← hcnt]
    exact h

/-- The bytes of the record still to be written stand in the buffer from `k` on. -/
theorem record_rest {e : Engine} {b : Byte} {bs : List Byte} (h : e.recBuf.toList.drop e.k.toNat = b :: bs) :
    e.recBuf[e.k.toNat]? = some b ∧ e.k.toNat + (bs.length + 1) = 12
      ∧ e.recBuf.toList.drop (e.k + 1).toNat = bs := by
  have hlen : 12 - e.k.toNat = bs.length + 1 := by simpa using congrArg List.length h
  have hsucc : (e.k + 1).toNat = e.k.toNat + 1 := by bv_omega
  refine ⟨?_, by omega, ?_⟩
  · rw [← Vector.getElem?_toList, ← List.head?_drop, h, List.head?_cons]
  · rw [hsucc, ← List.tail_drop, h, List.tail_cons]

section writing
variable {s : State}

/-- The bytes of a record, one step of REC_WRITE for each. -/
theorem recWrite_leadsTo (bs : List Byte) (h : Alone .parse s) (hst : s.eng.st = .recWrite) (hne : bs ≠ [])
    (hbs : s.eng.recBuf.toList.drop s.eng.k.toNat = bs) :
    ∃ u, LeadsTo s u ∧ TokenStored s (s.eng.vstart + s.eng.clen) u
      (storeRecord s.plat s.regs.tokAddr s.eng.cnt bs (s.eng.k.setWidth 32) s.mem) := by
  induction bs generalizing s with
  | nil => exact absurd rfl hne
  | cons b bs ih =>
    obtain ⟨hb, hcount, hrest⟩ := record_rest hbs
    have hstep := ((h.step hst (by decide)).trans (exec_recWrite hst)).trans (recWrite_byte h.quiet hb)
    cases hok : memOk s.plat (tokByteAddr s.regs.tokAddr s.eng.cnt (s.eng.k.setWidth 32)) .write with
    | false =>
      rw [hok, if_neg Bool.false_ne_true] at hstep
      rw [storeRecord_refused hok]
      exact ⟨_, .head hstep (.refl _), s.eng, rfl⟩
    | true =>
      rw [hok, if_pos rfl] at hstep
      rw [storeRecord_byte hok]
      by_cases hnil : bs = []
      · subst hnil
        rw [if_pos (by rw [List.length_nil] at hcount; bv_omega)] at hstep
        exact ⟨_, .head hstep (.refl _), _, rfl, rfl, rfl, rfl⟩
      · have hpos := List.length_pos_iff.2 hnil
        have hk : (putRecord b s).eng.k.setWidth 32 = s.eng.k.setWidth 32 + 1#32 := by
          rw [putRecord]
          bv_omega
        rw [if_neg (by bv_omega)] at hstep
        have hput : Alone .parse (putRecord b s) := ⟨h.op_eq, h.sched_eq, h.quiet⟩
        obtain ⟨u, hu, hstored⟩ := ih hput hst hnil hrest
        rw [hk] at hstored
        exact ⟨u, .head hstep hu, hstored.of_same_count⟩

/-- A token in TOK_END whose value lies within the buffer is stored from its first record byte on (42_parse.md R181). -/
theorem record_leadsTo (h : Alone .parse s) (hst : s.eng.st = .tokEnd)
    (hfits : s.eng.vstart.toNat + s.eng.clen.toNat ≤ s.regs.srcLen.toNat) :
    ∃ u, LeadsTo s u ∧ TokenStored s (s.eng.vstart + s.eng.clen) u
      (storeRecord s.plat s.regs.tokAddr s.eng.cnt
        (recordBytes s.eng.ctag s.eng.clen (s.regs.srcAddr + s.eng.vstart)).toList 0 s.mem) := by
  have hload := (h.step hst (by decide)).trans (exec_tokEnd hst)
  rw [parseTokEnd_record hfits] at hload
  obtain ⟨u, hu, hstored⟩ := recWrite_leadsTo (s := loadRecord s) _ (h.withEngine _) rfl (List.cons_ne_nil _ _) rfl
  exact ⟨u, .head hload hu, hstored.of_same_count⟩

end writing

/-! ## The loop over tokens (42_parse.md R183) -/

/-- After a token of at least two bytes, fewer source bytes are left than before it (42_parse.md R184). -/
theorem fewer_left {off l vs n : Word} (hlt : off < n) (hstart : off.toNat + 2 ≤ vs.toNat)
    (hfits : vs.toNat + l.toNat ≤ n.toNat) : n.toNat - (vs + l).toNat < n.toNat - off.toNat := by bv_omega

/-- The fields of a token about to be read (42_parse.md R180). -/
def beginToken (s : State) : State := { s with eng := { s.eng with tstart := s.eng.off, st := .tagFirst } }

section loop
variable {s : State}

/-- A turn of the loop begins by reading a token, when bytes remain and the token list has room. -/
theorem turn_leadsTo (h : Alone .parse s) (hst : s.eng.st = .tokStart) (hlt : s.eng.off < s.regs.srcLen)
    (hroom : s.eng.cnt < s.regs.tokN) :
    ∃ u, LeadsTo s u ∧ TokenRead (beginToken s) u (tokenAt s.plat s.visible s.eng.off) := by
  have hstep := (h.step hst (by decide)).trans (exec_tokStart hst)
  rw [parseTokStart_token hlt hroom] at hstep
  obtain ⟨u, hu, hread⟩ := token_leadsTo (by decide) (s := beginToken s) (h.withEngine _) rfl
  exact ⟨u, .head hstep hu, hread⟩

/-- A token that cannot be read ends the command. -/
theorem turn_error {e : Err} (h : Alone .parse s) (hst : s.eng.st = .tokStart) (hlt : s.eng.off < s.regs.srcLen)
    (hroom : s.eng.cnt < s.regs.tokN) (htoken : tokenAt s.plat s.visible s.eng.off = .error e) :
    ∃ g, LeadsTo s (raiseErr e { s with eng := g }) := by
  obtain ⟨u, hu, hread⟩ := turn_leadsTo h hst hlt hroom
  rw [htoken] at hread
  obtain ⟨g, rfl⟩ := hread
  exact ⟨g, hu⟩

/-- A token that can be read is stored, its value lying within the buffer. -/
theorem turn_stored {t l vs : Word} (h : Alone .parse s) (hst : s.eng.st = .tokStart) (hlt : s.eng.off < s.regs.srcLen)
    (hroom : s.eng.cnt < s.regs.tokN) (htoken : tokenAt s.plat s.visible s.eng.off = .ok (t, l, vs))
    (hfits : vs.toNat + l.toNat ≤ s.regs.srcLen.toNat) :
    ∃ u, LeadsTo s u ∧ TokenStored s (vs + l) u
      (storeRecord s.plat s.regs.tokAddr s.eng.cnt (recordBytes t l (s.regs.srcAddr + vs)).toList 0 s.mem) := by
  obtain ⟨u, hu, hread⟩ := turn_leadsTo h hst hlt hroom
  rw [htoken] at hread
  obtain ⟨first, nrem, hend⟩ := hread
  obtain ⟨w, hw, hstored⟩ := record_leadsTo (s := u) (hend ▸ h.withEngine _) (by rw [hend]) (by rw [hend]; exact hfits)
  subst hend
  exact ⟨w, leadsTo_trans hu hw, hstored.of_same_count⟩

/-- The rest of the loop, from a token boundary on: the source bytes left bound its turns. -/
theorem tokStart_leadsTo (n : Nat) (h : Alone .parse s) (hst : s.eng.st = .tokStart)
    (hn : s.regs.srcLen.toNat - s.eng.off.toNat < n) :
    ∃ u, LeadsTo s u ∧ u.eng.st = .idle ∧ u.visible = parseLoop s.plat n s.eng.cnt s.eng.off s.visible := by
  induction n generalizing s with
  | zero => exact absurd hn (Nat.not_lt_zero _)
  | succ n ih =>
    have hstep := (h.step hst (by decide)).trans (exec_tokStart hst)
    have hquiet := h.quiet.1
    by_cases hend : s.regs.srcLen ≤ s.eng.off
    · rw [parseTokStart_end hend] at hstep
      rw [parseLoop_end (v := s.visible) hend]
      exact ⟨_, .head hstep (.refl _), by simp [finish], visible_endCommand hquiet _⟩
    have hlt := BitVec.not_le.1 hend
    by_cases hfull : s.regs.tokN ≤ s.eng.cnt
    · rw [parseTokStart_full hlt hfull] at hstep
      rw [parseLoop_full (v := s.visible) hlt hfull]
      exact ⟨_, .head hstep (.refl _), by simp [raiseErr], visible_endCommand hquiet _⟩
    have hroom := BitVec.not_le.1 hfull
    cases htoken : tokenAt s.plat s.visible s.eng.off with
    | error e =>
      obtain ⟨g, hu⟩ := turn_error h hst hlt hroom htoken
      rw [parseLoop_error (v := s.visible) hlt hroom htoken]
      exact ⟨_, hu, by simp [raiseErr], visible_endCommand (by exact hquiet) _⟩
    | ok r =>
      obtain ⟨t, l, vs⟩ := r
      obtain ⟨hstart, hfits⟩ := tokenAt_ok htoken
      obtain ⟨u, hu, hstored⟩ := turn_stored h hst hlt hroom htoken hfits
      cases hrecord : storeRecord s.plat s.regs.tokAddr s.eng.cnt (recordBytes t l (s.regs.srcAddr + vs)).toList 0
        s.mem with
      | mk all m =>
        rw [hrecord] at hstored
        cases all with
        | false =>
          obtain ⟨g, rfl⟩ := hstored
          rw [parseLoop_refused (v := s.visible) hlt hroom htoken hrecord]
          exact ⟨_, hu, by simp [raiseErr], visible_endCommand (by exact hquiet) _⟩
        | true =>
          obtain ⟨g, rfl, hgst, hgcnt, hgoff⟩ := hstored
          have hleft : s.regs.srcLen.toNat - g.off.toNat < n := by
            rw [hgoff]
            exact (fewer_left hlt hstart hfits).trans_le (Nat.le_of_lt_succ hn)
          obtain ⟨w, hw, hidle, hv⟩ := ih (s := storedToken s (vs + l) m g) ⟨h.op_eq, h.sched_eq, h.quiet⟩ hgst hleft
          refine ⟨w, leadsTo_trans hu hw, hidle, hv.trans ?_⟩
          rw [parseLoop_token (v := s.visible) hlt hroom htoken hrecord]
          exact congrArg₂ (fun cnt off => parseLoop s.plat n cnt off _) hgcnt hgoff

end loop

/-- Settles O45: DISPATCH leads to the first token boundary, and the loop from there ends as the big step does. -/
theorem parseRunIsItsBigStep : Obligations.ParseRunIsItsBigStep := by
  intro s s₀
  have h : Alone .parse s₀ := withCommand_alone .parse s
  have hdispatch := (h.step (st := .dispatch) rfl (by decide)).trans (CommandWord.exec_dispatch_tokens (by decide) rfl)
  obtain ⟨u, hu, hidle, hv⟩ := tokStart_leadsTo (s₀.regs.srcLen.toNat + 1)
    (h.withEngine { s₀.eng with st := .tokStart }) rfl (Nat.lt_succ_of_le (Nat.sub_le _ _))
  exact endsWith_of_leadsTo (.head hdispatch hu) hidle hv

/-! ## The results (42_parse.md R184, R186) -/

/-- The results of PARSE between two tokens: `RES0` tokens stored, at most one for every two bytes up to offset `RES1`. -/
structure ResultsAt (cnt off : Word) (g : Regs) : Prop where
  res0_eq : g.res0 = cnt
  res1_eq : g.res1 = off
  two_bytes : 2 * cnt.toNat ≤ off.toNat
  cnt_le : cnt ≤ g.tokN
  off_le : off ≤ g.srcLen

/-- What the results of PARSE say at its end, of a source buffer of `n` bytes and a token list of `c` records. -/
structure ResultsEnd (n c : Word) (g : Regs) : Prop where
  success : g.err = 0 → g.res1 = n
  two_bytes : 2 * g.res0.toNat ≤ n.toNat
  res0_le : g.res0 ≤ c
  res1_le : g.res1 ≤ n
  full : g.err = 3 → g.res0 = c ∧ g.res1 < n

/-- An error's code tells it from success and from NoMemory (60_exceptions.md R270). -/
theorem eq_none_of_errCode {e : Option Err} (h : errCode e = 0) : e = none := by
  cases e with
  | none => rfl
  | some e => cases e <;> cases h

theorem eq_noMemory_of_errCode {e : Option Err} (h : errCode e = 3) : e = some .noMemory := by
  cases e with
  | none => cases h
  | some e =>
    cases e with
    | noMemory => rfl
    | _ => cases h

section results
variable {cnt off : Word}

/-- Wherever PARSE ends, its results are those of the last token boundary; only the end of the buffer is a success, and only a full
token list NoMemory. -/
theorem ResultsAt.ended {g : Regs} (h : ResultsAt cnt off g) (e : Option Err) (hdone : e = none → g.srcLen ≤ off)
    (hfull : e = some .noMemory → off < g.srcLen ∧ g.tokN ≤ cnt) : ResultsEnd g.srcLen g.tokN (g.ended e) := by
  obtain ⟨rfl, rfl, htwo, hcnt, hoff⟩ := h
  exact {
    success := fun herr => BitVec.le_antisymm hoff (hdone (eq_none_of_errCode herr))
    two_bytes := htwo.trans hoff
    res0_le := hcnt
    res1_le := hoff
    full := fun herr => by
      obtain ⟨hlt, hle⟩ := hfull (eq_noMemory_of_errCode herr)
      exact ⟨BitVec.le_antisymm hcnt hle, hlt⟩ }

/-- A command stopped inside a token keeps the results of the boundary before it. -/
theorem ResultsAt.raised {g : Regs} (h : ResultsAt cnt off g) {e : Err} (hne : e ≠ .noMemory) :
    ResultsEnd g.srcLen g.tokN (g.ended (some e)) :=
  h.ended (some e) (fun he => by cases he) fun he => absurd (Option.some.inj he) hne

/-- A stored token moves the results to the next boundary (42_parse.md R182, R184). -/
theorem ResultsAt.next {g : Regs} {l vs : Word} (h : ResultsAt cnt off g) (hroom : cnt < g.tokN)
    (hstart : off.toNat + 2 ≤ vs.toNat) (hfits : vs.toNat + l.toNat ≤ g.srcLen.toNat) :
    ResultsAt (cnt + 1) (vs + l) { g with res0 := cnt + 1, res1 := vs + l } where
  res0_eq := rfl
  res1_eq := rfl
  two_bytes := by
    have := h.two_bytes
    bv_omega
  cnt_le := Bounds.succ_le_of_lt hroom
  off_le := Bounds.value_end_le hfits

theorem parseLoop_results (p : Platform) (n : Nat) {v : Visible} (hn : v.regs.srcLen.toNat - off.toNat < n)
    (h : ResultsAt cnt off v.regs) : ResultsEnd v.regs.srcLen v.regs.tokN (parseLoop p n cnt off v).regs := by
  induction n generalizing cnt off v with
  | zero => exact absurd hn (Nat.not_lt_zero _)
  | succ n ih =>
    by_cases hend : v.regs.srcLen ≤ off
    · rw [parseLoop_end hend]
      exact h.ended none (fun _ => hend) fun he => by cases he
    have hlt := BitVec.not_le.1 hend
    by_cases hfull : v.regs.tokN ≤ cnt
    · rw [parseLoop_full hlt hfull]
      exact h.ended (some .noMemory) (fun he => by cases he) fun _ => ⟨hlt, hfull⟩
    have hroom := BitVec.not_le.1 hfull
    cases htoken : tokenAt p v off with
    | error e =>
      rw [parseLoop_error hlt hroom htoken]
      exact h.raised (tokenAt_error htoken)
    | ok r =>
      obtain ⟨t, l, vs⟩ := r
      obtain ⟨hstart, hfits⟩ := tokenAt_ok htoken
      cases hrecord : storeRecord p v.regs.tokAddr cnt (recordBytes t l (v.regs.srcAddr + vs)).toList 0 v.mem with
      | mk all m =>
        cases all with
        | false =>
          rw [parseLoop_refused hlt hroom htoken hrecord]
          exact h.raised (by decide)
        | true =>
          rw [parseLoop_token hlt hroom htoken hrecord]
          have hleft := (fewer_left hlt hstart hfits).trans_le (Nat.le_of_lt_succ hn)
          exact ih (v := ⟨_, m⟩) (by exact hleft) (h.next hroom hstart hfits)

end results

/-- Settles O54: PARSE ends as its big step does, whose loop starts with every result at 0 and keeps them at the last boundary. -/
theorem parseEndsWhereItsResultsSay : Obligations.ParseEndsWhereItsResultsSay := by
  intro s t ht
  obtain ⟨u, hu, -, hv⟩ := parseRunIsItsBigStep s
  obtain rfl : t = u := by
    rw [ht] at hu
    cases hu
    rfl
  have hstart : ResultsAt 0 0 (s.withCommand (encode .parse)).regs :=
    ⟨rfl, rfl, Nat.le_refl _, Nat.zero_le _, Nat.zero_le _⟩
  have hend := parseLoop_results s.plat (s.regs.srcLen.toNat + 1) (v := (s.withCommand (encode .parse)).visible)
    (Nat.lt_succ_of_le (Nat.sub_le _ _)) hstart
  have hregs : t.regs = _ := congrArg Visible.regs hv
  obtain ⟨hsuccess, htwo, hres0, hres1, hfull⟩ := hregs ▸ hend
  exact ⟨hsuccess, htwo, hres0, hres1, hfull⟩

end Sys2Proof.ParseRuns
end

section
/-! PROOF. The steps of SERIALIZE that no other command has, one at a time, with no race open (43_serialize.md R210, R211, R213):
TOK_START is read by its test, REC_READ by the byte of the record there, VAL_COPY by the value byte it copies. -/
namespace Sys2Proof.SerializeSteps
open Sys2Proof Sys2Proof.Machine Sys2Proof.Laws

section steps
variable {s : State}

theorem exec_tokStart (hst : s.eng.st = .tokStart) : exec .serialize s = .next (serializeTokStart s) := by
  rw [exec, execSerialize, hst]

theorem exec_recRead (hst : s.eng.st = .recRead) : exec .serialize s = recRead s := by rw [exec, execSerialize, hst]

theorem exec_valCopy (hst : s.eng.st = .valCopy) : exec .serialize s = .next (valCopy s) := by
  rw [exec, execSerialize, hst]

/-! ## The next record (43_serialize.md R210, R211) -/

/-- Record `cnt`, about to be read from its first byte on (43_serialize.md R210). -/
def beginRecord (s : State) : State := { s with eng := { s.eng with k := 0, st := .recRead } }

theorem serializeTokStart_end (hend : s.regs.tokN ≤ s.eng.cnt) : serializeTokStart s = finish s := if_pos hend

theorem serializeTokStart_record (hlt : s.eng.cnt < s.regs.tokN) : serializeTokStart s = beginRecord s :=
  if_neg (BitVec.not_le.2 hlt)

/-- The address of the record's byte `k`. -/
def recordAddr (s : State) : Word := tokByteAddr s.regs.tokAddr s.eng.cnt (s.eng.k.setWidth 32)

/-- The record's byte `k` taken into the buffer (43_serialize.md R211). -/
def takeRecord (s : State) (h : s.eng.k.toNat < 12) : State :=
  { s with eng := { s.eng with
      recBuf := s.eng.recBuf.set s.eng.k.toNat (s.mem.read (recordAddr s).toNat) h, k := s.eng.k + 1 } }

/-- The fields of the record in the buffer, the token's tag field about to be loaded (43_serialize.md R211). -/
def takeFields (s : State) : State :=
  { s with eng := { s.eng with
      ctag := recTag s.eng.recBuf, clen := recLen s.eng.recBuf, vaddr := recAddr s.eng.recBuf, st := .encTag } }

/-- All REC_READ does at a byte of the record, with no race open: the byte is taken and the twelfth gives the fields, or the read is
refused. -/
theorem recRead_byte (hquiet : s.env.raced = false) (h : s.eng.k.toNat < 12) :
    recRead s =
      if memOk s.plat (recordAddr s) .read = true then
        .next (if s.eng.k + 1 = 12#4 then takeFields (takeRecord s h) else takeRecord s h)
      else .next (raiseErr .busError s) := by
  rw [recRead, dif_pos h, memRead_quiet hquiet, ← recordAddr]
  cases memOk s.plat (recordAddr s) .read <;> rfl

/-! ## The value (43_serialize.md R213) -/

/-- Value byte `j` stored at `DST_ADDR + wcnt`, and counted (43_serialize.md R213). -/
def putValue (s : State) : State :=
  { s with
    mem := s.mem.write (s.regs.dstAddr + s.eng.wcnt).toNat (s.mem.read (s.eng.vaddr + s.eng.j).toNat)
    eng := { s.eng with wcnt := s.eng.wcnt + 1, j := s.eng.j + 1 }
    regs := { s.regs with res0 := s.eng.wcnt + 1 } }

/-- The token counted, once its value is copied (43_serialize.md R213). -/
def countToken (s : State) : State :=
  { s with
    eng := { s.eng with cnt := s.eng.cnt + 1, st := .tokStart }
    regs := { s.regs with res1 := s.eng.cnt + 1 } }

theorem valCopy_full (hfull : s.regs.dstCap ≤ s.eng.wcnt) : valCopy s = raiseErr .noMemory s := if_pos hfull

/-- All VAL_COPY does while there is room, with no race open: the read is refused, or the write is, or the byte is copied and the last
one counts the token. Below the capacity, `wcnt` is not the last word, so that the `Overflow` test does not fire. -/
theorem valCopy_byte (hquiet : s.quiet) (hlt : s.eng.wcnt < s.regs.dstCap) :
    valCopy s =
      if memOk s.plat (s.eng.vaddr + s.eng.j) .read = true ∧ memOk s.plat (s.regs.dstAddr + s.eng.wcnt) .write = true then
        if s.eng.j + 1 = s.eng.clen then countToken (putValue s) else putValue s
      else raiseErr .busError s := by
  obtain ⟨hraced, hcontested⟩ := hquiet
  have hmax : s.eng.wcnt ≠ 0xFFFFFFFF#32 := fun h => by
    rw [h] at hlt
    bv_omega
  rw [valCopy, if_neg (BitVec.not_le.2 hlt), if_neg hmax, memRead_quiet hraced]
  cases memOk s.plat (s.eng.vaddr + s.eng.j) .read with
  | false => rfl
  | true =>
    dsimp only
    rw [if_pos rfl]
    dsimp only
    rw [memWrite_quiet hraced hcontested]
    cases memOk s.plat (s.regs.dstAddr + s.eng.wcnt) .write <;> rfl

end steps

/-- Settles O25: the end test, the refused read, a byte that others follow, and the last byte with the record's fields. -/
theorem serializeRecordSteps : Obligations.SerializeRecordSteps := by
  refine fun s => ⟨fun hst => ⟨fun hend => ?_, fun hlt => ?_⟩, fun h hst hquiet => ?_⟩
  · rw [exec_tokStart hst, serializeTokStart_end hend]
  · rw [exec_tokStart hst, serializeTokStart_record hlt, beginRecord]
  · have hstep := (exec_recRead hst).trans (recRead_byte hquiet h)
    refine ⟨fun hno => ?_, fun hok hmore => ?_, fun hok hlast => ?_⟩
    · exact hstep.trans (if_neg ((Bool.not_eq_true _).mpr hno))
    · exact hstep.trans ((if_pos hok).trans (congrArg _ (if_neg (by bv_omega))))
    · have hk : s.eng.k + 1 = 12#4 := by bv_omega
      refine hstep.trans ((if_pos hok).trans (congrArg _ ((if_pos hk).trans ?_)))
      rw [takeFields, takeRecord, hk]
      rfl

/-- Settles O26: the capacity test, the refused read and the refused write, and the byte copied. -/
theorem valCopyStep : Obligations.ValCopyStep := by
  intro s hst hquiet
  have hstep := exec_valCopy hst
  refine ⟨fun hfull => ?_, fun hlt hno => ?_, fun hlt hok hno => ?_, fun hlt hok hwrite hmore => ?_,
    fun hlt hok hwrite hlast => ?_⟩
  · rw [hstep, valCopy_full hfull]
  all_goals rw [hstep, valCopy_byte hquiet hlt]
  · rw [if_neg (by simp [hno])]
  · rw [if_neg (by simp [hno])]
  · rw [if_pos ⟨hok, hwrite⟩, if_neg hmore]
    rfl
  · rw [if_pos ⟨hok, hwrite⟩, if_pos hlast]
    rfl

end Sys2Proof.SerializeSteps
end

section
/-! PROOF. SERIALIZE, run to its end, is its big step (43_serialize.md R214). The loop over tokens is an induction: each turn is a
record read byte by byte, the two fields written from the emitter's buffer, the value copied byte by byte, and the rest of the loop
from the destination offset reached. -/
namespace Sys2Proof.SerializeRuns
open Sys2Proof Sys2Proof.Machine Sys2Proof.Laws Sys2Proof.TagSteps Sys2Proof.TagRuns Sys2Proof.LengthSteps
  Sys2Proof.TokenReading Sys2Proof.SerializeSteps

/-! ## A run keeps the setting (10_state.md R22) -/

theorem setting_of_leadsTo {s t : State} (hsched : s.env.sched = []) :
    LeadsTo s t → Effects.setting t = Effects.setting s
  | ⟨n, hn⟩ => FieldDecoding.run_setting n hsched t hn

theorem alone_of_leadsTo {i : Instr} {s t : State} (h : Alone i s) (ht : LeadsTo s t) : Alone i t := by
  obtain ⟨-, hop, -, hsched, -, hraced, hcontested, -⟩ :=
    (Effects.setting_eq_iff s t).1 (setting_of_leadsTo h.sched_eq ht)
  exact ⟨hop.trans h.op_eq, hsched.trans h.sched_eq, hraced.trans h.quiet.1, hcontested.trans h.quiet.2⟩

/-! ## The big step, part by part (43_serialize.md R214) -/

/-- One part of a token after another: the second is left out when the first meets an error. -/
def andThen (r : Option Err × Word × Visible) (rest : Word → Visible → Option Err × Word × Visible) :
    Option Err × Word × Visible :=
  match r with
  | (some e, w, v) => (some e, w, v)
  | (none, w, v) => rest w v

/-- A token after its tag field: its length field and its value. -/
def lengthAndValue (p : Platform) (l va w : Word) (v : Visible) : Option Err × Word × Visible :=
  if l = 0#32 then (some .badArgument, w, v) else andThen (emitBytes p (lengthBytes l) w v) (copyValue p va l.toNat 0)

/-- A token after its record: its tag field, its length field and its value. -/
def fieldsAndValue (p : Platform) (t l va w : Word) (v : Visible) : Option Err × Word × Visible :=
  match tagBytes t with
  | none => (some .invalid, w, v)
  | some bs => andThen (emitBytes p bs w v) (lengthAndValue p l va)

section bigStep
variable {p : Platform} {v : Visible} {i w t l va q : Word}

theorem serializeToken_refused (h : recordAt p v i = none) : serializeToken p i w v = (some .busError, w, v) := by
  rw [serializeToken, h]

theorem serializeToken_record (h : recordAt p v i = some (t, l, va)) :
    serializeToken p i w v = fieldsAndValue p t l va w v := by
  rw [serializeToken, h]
  rfl

theorem fieldsAndValue_bad (h : tagBytes t = none) : fieldsAndValue p t l va w v = (some .invalid, w, v) := by
  rw [fieldsAndValue, h]

theorem fieldsAndValue_tag {bs : List Byte} (h : tagBytes t = some bs) :
    fieldsAndValue p t l va w v = andThen (emitBytes p bs w v) (lengthAndValue p l va) := by
  rw [fieldsAndValue, h]

theorem lengthAndValue_zero (h : l = 0) : lengthAndValue p l va w v = (some .badArgument, w, v) := if_pos h

theorem lengthAndValue_field (h : l ≠ 0) :
    lengthAndValue p l va w v = andThen (emitBytes p (lengthBytes l) w v) (copyValue p va l.toNat 0) := if_neg h

theorem copyValue_full (h : v.regs.dstCap ≤ w) (n : Nat) : copyValue p va (n + 1) q w v = (some .noMemory, w, v) := if_pos h

theorem copyValue_refused (hlt : w < v.regs.dstCap)
    (h : ¬ (memOk p (va + q) .read = true ∧ memOk p (v.regs.dstAddr + w) .write = true)) (n : Nat) :
    copyValue p va (n + 1) q w v = (some .busError, w, v) := by
  rw [copyValue, if_neg (BitVec.not_le.2 hlt)]
  by_cases hread : memOk p (va + q) .read = true
  · rw [if_pos hread, putByte_refused hlt ((Bool.not_eq_true _).mp fun hwrite => h ⟨hread, hwrite⟩)]
  · rw [if_neg hread]

theorem copyValue_byte (hlt : w < v.regs.dstCap)
    (h : memOk p (va + q) .read = true ∧ memOk p (v.regs.dstAddr + w) .write = true) (n : Nat) :
    copyValue p va (n + 1) q w v = copyValue p va n (q + 1) (w + 1)
      { regs := { v.regs with res0 := w + 1 }
        mem := v.mem.write (v.regs.dstAddr + w).toNat (v.mem.read (va + q).toNat) } := by
  obtain ⟨hread, hwrite⟩ := h
  rw [copyValue, if_neg (BitVec.not_le.2 hlt), if_pos hread, putByte_ok hlt hwrite]

theorem serializeLoop_error {e : Err} {w' : Word} {v' : Visible} (h : serializeToken p i w v = (some e, w', v')) (n : Nat) :
    serializeLoop p (n + 1) i w v = v'.ended (some e) := by
  rw [serializeLoop, h]

theorem serializeLoop_token {w' : Word} {v' : Visible} (h : serializeToken p i w v = (none, w', v')) (n : Nat) :
    serializeLoop p (n + 1) i w v = serializeLoop p n (i + 1) w' { v' with regs := { v'.regs with res1 := i + 1 } } := by
  rw [serializeLoop, h]

end bigStep

/-! ## Reading a record (43_serialize.md R211) -/

/-- Byte `m` of record `cnt` (20_memory.md R64). -/
def recordByte (s : State) (m : Nat) : Byte :=
  s.mem.read (tokByteAddr s.regs.tokAddr s.eng.cnt (BitVec.ofNat 32 m)).toNat

/-- The platform completes the read of byte `m` of record `cnt` (20_memory.md R60). -/
def recordByteOk (s : State) (m : Nat) : Bool :=
  memOk s.plat (tokByteAddr s.regs.tokAddr s.eng.cnt (BitVec.ofNat 32 m)) .read

theorem recordAddr_eq (s : State) :
    recordAddr s = tokByteAddr s.regs.tokAddr s.eng.cnt (BitVec.ofNat 32 s.eng.k.toNat) := by
  rw [recordAddr, BitVec.ofNat_toNat]

/-- The bytes of the record before byte `k` have been read, and stand in the buffer. -/
def ReadSoFar (s : State) : Prop :=
  ∀ m, m < s.eng.k.toNat → recordByteOk s m = true ∧ s.eng.recBuf[m]? = some (recordByte s m)

/-- What SERIALIZE has come to after a record, when it answers the given fields, or none for a refused read. -/
def RecordRead (s u : State) : Option (Word × Word × Word) → Prop
  | none => ∃ g, u = raiseErr .busError { s with eng := g }
  | some (t, l, va) => ∃ k r, u =
      { s with eng := { s.eng with k := k, recBuf := r, ctag := t, clen := l, vaddr := va, st := .encTag } }

section record
variable {s : State}

theorem recordAt_refused {m : Nat} (hm : m < 12) (h : recordByteOk s m = false) :
    recordAt s.plat s.visible s.eng.cnt = none := by
  refine if_neg fun hall => ?_
  have hok : recordByteOk s m = true := List.all_eq_true.1 hall m (List.mem_range.2 hm)
  rw [h] at hok
  cases hok

/-- The twelve bytes of the record give its three fields (20_memory.md R64). -/
theorem recordAt_read {r : Vector Byte 12} (h : ∀ m, m < 12 → recordByteOk s m = true ∧ r[m]? = some (recordByte s m)) :
    recordAt s.plat s.visible s.eng.cnt = some (recTag r, recLen r, recAddr r) := by
  have hbyte (m : Nat) (hm : m < 12) : r[m] = recordByte s m :=
    Option.some.inj ((Vector.getElem?_eq_getElem hm).symm.trans (h m hm).2)
  refine (if_pos (List.all_eq_true.2 fun m hm => (h m (List.mem_range.1 hm)).1)).trans ?_
  simp only [recTag, recLen, recAddr, hbyte]
  rfl

theorem takeRecord_k (hk : s.eng.k.toNat < 12) : (takeRecord s hk).eng.k.toNat = s.eng.k.toNat + 1 := by
  rw [takeRecord]
  bv_omega

theorem takeRecord_readSoFar (hk : s.eng.k.toNat < 12) (h : ReadSoFar s) (hok : memOk s.plat (recordAddr s) .read = true) :
    ReadSoFar (takeRecord s hk) := by
  rw [recordAddr_eq] at hok
  intro m hm
  rw [takeRecord_k] at hm
  rcases Nat.lt_succ_iff_lt_or_eq.1 hm with hlt | rfl
  · obtain ⟨hokm, hbyte⟩ := h m hlt
    exact ⟨hokm, (Vector.getElem?_set_ne hk hlt.ne').trans hbyte⟩
  · refine ⟨hok, ?_⟩
    rw [takeRecord, recordAddr_eq]
    exact Vector.getElem?_set_self hk

/-- Of the state before the record, the index and the buffer do not matter. -/
theorem RecordRead.of_takeRecord {hk : s.eng.k.toNat < 12} {u : State} {r : Option (Word × Word × Word)}
    (h : RecordRead (takeRecord s hk) u r) : RecordRead s u r := by
  cases r <;> exact h

/-- The `n` bytes of the record still to be read, one step of REC_READ for each. -/
theorem recRead_leadsTo (n : Nat) (h : Alone .serialize s) (hst : s.eng.st = .recRead) (hn : s.eng.k.toNat + n = 12)
    (hk : s.eng.k.toNat < 12) (hsofar : ReadSoFar s) :
    ∃ u, LeadsTo s u ∧ RecordRead s u (recordAt s.plat s.visible s.eng.cnt) := by
  induction n generalizing s with
  | zero => exact absurd hn hk.ne
  | succ n ih =>
    have hstep := ((h.step hst (by decide)).trans (exec_recRead hst)).trans (recRead_byte h.quiet.1 hk)
    cases hok : memOk s.plat (recordAddr s) .read with
    | false =>
      rw [hok, if_neg Bool.false_ne_true] at hstep
      rw [recordAt_refused hk (by rwa [recordAddr_eq] at hok)]
      exact ⟨_, .head hstep (.refl _), s.eng, rfl⟩
    | true =>
      rw [hok, if_pos rfl] at hstep
      have hnext := takeRecord_readSoFar hk hsofar hok
      by_cases hlast : s.eng.k + 1 = 12#4
      · rw [if_pos hlast] at hstep
        have hall : (takeRecord s hk).eng.k.toNat = 12 := congrArg BitVec.toNat hlast
        have hrecord := recordAt_read (s := s) fun m hm => hnext m (hm.trans_eq hall.symm)
        rw [hrecord]
        exact ⟨_, .head hstep (.refl _), _, _, rfl⟩
      · rw [if_neg hlast] at hstep
        have hsucc := takeRecord_k hk
        obtain ⟨u, hu, hread⟩ := ih (s := takeRecord s hk) (h.withEngine _) hst (by omega) (by bv_omega) hnext
        exact ⟨u, .head hstep hu, hread.of_takeRecord⟩

end record

/-! ## The fields and the value (43_serialize.md R212, R213) -/

/-- What SERIALIZE has come to after token `cnt`, when its bytes answer the given error or none, destination offset and outcome: the
command's end, or TOK_START with the token counted. -/
def TokenWritten (cnt : Word) (u : State) : Option Err × Word × Visible → Prop
  | (some e, _, v) => u.eng.st = .idle ∧ u.visible = v.ended (some e)
  | (none, w, v) => u.eng.st = .tokStart ∧ u.eng.cnt = cnt + 1 ∧ u.eng.wcnt = w
      ∧ u.visible = { v with regs := { v.regs with res1 := cnt + 1 } }

section token
variable {s : State}

theorem raise_leadsTo {e : Err} (h : Alone .serialize s) (hstep : step s = .next (raiseErr e s)) (cnt w : Word) :
    ∃ u, LeadsTo s u ∧ TokenWritten cnt u (some e, w, s.visible) :=
  ⟨_, .head hstep (.refl _), by simp [raiseErr], visible_endCommand h.quiet.1 _⟩

/-- The `n` value bytes still to copy, one step of VAL_COPY for each. -/
theorem valCopy_leadsTo (n : Nat) (h : Alone .serialize s) (hst : s.eng.st = .valCopy)
    (hn : s.eng.j.toNat + n = s.eng.clen.toNat) (hpos : 1 ≤ n) :
    ∃ u, LeadsTo s u ∧
      TokenWritten s.eng.cnt u (copyValue s.plat s.eng.vaddr n s.eng.j s.eng.wcnt s.visible) := by
  induction n generalizing s with
  | zero => exact absurd hpos (by decide)
  | succ n ih =>
    have hstep := (h.step hst (by decide)).trans (exec_valCopy hst)
    by_cases hfull : s.regs.dstCap ≤ s.eng.wcnt
    · rw [valCopy_full hfull] at hstep
      rw [copyValue_full (v := s.visible) hfull]
      exact raise_leadsTo h hstep _ _
    have hlt := BitVec.not_le.1 hfull
    rw [valCopy_byte h.quiet hlt] at hstep
    by_cases hok : memOk s.plat (s.eng.vaddr + s.eng.j) .read = true ∧
        memOk s.plat (s.regs.dstAddr + s.eng.wcnt) .write = true
    · rw [if_pos hok] at hstep
      rw [copyValue_byte (v := s.visible) hlt hok]
      by_cases hlast : s.eng.j + 1 = s.eng.clen
      · rw [if_pos hlast] at hstep
        obtain rfl : n = 0 := by bv_omega
        exact ⟨_, .head hstep (.refl _), rfl, rfl, rfl, rfl⟩
      · rw [if_neg hlast] at hstep
        have hsucc : (putValue s).eng.j.toNat + n = s.eng.clen.toNat ∧ 1 ≤ n := by
          rw [putValue]
          bv_omega
        obtain ⟨u, hu, hwritten⟩ := ih (s := putValue s) ⟨h.op_eq, h.sched_eq, h.quiet⟩ hst hsucc.1 hsucc.2
        exact ⟨u, .head hstep hu, hwritten⟩
    · rw [if_neg hok] at hstep
      rw [copyValue_refused (v := s.visible) hlt hok]
      exact raise_leadsTo h hstep _ _

/-- SERIALIZE after a field, from the given state in EMIT on. -/
def afterField (s : State) (w : Word) (v : Visible) : State :=
  serializeFieldDone { s with regs := v.regs, mem := v.mem, eng := { s.eng with wcnt := w, ei := s.eng.en } }

/-- A field in the emitter's buffer is written, and the rest of the token follows it. -/
theorem field_leadsTo {bs : List Byte} {rest : Word → Visible → Option Err × Word × Visible} (h : Alone .serialize s)
    (hst : s.eng.st = .emit) (hbytes : Pending bs s.eng)
    (hrest : ∀ w v, Alone .serialize (afterField s w v) →
      ∃ u, LeadsTo (afterField s w v) u ∧ TokenWritten s.eng.cnt u (rest w v)) :
    ∃ u, LeadsTo s u ∧ TokenWritten s.eng.cnt u (andThen (emitBytes s.plat bs s.eng.wcnt s.visible) rest) := by
  obtain ⟨u, hu, hwritten⟩ := emit_leadsTo (by decide) bs h hst hbytes
  generalize emitBytes s.plat bs s.eng.wcnt s.visible = r at hwritten ⊢
  obtain ⟨_ | e, w, v⟩ := r
  · have hafter : u = afterField s w v := hwritten
    subst hafter
    obtain ⟨t, ht, hdone⟩ := hrest w v (alone_of_leadsTo h hu)
    exact ⟨t, leadsTo_trans hu ht, hdone⟩
  · obtain ⟨g, rfl⟩ := hwritten
    exact ⟨_, hu, by simp [raiseErr], visible_endCommand (by exact h.quiet.1) _⟩

/-- A token from its length field on. -/
theorem encLen_leadsTo (h : Alone .serialize s) (hst : s.eng.st = .encLen) :
    ∃ u, LeadsTo s u ∧
      TokenWritten s.eng.cnt u (lengthAndValue s.plat s.eng.clen s.eng.vaddr s.eng.wcnt s.visible) := by
  have hload := (h.step hst (by decide)).trans (exec_encLen (by decide) hst)
  by_cases hzero : s.eng.clen = 0
  · rw [encLen_zero hzero] at hload
    rw [lengthAndValue_zero hzero]
    exact raise_leadsTo h hload _ _
  · rw [encLen_load hzero] at hload
    rw [lengthAndValue_field hzero]
    obtain ⟨hpos, hfive⟩ := lengthBytes_length s.eng.clen
    obtain ⟨u, hu, hwritten⟩ := field_leadsTo (h.withEngine _) rfl (pending_loadField hpos hfive .len s)
      fun w v hafter => valCopy_leadsTo s.eng.clen.toNat hafter rfl (Nat.zero_add _) (by bv_omega)
    exact ⟨u, .head hload hu, hwritten⟩

/-- A token from its tag field on. -/
theorem encTag_leadsTo (h : Alone .serialize s) (hst : s.eng.st = .encTag) :
    ∃ u, LeadsTo s u ∧ TokenWritten s.eng.cnt u
      (fieldsAndValue s.plat s.eng.ctag s.eng.clen s.eng.vaddr s.eng.wcnt s.visible) := by
  have hload := (h.step hst (by decide)).trans (exec_encTag (by decide) hst)
  cases hbs : tagBytes s.eng.ctag with
  | none =>
    rw [encTag_bad hbs] at hload
    rw [fieldsAndValue_bad hbs]
    exact raise_leadsTo h hload _ _
  | some bs =>
    rw [encTag_load hbs] at hload
    rw [fieldsAndValue_tag hbs]
    obtain ⟨hpos, hfour⟩ := tagBytes_length hbs
    obtain ⟨u, hu, hwritten⟩ := field_leadsTo (h.withEngine _) rfl (pending_loadField hpos (by omega) .tag s)
      fun w v hafter => encLen_leadsTo hafter rfl
    exact ⟨u, .head hload hu, hwritten⟩

/-- A whole token, from the first byte of its record on. -/
theorem token_leadsTo (h : Alone .serialize s) (hst : s.eng.st = .recRead) (hk : s.eng.k = 0) :
    ∃ u, LeadsTo s u ∧ TokenWritten s.eng.cnt u (serializeToken s.plat s.eng.cnt s.eng.wcnt s.visible) := by
  have hk0 : s.eng.k.toNat = 0 := congrArg BitVec.toNat hk
  obtain ⟨u, hu, hread⟩ := recRead_leadsTo 12 h hst (by omega) (by omega)
    fun m hm => absurd (hk0 ▸ hm) (Nat.not_lt_zero m)
  cases hrecord : recordAt s.plat s.visible s.eng.cnt with
  | none =>
    rw [hrecord] at hread
    obtain ⟨g, rfl⟩ := hread
    rw [serializeToken_refused hrecord]
    exact ⟨_, hu, by simp [raiseErr], visible_endCommand (by exact h.quiet.1) _⟩
  | some r =>
    obtain ⟨t, l, va⟩ := r
    rw [hrecord] at hread
    obtain ⟨k, r, rfl⟩ := hread
    rw [serializeToken_record hrecord]
    obtain ⟨w, hw, hwritten⟩ := encTag_leadsTo (alone_of_leadsTo h hu) rfl
    exact ⟨w, leadsTo_trans hu hw, hwritten⟩

/-! ## The loop over tokens (43_serialize.md R214) -/

/-- The `n` tokens still to come, from a token boundary on. -/
theorem tokStart_leadsTo (n : Nat) (h : Alone .serialize s) (hst : s.eng.st = .tokStart)
    (hn : s.eng.cnt.toNat + n = s.regs.tokN.toNat) :
    ∃ u, LeadsTo s u ∧ u.eng.st = .idle ∧ u.visible = serializeLoop s.plat n s.eng.cnt s.eng.wcnt s.visible := by
  induction n generalizing s with
  | zero =>
    have hstep := (h.step hst (by decide)).trans (exec_tokStart hst)
    rw [serializeTokStart_end (Nat.le_of_eq hn.symm)] at hstep
    exact ⟨_, .head hstep (.refl _), by simp [finish], visible_endCommand h.quiet.1 _⟩
  | succ n ih =>
    have hlt : s.eng.cnt < s.regs.tokN := by bv_omega
    have hstep := (h.step hst (by decide)).trans (exec_tokStart hst)
    rw [serializeTokStart_record hlt] at hstep
    obtain ⟨u, hu, hwritten⟩ := token_leadsTo (s := beginRecord s) (h.withEngine _) rfl rfl
    replace hu := LeadsTo.head hstep hu
    replace hwritten : TokenWritten s.eng.cnt u (serializeToken s.plat s.eng.cnt s.eng.wcnt s.visible) := hwritten
    rcases htoken : serializeToken s.plat s.eng.cnt s.eng.wcnt s.visible with ⟨_ | e, w, v⟩
    all_goals rw [htoken] at hwritten
    · obtain ⟨hust, hcnt, hwcnt, hv⟩ := hwritten
      obtain ⟨hplat, -, hargs, -⟩ := (Effects.setting_eq_iff s u).1 (setting_of_leadsTo h.sched_eq hu)
      obtain ⟨-, -, -, -, -, htokN, -⟩ := hargs
      obtain ⟨t, ht, hidle, hend⟩ := ih (alone_of_leadsTo h hu) hust (by rw [hcnt, htokN]; bv_omega)
      refine ⟨t, leadsTo_trans hu ht, hidle, ?_⟩
      rw [serializeLoop_token htoken, hend, hplat, hcnt, hwcnt, hv]
    · obtain ⟨hidle, hv⟩ := hwritten
      rw [serializeLoop_error htoken]
      exact ⟨u, hu, hidle, hv⟩

end token

/-- Settles O46: DISPATCH leads to the first token boundary, and the loop from there ends as the big step does. -/
theorem serializeRunIsItsBigStep : Obligations.SerializeRunIsItsBigStep := by
  intro s s₀
  have h : Alone .serialize s₀ := withCommand_alone .serialize s
  have hdispatch := (h.step (st := .dispatch) rfl (by decide)).trans (CommandWord.exec_dispatch_tokens (by decide) rfl)
  obtain ⟨u, hu, hidle, hv⟩ := tokStart_leadsTo s₀.regs.tokN.toNat
    (h.withEngine { s₀.eng with st := .tokStart }) rfl (Nat.zero_add _)
  exact endsWith_of_leadsTo (.head hdispatch hu) hidle hv

end Sys2Proof.SerializeRuns
end

section
/-! PROOF. The boundary steps of FIND, one at a time (44_find.md R240, R241): TOK_START and TOK_END are read by their tests, the bound
check before the tag comparison. -/
namespace Sys2Proof.FindSteps
open Sys2Proof Sys2Proof.Machine

section boundary
variable {s : State}

theorem exec_tokStart (hst : s.eng.st = .tokStart) : exec .find s = .next (findTokStart s) := by
  rw [exec, execFind, hst]

theorem exec_tokEnd (hst : s.eng.st = .tokEnd) : exec .find s = .next (findTokEnd s) := by
  rw [exec, execFind, hst]

theorem findTokStart_end (hend : s.regs.srcLen ≤ s.eng.off) : findTokStart s = raiseErr .notFound s := if_pos hend

theorem findTokStart_token (hlt : s.eng.off < s.regs.srcLen) :
    findTokStart s = { s with eng := { s.eng with tstart := s.eng.off, st := .tagFirst } } :=
  if_neg (BitVec.not_le.2 hlt)

/-- The token answered as the one found, at offset `tstart` (44_find.md R241). -/
def answerToken (s : State) : State :=
  { s with regs := { s.regs with
      res0 := s.eng.tstart, res1 := s.eng.ctag, res2 := s.eng.clen, res3 := s.regs.srcAddr + s.eng.vstart } }

/-- The token passed over, to the offset after its value (44_find.md R241). -/
def skipToken (s : State) : State :=
  { s with eng := { s.eng with off := s.eng.vstart + s.eng.clen, st := .tokStart } }

/-- A token whose value lies within the buffer is compared with the target. -/
theorem findTokEnd_fits (hfits : s.eng.vstart.toNat + s.eng.clen.toNat ≤ s.regs.srcLen.toNat) :
    findTokEnd s = if s.eng.ctag = s.regs.arg then finish (answerToken s) else skipToken s :=
  if_neg (by simpa [valueOverruns] using hfits)

end boundary

/-- Settles O27: each clause is one branch of TOK_START or TOK_END, in the order of their tests. -/
theorem findTokenBoundarySteps : Obligations.FindTokenBoundarySteps := by
  refine fun s => ⟨fun hst => ⟨fun hend => ?_, fun hlt => ?_⟩,
    fun hst => ⟨fun hover => ?_, fun hfits hmatch => ?_, fun hfits hother => ?_⟩⟩
  · rw [exec_tokStart hst, findTokStart_end hend]
  · rw [exec_tokStart hst, findTokStart_token hlt]
  · exact TokenReading.exec_tokEnd_over (by decide) hst hover
  · rw [exec_tokEnd hst, findTokEnd_fits hfits, if_pos hmatch, answerToken]
  · rw [exec_tokEnd hst, findTokEnd_fits hfits, if_neg hother, skipToken]

end Sys2Proof.FindSteps
end

section
/-! PROOF. FIND, run to its end, is its big step (44_find.md R242), and what that leaves in the results (R243). The loop over tokens is
an induction: each turn reads a token and answers it, or passes over it to the rest of the loop. -/
namespace Sys2Proof.FindRuns
open Sys2Proof Sys2Proof.Machine Sys2Proof.Laws Sys2Proof.TagRuns Sys2Proof.LengthSteps Sys2Proof.LengthRuns
open Sys2Proof.TokenReading Sys2Proof.FindSteps
open Sys2Proof.ParseRuns (beginToken fewer_left eq_none_of_errCode)

/-! ## The big step's loop, test by test (44_find.md R242) -/

section bigStep
variable {p : Platform} {v : Visible} {off t l vs : Word}

/-- The registers and memory with a token as the one found (44_find.md R241). -/
def tokenFound (v : Visible) (off t l vs : Word) : Visible :=
  { v with regs := { v.regs with res0 := off, res1 := t, res2 := l, res3 := v.regs.srcAddr + vs } }

theorem findLoop_end (hend : v.regs.srcLen ≤ off) (n : Nat) : findLoop p (n + 1) off v = v.ended (some .notFound) :=
  if_pos hend

theorem findLoop_error {e : Err} (hlt : off < v.regs.srcLen) (htoken : tokenAt p v off = .error e) (n : Nat) :
    findLoop p (n + 1) off v = v.ended (some e) := by
  rw [findLoop, if_neg (BitVec.not_le.2 hlt), htoken]

theorem findLoop_token (hlt : off < v.regs.srcLen) (htoken : tokenAt p v off = .ok (t, l, vs)) (n : Nat) :
    findLoop p (n + 1) off v =
      if t = v.regs.arg then (tokenFound v off t l vs).ended none else findLoop p n (vs + l) v := by
  rw [findLoop, if_neg (BitVec.not_le.2 hlt), htoken]
  rfl

end bigStep

/-! ## The loop over tokens (44_find.md R242) -/

/-- What FIND has come to after the token at its offset, when that is read: the command's end, or TOK_START after the token's value. -/
def TokenTried (s : State) (u : State) : Except Err (Word × Word × Word) → Prop
  | .error e => ∃ g, u = raiseErr e { s with eng := g }
  | .ok (t, l, vs) =>
    if t = s.regs.arg then u.eng.st = .idle ∧ u.visible = (tokenFound s.visible s.eng.off t l vs).ended none
    else ∃ g : Engine, u = { s with eng := g } ∧ g.st = .tokStart ∧ g.off = vs + l

section loop
variable {s : State}

/-- A token read, its value within the buffer, is compared with the target (44_find.md R241). -/
theorem tokEnd_tries {t l vs : Word} {u : State} (h : Alone .find s) (hread : FieldsRead (beginToken s) t l vs u)
    (hfits : vs.toNat + l.toNat ≤ s.regs.srcLen.toNat) :
    ∃ w, step u = .next w ∧ TokenTried s w (.ok (t, l, vs)) := by
  obtain ⟨first, nrem, hend⟩ := hread
  have hst : u.eng.st = .tokEnd := by rw [hend]
  have hu : Alone .find u := hend ▸ h.withEngine _
  have hstep := (hu.step hst (by decide)).trans (exec_tokEnd hst)
  rw [findTokEnd_fits (by rw [hend]; exact hfits)] at hstep
  subst hend
  by_cases hmatch : t = s.regs.arg
  · exact ⟨_, hstep.trans (congrArg _ (if_pos hmatch)),
      (if_pos hmatch).mpr ⟨by simp [finish], visible_endCommand (by exact h.quiet.1) _⟩⟩
  · exact ⟨_, hstep.trans (congrArg _ (if_neg hmatch)), (if_neg hmatch).mpr ⟨_, rfl, rfl, rfl⟩⟩

/-- A turn of the loop, when bytes remain: a token is read, and compared with the target once its value is known to lie within the
buffer. -/
theorem turn_leadsTo (h : Alone .find s) (hst : s.eng.st = .tokStart) (hlt : s.eng.off < s.regs.srcLen) :
    ∃ u, LeadsTo s u ∧ TokenTried s u (tokenAt s.plat s.visible s.eng.off) := by
  have hbegin := (h.step hst (by decide)).trans (exec_tokStart hst)
  rw [findTokStart_token hlt] at hbegin
  obtain ⟨u, hu, hread⟩ := token_leadsTo (by decide) (s := beginToken s) (h.withEngine _) rfl
  replace hread : TokenRead (beginToken s) u (tokenAt s.plat s.visible s.eng.off) := hread
  have hsu : LeadsTo s u := .head hbegin hu
  cases htoken : tokenAt s.plat s.visible s.eng.off with
  | error e =>
    rw [htoken] at hread
    exact ⟨u, hsu, hread⟩
  | ok r =>
    obtain ⟨t, l, vs⟩ := r
    obtain ⟨-, hfits⟩ := tokenAt_ok htoken
    rw [htoken] at hread
    obtain ⟨w, hstep, htried⟩ := tokEnd_tries h hread hfits
    exact ⟨w, leadsTo_trans hsu (.head hstep (.refl _)), htried⟩

/-- The rest of the loop, from a token boundary on: the source bytes left bound its turns. -/
theorem tokStart_leadsTo (n : Nat) (h : Alone .find s) (hst : s.eng.st = .tokStart)
    (hn : s.regs.srcLen.toNat - s.eng.off.toNat < n) :
    ∃ u, LeadsTo s u ∧ u.eng.st = .idle ∧ u.visible = findLoop s.plat n s.eng.off s.visible := by
  induction n generalizing s with
  | zero => exact absurd hn (Nat.not_lt_zero _)
  | succ n ih =>
    by_cases hend : s.regs.srcLen ≤ s.eng.off
    · have hstep := (h.step hst (by decide)).trans (exec_tokStart hst)
      rw [findTokStart_end hend] at hstep
      rw [findLoop_end (v := s.visible) hend]
      exact ⟨_, .head hstep (.refl _), by simp [raiseErr], visible_endCommand h.quiet.1 _⟩
    have hlt := BitVec.not_le.1 hend
    obtain ⟨u, hu, htried⟩ := turn_leadsTo h hst hlt
    cases htoken : tokenAt s.plat s.visible s.eng.off with
    | error e =>
      rw [htoken] at htried
      obtain ⟨g, rfl⟩ := htried
      rw [findLoop_error (v := s.visible) hlt htoken]
      exact ⟨_, hu, by simp [raiseErr], visible_endCommand (by exact h.quiet.1) _⟩
    | ok r =>
      obtain ⟨t, l, vs⟩ := r
      rw [htoken] at htried
      rw [findLoop_token (v := s.visible) hlt htoken]
      by_cases hmatch : t = s.regs.arg
      · obtain ⟨hidle, hv⟩ := (if_pos hmatch).mp htried
        exact ⟨u, hu, hidle, hv.trans (if_pos hmatch).symm⟩
      · obtain ⟨g, rfl, hgst, hgoff⟩ := (if_neg hmatch).mp htried
        obtain ⟨hstart, hfits⟩ := tokenAt_ok htoken
        have hleft : s.regs.srcLen.toNat - g.off.toNat < n := by
          rw [hgoff]
          exact (fewer_left hlt hstart hfits).trans_le (Nat.le_of_lt_succ hn)
        obtain ⟨w, hw, hidle, hv⟩ := ih (h.withEngine g) hgst hleft
        refine ⟨w, leadsTo_trans hu hw, hidle, hv.trans ?_⟩
        exact (congrArg (findLoop s.plat n · s.visible) hgoff).trans (if_neg hmatch).symm

end loop

/-- Settles O47: DISPATCH leads to the first token boundary, and the loop from there ends as the big step does. -/
theorem findRunIsItsBigStep : Obligations.FindRunIsItsBigStep := by
  intro s s₀
  have h : Alone .find s₀ := withCommand_alone .find s
  have hdispatch := (h.step (st := .dispatch) rfl (by decide)).trans (CommandWord.exec_dispatch_tokens (by decide) rfl)
  obtain ⟨u, hu, hidle, hv⟩ := tokStart_leadsTo (s₀.regs.srcLen.toNat + 1)
    (h.withEngine { s₀.eng with st := .tokStart }) rfl (Nat.lt_succ_of_le (Nat.sub_le _ _))
  exact endsWith_of_leadsTo (.head hdispatch hu) hidle hv

/-! ## NotFound speaks of the search alone (44_find.md R240) -/

section notFound
variable {p : Platform} {v : Visible}

/-- A field's reader answers an error of its own at the buffer's end, BusError for a refused byte, and otherwise what its byte says. -/
theorem ne_notFound_of_byte {α : Type} {o : Word} {r : Except Err α} {e : Err} (hend : v.regs.srcLen ≤ o → r = .error e)
    (hrefused : o < v.regs.srcLen → srcByte p v o = none → r = .error .busError)
    (hbyte : ∀ b, o < v.regs.srcLen → srcByte p v o = some b → r ≠ .error .notFound)
    (he : e ≠ .notFound := by decide) : r ≠ .error .notFound := by
  by_cases hle : v.regs.srcLen ≤ o
  · rw [hend hle]
    exact fun h => he (Except.error.inj h)
  have hlt := BitVec.not_le.1 hle
  cases hb : srcByte p v o with
  | none =>
    rw [hrefused hlt hb]
    nofun
  | some b => exact hbyte b hlt hb

theorem tagTail_ne_notFound (n : Nat) (first : Bool) (t o : Word) : tagTail p v n first t o ≠ .error .notFound := by
  induction n generalizing first t o with
  | zero => nofun
  | succ n ih =>
    refine ne_notFound_of_byte (tagTail_end · n first t) (tagTail_refused · · n first t) fun b hlt hbyte => ?_
    rw [tagTail_byte hlt hbyte]
    split_ifs
    · nofun
    · nofun
    · exact ih false (shiftIn t b) (o + 1)
    · nofun

theorem tagField_ne_notFound (o : Word) : tagField p v o ≠ .error .notFound := by
  refine ne_notFound_of_byte tagField_end tagField_refused fun b hlt hbyte => ?_
  rw [tagField_byte hlt hbyte]
  split_ifs
  · exact tagTail_ne_notFound 4 true (zext32 b) (o + 1)
  · nofun

theorem lenTail_ne_notFound (n : Nat) (msb : Bool) (l o : Word) : lenTail p v n msb l o ≠ .error .notFound := by
  induction n generalizing msb l o with
  | zero => nofun
  | succ n ih =>
    refine ne_notFound_of_byte (lenTail_end · n msb l) (lenTail_refused · · n msb l) fun b hlt hbyte => ?_
    rw [lenTail_byte hlt hbyte]
    split_ifs
    · nofun
    · exact ih false (shiftIn l b) (o + 1)

theorem lenField_ne_notFound (o : Word) : lenField p v o ≠ .error .notFound := by
  refine ne_notFound_of_byte lenField_end lenField_refused fun b hlt hbyte => ?_
  rw [lenField_byte hlt hbyte]
  rcases lead_cases b with hshort | hbad | ⟨hlo, hhi⟩ | ⟨hlo, hhi⟩
  · rw [leadTests_short hshort]
    nofun
  · rw [leadTests_invalid hbad]
    nofun
  · rw [leadTests_overflow hlo hhi]
    nofun
  · rw [leadTests_long hlo hhi]
    exact lenTail_ne_notFound _ _ 0 (o + 1)

theorem tokenAt_ne_notFound (off : Word) : tokenAt p v off ≠ .error .notFound := by
  cases ht : tagField p v off with
  | error e =>
    rw [tokenAt_tagError ht]
    rintro ⟨⟩
    exact tagField_ne_notFound off ht
  | ok r =>
    obtain ⟨t, o⟩ := r
    cases hl : lenField p v o with
    | error e =>
      rw [tokenAt_lengthError ht hl]
      rintro ⟨⟩
      exact lenField_ne_notFound o hl
    | ok r =>
      obtain ⟨l, vs⟩ := r
      rw [tokenAt_fields ht hl]
      split_ifs
      · nofun
      · nofun

end notFound

/-! ## The accepted command word leaves the tokens as they were (10_state.md R24) -/

/-- The registers and memory as the accepted FIND command leaves them (10_state.md R24). -/
def commandStarted (v : Visible) : Visible := { v with regs := v.regs.started Instr.find.op }

theorem visible_withCommand (s : State) : (s.withCommand (encode .find)).visible = commandStarted s.visible := rfl

section started
variable {p : Platform} {v : Visible}

theorem lenTail_started (n : Nat) (msb : Bool) (l o : Word) :
    lenTail p (commandStarted v) n msb l o = lenTail p v n msb l o := by
  induction n generalizing msb l o with
  | zero => rfl
  | succ n ih =>
    rw [lenTail, lenTail]
    simp only [ih]
    rfl

theorem lenField_started (o : Word) : lenField p (commandStarted v) o = lenField p v o := by
  rw [lenField, lenField]
  simp only [lenTail_started]
  rfl

theorem tokenAt_started (off : Word) : tokenAt p (commandStarted v) off = tokenAt p v off := by
  rw [tokenAt, tokenAt]
  simp only [lenField_started]
  rfl

theorem skipsToken_started : SkipsToken p (commandStarted v) = SkipsToken p v := by
  funext o o'
  simp only [SkipsToken, tokenAt_started]
  rfl

end started

/-! ## The results (44_find.md R243) -/

/-- FIND has passed over tokens with other tags, from the start of the buffer to offset `o` (44_find.md R241). -/
abbrev Passes (p : Platform) (v : Visible) (o : Word) : Prop := Relation.ReflTransGen (SkipsToken p v) 0 o

/-- What the results of FIND say at its end, of the source buffer and the target in `v`. -/
structure ResultsEnd (p : Platform) (v : Visible) (g : Regs) : Prop where
  found : g.err = 0 → Passes p v g.res0 ∧ ∃ vs, tokenAt p v g.res0 = .ok (v.regs.arg, g.res2, vs)
    ∧ g.res1 = v.regs.arg ∧ g.res3 = v.regs.srcAddr + vs
  notFound : g.err = 7 → ∃ o, v.regs.srcLen ≤ o ∧ Passes p v o

/-- An error's code tells it from NotFound (60_exceptions.md R270). -/
theorem eq_notFound_of_errCode {e : Option Err} (h : errCode e = 7) : e = some .notFound := by
  cases e with
  | none => cases h
  | some e =>
    cases e with
    | notFound => rfl
    | _ => cases h

section results
variable {p : Platform} {v : Visible} {off : Word}

theorem ResultsEnd.of_end (h : Passes p v off) (hend : v.regs.srcLen ≤ off) :
    ResultsEnd p v (v.ended (some .notFound)).regs where
  found herr := by cases eq_none_of_errCode (e := some .notFound) herr
  notFound _ := ⟨off, hend, h⟩

theorem ResultsEnd.of_error {e : Err} (hne : e ≠ .notFound) : ResultsEnd p v (v.ended (some e)).regs where
  found herr := by cases eq_none_of_errCode (e := some e) herr
  notFound herr := absurd (Option.some.inj (eq_notFound_of_errCode (e := some e) herr)) hne

theorem ResultsEnd.of_match {t l vs : Word} (h : Passes p v off) (htoken : tokenAt p v off = .ok (t, l, vs))
    (hmatch : t = v.regs.arg) : ResultsEnd p v ((tokenFound v off t l vs).ended none).regs where
  found _ := ⟨h, vs, hmatch ▸ htoken, hmatch, rfl⟩
  notFound herr := by cases eq_notFound_of_errCode (e := none) herr

theorem ResultsEnd.of_started {g : Regs} (h : ResultsEnd p (commandStarted v) g) : ResultsEnd p v g := by
  obtain ⟨hfound, hnone⟩ := h
  simp only [Passes, skipsToken_started, tokenAt_started] at hfound hnone
  exact ⟨hfound, hnone⟩

theorem findLoop_results (n : Nat) (hn : v.regs.srcLen.toNat - off.toNat < n) (h : Passes p v off) :
    ResultsEnd p v (findLoop p n off v).regs := by
  induction n generalizing off with
  | zero => exact absurd hn (Nat.not_lt_zero _)
  | succ n ih =>
    by_cases hend : v.regs.srcLen ≤ off
    · rw [findLoop_end hend]
      exact .of_end h hend
    have hlt := BitVec.not_le.1 hend
    cases htoken : tokenAt p v off with
    | error e =>
      rw [findLoop_error hlt htoken]
      exact .of_error fun he => tokenAt_ne_notFound off (he ▸ htoken)
    | ok r =>
      obtain ⟨t, l, vs⟩ := r
      rw [findLoop_token hlt htoken]
      split_ifs with hmatch
      · exact .of_match h htoken hmatch
      · obtain ⟨hstart, hfits⟩ := tokenAt_ok htoken
        exact ih ((fewer_left hlt hstart hfits).trans_le (Nat.le_of_lt_succ hn)) (h.tail ⟨t, l, vs, htoken, hmatch, rfl⟩)

end results

/-- Settles O57: FIND ends as its big step does, whose loop starts at offset 0 and passes over one token with another tag each turn. -/
theorem findReturnsTheFirstMatch : Obligations.FindReturnsTheFirstMatch := by
  intro s t ht
  obtain ⟨u, hu, -, hv⟩ := findRunIsItsBigStep s
  obtain rfl : t = u := by
    rw [ht] at hu
    cases hu
    rfl
  have hend : ResultsEnd s.plat s.visible (bigFind s.plat (commandStarted s.visible)).regs :=
    (findLoop_results _ (Nat.lt_succ_of_le (Nat.sub_le _ _)) .refl).of_started
  rw [visible_withCommand] at hv
  have hregs : t.regs = _ := congrArg Visible.regs hv
  obtain ⟨hfound, hnone⟩ := hregs ▸ hend
  exact ⟨hfound, hnone⟩

end Sys2Proof.FindRuns
end

section
/-! PROOF. The two ways a command ends, with no race open (60_exceptions.md R270 to R272): `finish` and `raise` are one operation, the
end of a command, and differ only in the code that goes to ERR. -/
namespace Sys2Proof.CommandEnds
open Sys2Proof Sys2Proof.Machine Sys2Proof.Laws

/-- Settles O14: both are the end of a command, and the error kinds are taken one by one for their codes (R270). -/
theorem finishAndRaiseEndTheCommand : Obligations.FinishAndRaiseEndTheCommand := by
  intro s hquiet
  refine ⟨endCommand_quiet hquiet none, fun e => (endCommand_quiet hquiet (some e)).trans ?_⟩
  cases e <;> rfl

end Sys2Proof.CommandEnds
end

section
/-! PROOF. Reset (70_reset_and_hazards.md R300, R301): every register takes its reset value, memory stays, and the running command
goes no further. -/
namespace Sys2Proof.Reset
open Sys2Proof Sys2Proof.Machine Sys2Proof.Laws

/-- Settles O11: both register files are the reset ones, and memory is the one before. -/
theorem resetClearsEveryRegister : Obligations.ResetClearsEveryRegister := fun s =>
  ⟨resetBlock_regs s, resetBlock_eng s, resetBlock_mem s⟩

/-- `STATUS` after a reset (10_state.md R25, 70_reset_and_hazards.md R301). -/
theorem statusWord_zero : statusWord Regs.zero = 0 := by decide

/-- Settles O12: the turn is the host's reset, after which the engine is idle and, with nothing scheduled, stays so. -/
theorem resetAbortsTheRunningCommand : Obligations.ResetAbortsTheRunningCommand := fun _ _ hsched =>
  ⟨_, Effects.step_host hsched, rfl, statusWord_zero, rfl, fun hl => run_idle rfl hl⟩

/-- Settles O34: its engine is idle, which meets each of the invariants, and its memory lists no byte. -/
theorem resetMeetsTheInvariants : Obligations.ResetMeetsTheInvariants :=
  ⟨EngineRules.engineInv_of_idle rfl rfl (Nat.zero_le _), Bounds.boundsInv_of_idle rfl, Effects.resultsInv_of_idle rfl, rfl⟩

end Sys2Proof.Reset
end

section
/-! PROOF. The races of 70_reset_and_hazards.md R303: a host write to a byte the running command may read (item 1), a byte that both
write (item 2), and a host read of a byte the command may write (item 3). Each free value is whatever it is: the proofs go through
for every choice. -/
namespace Sys2Proof.Races
open Sys2Proof Sys2Proof.Machine Sys2Proof.Laws

/-! ## A host write to a byte the command may read (R303 item 1) -/

/-- The write opens a race, after the byte is stored. -/
theorem hostStore_breach {s : State} {a : Word} (hbusy : s.regs.busy = true) (hread : inReadRegion s a = true) (v : Byte) :
    hostStore a v s = raceCommand { s with mem := s.mem.write a.toNat v } :=
  if_pos ⟨hbusy, .inl hread⟩

/-- The byte at an address is one of the `n` free values from number `c` on (log 6). -/
def HoldsFreeByte (c n : Nat) (m : Memory) (a : Nat) : Prop := ∃ j, j < n ∧ m.read a = Config.freeByte (c + j)

theorem HoldsFreeByte.succ {c n a : Nat} {m : Memory} : HoldsFreeByte c n m a → HoldsFreeByte c (n + 1) m a
  | ⟨j, hj, hfree⟩ => ⟨j, hj.trans n.lt_succ_self, hfree⟩

/-- Giving bytes free values leaves the byte at an address, or one of the free values there. -/
theorem read_freeBytes {m : Memory} (hm : m.wf = true) (n : Nat) (base : Word) (c a : Nat) :
    (freeBytes n base c m).read a = m.read a ∨ HoldsFreeByte c n (freeBytes n base c m) a := by
  induction n generalizing m with
  | zero => exact .inl rfl
  | succ n ih =>
    rw [freeBytes]
    rcases ih (wf_write hm _ _) with hkept | hfree
    · by_cases ha : a = (base + BitVec.ofNat 32 n).toNat
      · exact .inr ⟨n, n.lt_succ_self, hkept.trans (ha ▸ read_write_same hm _ _)⟩
      · exact .inl (hkept.trans (read_write_other m ha _))
    · exact .inr hfree.succ

/-- Each of the bytes that were to be freed holds one of the free values. More than 2^32 of them go round the space, and a later
value replaces an earlier one. -/
theorem freeBytes_holdsFreeByte {m : Memory} (hm : m.wf = true) {n k : Nat} (hk : k < n) (base : Word) (c : Nat) :
    HoldsFreeByte c n (freeBytes n base c m) (base + BitVec.ofNat 32 k).toNat := by
  induction n generalizing m with
  | zero => exact absurd hk k.not_lt_zero
  | succ n ih =>
    rw [freeBytes]
    have hm' := wf_write hm (base + BitVec.ofNat 32 n) (Config.freeByte (c + n))
    rcases Nat.lt_succ_iff_lt_or_eq.1 hk with hlt | rfl
    · exact (ih hm' hlt).succ
    · rcases read_freeBytes hm' k base c (base + BitVec.ofNat 32 k).toNat with hkept | hfree
      · exact ⟨k, hk, hkept.trans (read_write_same hm _ _)⟩
      · exact hfree.succ

/-- The byte that an engine write leaves at its address (20_memory.md R60). -/
theorem read_memWrite {s t : State} {a : Word} {v : Byte} (hm : s.mem.wf = true) (h : memWrite a v s = some t) :
    t.mem.read a.toNat = storedByte a v s := by
  obtain ⟨-, n, b, rfl, rfl, -⟩ := memWrite_some h
  exact read_write_same hm _ _

theorem storedByte_raced {s : State} (h : s.env.raced = true) (a : Word) (v : Byte) :
    storedByte a v s = Config.freeByte s.env.freeCtr := if_pos h

/-- In a raced command each write uses up one free value (log 6). -/
theorem memWrite_freeCtr {s t : State} {a : Word} {v : Byte} (hraced : s.env.raced = true) (h : memWrite a v s = some t) :
    t.env.freeCtr = s.env.freeCtr + 1 := by
  unfold memWrite at h
  split at h
  · cases h
    exact if_pos (.inl hraced)
  · cases h

/-- The end of a raced command makes its results free (log 6). -/
theorem endCommand_raced {s : State} (h : s.env.raced = true) (e : Option Err) :
    (endCommand e s).regs = s.regs.endedFree s.env.freeCtr := by
  rw [endCommand, if_pos h]

/-- Settles O58: the breach, a write in a raced command, and its end, each by what the operation does once a race is open. -/
theorem racedCommandsEndWithFreeResults : Obligations.RacedCommandsEndWithFreeResults := by
  refine ⟨fun s a v hbusy hread => ?_, fun s t a v hraced hm ht => ?_, fun s e hraced => ?_⟩
  · have hbreach := hostStore_breach hbusy hread v
    refine ⟨congrArg (·.env.raced) hbreach, hostMemWrite_regs a v s, hostMemWrite_eng a v s, fun hm k hk => ?_⟩
    have hmem : (hostMove (.memWrite a v) s).mem = _ := (hostMemWrite_mem a v s).trans (congrArg State.mem hbreach)
    rw [hmem]
    exact freeBytes_holdsFreeByte (wf_write hm a v) hk _ _
  · exact ⟨(read_memWrite hm ht).trans (storedByte_raced hraced a v), memWrite_freeCtr hraced ht⟩
  · have hidle : (endCommand e s).eng.st = .idle := congrArg Engine.st (endCommand_eng s e)
    have herr := endCommand_err_le e s
    refine ⟨endCommand_busy s e, endCommand_done s e, hidle, endCommand_mem s e, ?_⟩
    rw [endCommand_raced hraced] at herr ⊢
    exact ⟨⟨rfl, rfl, rfl, rfl, rfl, rfl, rfl⟩, rfl, herr, rfl, rfl, rfl, rfl⟩

/-! ## A byte that host and engine both write (R303 item 2) -/

section contested
variable {s : State} {a : Word}

/-- Without a race, an engine write at a noted address leaves its byte or the one there. -/
theorem storedByte_contested (hraced : s.env.raced = false) (ha : a.toNat ∈ s.env.contested) (v : Byte) :
    storedByte a v s = v ∨ storedByte a v s = s.mem.read a.toNat := by
  rw [storedByte, if_neg (by simp [hraced]), if_pos ha]
  split
  · exact .inl rfl
  · exact .inr rfl

theorem memWrite_contested {t : State} {v : Byte} (hm : s.mem.wf = true) (hraced : s.env.raced = false)
    (ha : a.toNat ∈ s.env.contested) (h : memWrite a v s = some t) :
    t.mem.read a.toNat = v ∨ t.mem.read a.toNat = s.mem.read a.toNat := by
  rw [read_memWrite hm h]
  exact storedByte_contested hraced ha v

/-- With no race open, the running command may write the byte at the address, and may not read it. -/
structure OnlyWritable (s : State) (a : Word) : Prop where
  calm : s.env.raced = false
  busy : s.regs.busy = true
  not_read : inReadRegion s a = false
  write : inWriteRegion s a = true

/-- A host write there is decided by whether the engine has written the byte. -/
theorem OnlyWritable.hostStore_eq (h : OnlyWritable s a) (v : Byte) :
    hostStore a v s =
      if dist (writtenSoFar s).1 a < (writtenSoFar s).2 then
        { s with
          mem := s.mem.write a.toNat (if Config.freeBool s.env.freeCtr then v else s.mem.read a.toNat)
          env := { s.env with freeCtr := s.env.freeCtr + 1 } }
      else { s with mem := s.mem.write a.toNat v, env := { s.env with contested := a.toNat :: s.env.contested } } := by
  rw [hostStore, if_neg (by simp [h.not_read, h.calm]), if_pos ⟨h.busy, h.write⟩]

/-- Where the engine has not written yet, the host's byte is stored and the address noted. -/
theorem OnlyWritable.unwritten (h : OnlyWritable s a) (hm : s.mem.wf = true)
    (hnew : (writtenSoFar s).2 ≤ dist (writtenSoFar s).1 a) (v : Byte) :
    (hostMemWrite a v s).mem.read a.toNat = v
      ∧ (hostMemWrite a v s).env.contested = a.toNat :: s.env.contested := by
  rw [hostMemWrite_mem, hostMemWrite_contested, h.hostStore_eq, if_neg hnew.not_gt]
  exact ⟨read_write_same hm _ _, rfl⟩

/-- Where the engine has written, the host's byte or the one there stands, and nothing is noted. -/
theorem OnlyWritable.written (h : OnlyWritable s a) (hm : s.mem.wf = true)
    (hold : dist (writtenSoFar s).1 a < (writtenSoFar s).2) (v : Byte) :
    ((hostMemWrite a v s).mem.read a.toNat = v ∨ (hostMemWrite a v s).mem.read a.toNat = s.mem.read a.toNat)
      ∧ (hostMemWrite a v s).env.contested = s.env.contested := by
  rw [hostMemWrite_mem, hostMemWrite_contested, h.hostStore_eq, if_pos hold, read_write_same hm]
  refine ⟨?_, rfl⟩
  split
  · exact .inl rfl
  · exact .inr rfl

/-- Such a write opens no race, and reaches no other byte. -/
theorem OnlyWritable.frame (h : OnlyWritable s a) (v : Byte) :
    (∀ b, b ≠ a.toNat → (hostMemWrite a v s).mem.read b = s.mem.read b) ∧ (hostMemWrite a v s).env.raced = false := by
  rw [hostMemWrite_mem, hostMemWrite_raced, h.hostStore_eq]
  split
  · exact ⟨fun _ hb => read_write_other _ hb _, h.calm⟩
  · exact ⟨fun _ hb => read_write_other _ hb _, h.calm⟩

end contested

/-- Settles O59: the host's write on either side of the bytes written so far, and the engine's write at a noted address. -/
theorem contestedBytesHaveOneOfTheTwoValues : Obligations.ContestedBytesHaveOneOfTheTwoValues := by
  refine ⟨fun s a v hm hraced hbusy hread hwrite => ?_, fun s t a v hm hraced ha => memWrite_contested hm hraced ha⟩
  have h : OnlyWritable s a := ⟨hraced, hbusy, hread, hwrite⟩
  obtain ⟨hother, hcalm⟩ := h.frame v
  refine ⟨fun hnew => ?_, fun hold => h.written hm hold v, hother, hostMemWrite_regs a v s, hostMemWrite_eng a v s, hcalm⟩
  obtain ⟨hbyte, hnoted⟩ := h.unwritten hm hnew v
  refine ⟨hbyte, hnoted, fun w u hu => ?_⟩
  have hwf := MemoryAccess.hostMove_wf hm (.memWrite a v)
  have hin : a.toNat ∈ (hostMemWrite a v s).env.contested := hnoted ▸ List.mem_cons_self
  exact hbyte ▸ (memWrite_contested hwf hcalm hin hu).symm

/-! ## A host read of a byte the command may write (R303 item 3) -/

/-- Where the command may not write, the host reads the byte memory holds (20_memory.md R71). -/
theorem hostMemRead_ordinary {s : State} {a : Word} (h : s.regs.busy = false ∨ inWriteRegion s a = false) :
    hostMemRead a s = s.mem.read a.toNat :=
  if_neg fun ⟨hbusy, hwrite⟩ => by simp [hbusy, hwrite] at h

/-- A host read returns one of the three bytes, and the ordinary one where no command may write. -/
theorem hostMemRead_values (a : Word) (s : State) :
    ((s.regs.busy = false ∨ inWriteRegion s a = false) → hostMemRead a s = s.mem.read a.toNat)
      ∧ (hostMemRead a s = s.mem.read a.toNat ∨ hostMemRead a s = s.env.before.read a.toNat
        ∨ hostMemRead a s = (commandEnd s).mem.read a.toNat) :=
  ⟨hostMemRead_ordinary, (hostMemRead_cases a s).imp_right fun ⟨_, _, h⟩ => h⟩

/-- The engine's run is the machine's with nothing scheduled, once that has come to IDLE. -/
theorem engineRun_of_run {s u : State} {n m : Nat} (hsched : s.env.sched = []) (hnm : n ≤ m) (hu : run n s = .next u)
    (hidle : u.eng.st = .idle) : engineRun m s = u := by
  induction n generalizing s m with
  | zero =>
    cases hu
    exact engineRun_idle hidle m
  | succ n ih =>
    by_cases hs : s.eng.st = .idle
    · cases (run_idle hs hsched (n + 1)).symm.trans hu
      exact engineRun_idle hs m
    obtain ⟨m, rfl⟩ := Nat.exists_eq_add_of_le' ((Nat.le_add_left 1 n).trans hnm)
    cases ht : engineStep s with
    | next t =>
      rw [run_succ_next ((step_empty hsched).trans ht)] at hu
      have hkeep : t.env.sched = s.env.sched := congrArg Effects.Setting.sched (Effects.engineStep_setting s t ht)
      rw [engineRun_next hs ht]
      exact ih (hkeep.trans hsched) (Nat.le_of_succ_le_succ hnm) hu
    | _ =>
      rw [run_succ, step_empty hsched, ht] at hu
      cases hu

/-- `CMD` gives back the opcode it stores (10_state.md R23). -/
theorem opField_cmdWord (g : Regs) : opField (cmdWord g) = g.op := by
  rw [CommandWord.opField_eq_iff, cmdWord, BitVec.toNat_setWidth]
  omega

/-- A run that ends with `BUSY` at 0 has come to IDLE (10_state.md R33). -/
theorem idle_of_run {s u : State} {n : Nat} (h : EngineInv s) (hu : run n s = .next u) (hbusy : u.regs.busy = false) :
    u.eng.st = .idle := by
  have hinv : EngineInv u :=
    FieldDecoding.run_keeps (fun v hv t ht => EngineRules.everyStepKeepsEngineInv v t hv ht) n h u hu
  obtain ⟨⟨hiff, -⟩, -⟩ := hinv
  by_contra hne
  exact absurd (hiff.2 hne) (by simp [hbusy])

section alone
variable {s t : State} {w : Word}

/-- Along a command that runs alone, the start that the host's reads look back to is the command's own, but for the free values used
up since. -/
theorem commandStart_eq_putEnv (h : Effects.setting t = Effects.setting (s.withCommand w)) :
    commandStart t = Noninterference.putEnv (commandStart t).env (s.withCommand w) := by
  obtain ⟨hplat, hop, ⟨h1, h2, h3, h4, h5, h6, h7⟩, -, -, -, -, hbefore⟩ := (Effects.setting_eq_iff _ t).1 h
  simp [commandStart, State.withCommand, startCommand, Noninterference.putEnv, Regs.started, opField_cmdWord, hplat, hop, h1,
    h2, h3, h4, h5, h6, h7, hbefore]

/-- The step bound is one of the opcode and the arguments (70_reset_and_hazards.md R307). -/
theorem commandBound_eq (h : Effects.setting t = Effects.setting s) : commandBound t.regs = commandBound s.regs := by
  obtain ⟨-, hop, ⟨-, h2, -, h4, -, h6, -⟩, -⟩ := (Effects.setting_eq_iff s t).1 h
  simp only [commandBound, stepBound, hop, h2, h4, h6]

/-- From anywhere along a command that runs alone, the command's end is where its run comes to rest, bookkeeping aside. -/
theorem commandEnd_alone {u : State} {n : Nat} (h : Effects.setting t = Effects.setting (s.withCommand w))
    (hu : run n (s.withCommand w) = .next u) (hidle : u.eng.st = .idle) :
    commandEnd t = Noninterference.putEnv (commandStart t).env u := by
  obtain ⟨-, -, -, hsched, -, hraced, -⟩ := (Effects.setting_eq_iff _ t).1 h
  obtain ⟨u', hu', hstart⟩ := Noninterference.run_putEnv (v := (commandStart t).env) ⟨rfl, rfl⟩ hsched
    (commandBound (s.withCommand w).regs) (EngineRules.startCommand_inv w (s.withSched [])) ⟨rfl, rfl⟩ rfl
  have hidle' := FieldDecoding.run_commandBound_idle s w u' hu'
  obtain rfl := TagRuns.run_idle_unique rfl hu hu' hidle hidle'
  rw [commandEnd_quiet hraced, commandBound_eq h]
  exact engineRun_of_run hsched le_rfl ((congrArg _ (commandStart_eq_putEnv h)).trans hstart) hidle

end alone

/-- Settles O60: the byte returned, the two ends of a command that the engine runs alone, and the end of a raced one. -/
theorem hostReadsTheOldOrTheEnginesByte : Obligations.HostReadsTheOldOrTheEnginesByte := by
  refine ⟨fun s a => ⟨rfl, rfl, rfl, rfl, hostMemRead a s, rfl, hostMemRead_values a s⟩,
    fun s t u w m n ht _ hu hbusy => ?_, fun s u n hraced hsched hn hu hidle => ?_⟩
  · have hset := FieldDecoding.run_setting m rfl t ht
    have hrun : run (m + n) (s.withCommand w) = .next u := (run_add ht n).trans hu
    have hidle : u.eng.st = .idle := idle_of_run (EngineRules.startCommand_inv w (s.withSched [])) hrun hbusy
    exact ⟨congrArg Effects.Setting.before hset, by rw [commandEnd_alone hset hrun hidle, Noninterference.putEnv_mem]⟩
  · rw [commandEnd_raced hraced, engineRun_of_run hsched hn hu hidle]

end Sys2Proof.Races
end
